-- ==== Sys2Proof/Word.lean ====
section
/-!
DEFINITION. The word types: the 64-bit cell that carries every XLEN-wide and AW-wide value, the command word,
and the natural numbers that carry values whose width is a parameter.
-/

namespace Sys2Proof

/-- A byte of the external store. -/
abbrev Byte := BitVec 8

/-- The command word of the command port (30_encoding R70). -/
abbrev CmdWord := BitVec 32

/-- A 64-bit cell: an address bus (AW = 64, R11) or an XLEN-wide value, zero-extended when XLEN = 32
(DESIGN CHOICE, safe, log entry 1). -/
abbrev Word := BitVec 64

/-- A value on a bus or in a cell whose width is a parameter of the configuration (FLEN, VLEN, DW of R11), as the
natural number it stands for, below 2 to that width (DESIGN CHOICE, safe, log entry 2). -/
abbrev Wide := Nat

/-- XLEN: "integer register width of the hart, 32 or 64 bits" (R11). -/
inductive XLen where
  | rv32
  | rv64
deriving DecidableEq, Repr

/-- The number of bits of XLEN. -/
def XLen.bits : XLen → Nat
  | .rv32 => 32
  | .rv64 => 64

end Sys2Proof
end

