-- ==== Sys2Proof/Config.lean ====
section
/-!
DEFINITION. The parameters of 00_scope R11 as plain data, and the vocabulary they are written in: register classes,
privilege modes, causes, stage tags, Actions, ActionGroups, CSR descriptors, and what an external Action may do.
The default values stand in Machine/Reference.lean.
-/

namespace Sys2Proof

/-- The four register classes (10_state R22, 30_encoding R74). -/
inductive RegClass where
  | int
  | fp
  | vec
  | csr
deriving DecidableEq, Repr

/-- Privilege modes (10_state R29); the virtual flag is a state cell of its own. -/
inductive Priv where
  | user
  | supervisor
  | machine
deriving DecidableEq, Repr

/-- Stage tags of Actions and groups, one enumeration (42_engine R132). -/
inductive Tag where
  | fetch
  | translate
  | decode
  | computeAddr
  | execute
  | exception
  | finish
deriving DecidableEq, Repr

/-- The class of a fault cause, which decides its trap value (60_exceptions R190, R197). -/
inductive FaultClass where
  | fetch
  | loadStore
  | illegal
  | zero
deriving DecidableEq, Repr

/-- The members of the closed enumeration FaultCause (60_exceptions R190). -/
inductive FaultCause where
  | instAddrMisaligned
  | instAccessFault
  | illegalInst
  | breakpoint
  | loadAddrMisaligned
  | loadAccessFault
  | storeAmoAddrMisaligned
  | storeAmoAccessFault
  | ecallFromU
  | ecallFromS
  | ecallFromVS
  | ecallFromM
  | instPageFault
  | loadPageFault
  | storeAmoPageFault
  | softwareCheck
  | hardwareError
deriving DecidableEq, Repr

/-- The members of the closed enumeration InterruptCause (60_exceptions R193). -/
inductive InterruptCause where
  | supervisorSoftware
  | machineSoftware
  | supervisorTimer
  | machineTimer
  | supervisorExternal
  | machineExternal
deriving DecidableEq, Repr

/-- Names of the CSRs that trap delivery uses (10_state R26), and `ext k` for any further CSR of a table. Delivery
finds a CSR by its name (60_exceptions R207; log entry 23). -/
inductive CsrName where
  | stvec
  | sepc
  | scause
  | stval
  | mstatus
  | medeleg
  | mideleg
  | mtvec
  | mstatush
  | mepc
  | mcause
  | mtval
  | ext (k : Nat)
deriving DecidableEq, Repr

/-- Names of the fields that trap delivery uses (10_state R26), and `ext k` for any further field. -/
inductive FieldName where
  | sie
  | mie
  | spie
  | mpie
  | spp
  | mpp
  | gva
  | mpv
  | ext (k : Nat)
deriving DecidableEq, Repr

/-- A named inclusive bit range [low, high] of a CSR (10_state R25). -/
structure CsrField where
  name : FieldName
  low  : Nat
  high : Nat
deriving DecidableEq, Repr

/-- A CSR descriptor (10_state R25); a field's id is its position in `fields`. -/
structure CsrDesc where
  number : Nat
  name   : CsrName
  mask   : Word
  fields : List CsrField
  reset  : Word
deriving DecidableEq, Repr

/-- The decoder's mnemonic key (42_engine R148, R151): the distinguished UNIMP, or any other. -/
inductive Mnemonic where
  | unimp
  | key (k : Nat)
deriving DecidableEq, Repr

/-- The external Actions (00_scope R11, 42_engine R150 to R152): the front end, the MMU, the handlers. -/
inductive ExtAction where
  | aFetch
  | aFtrans
  | aDecode
  | aMmu
  | handler (k : Nat)
deriving DecidableEq, Repr

/-- What an Action calls (42_engine R131): one of the four built-in Actions (R148, R154, R155, R156) or an external
collaborator. -/
inductive ActionBody where
  | assemble
  | commitPc
  | deliverTrap
  | illegal
  | external (e : ExtAction)
deriving DecidableEq, Repr

/-- An Action: a symbolic tag and what it calls (42_engine R131). -/
structure Action where
  tag  : Tag
  body : ActionBody
deriving DecidableEq, Repr

/-- Where a group's action list comes from (42_engine R135): a static list, or, for the instruction's own group, the
list assembled for the current instruction. -/
inductive GroupActions where
  | fixed (as : List Action)
  | instruction
deriving DecidableEq, Repr

/-- An ActionGroup (42_engine R135); its id is its index in GRAPH (R134). -/
structure Group where
  actions : GroupActions
  next    : Option Nat
  tags    : List Tag
deriving DecidableEq, Repr

/-- What an Action answers the Engine (42_engine R133). -/
inductive ControlTransfer where
  | continue
  | transfer (g : Nat)
  | pause
deriving DecidableEq, Repr

/-- The access sizes of the memory interface, in bytes (20_memory R51, R52). -/
inductive MemSize where
  | b1
  | b2
  | b4
  | b8
  | b16
deriving DecidableEq, Repr

/-- Where an external Action takes a value from: a value of its own; an answer it has just read, on a response bus of
the internal port (30_encoding R70, R71) or from the latest MemRead (20_memory R57); a cell that an Action may read,
`pc`, `next_pc`, `priv`, `virt`, `xlate_mode` and the members of `cur_inst` (42_engine R153); the request that the port
shows (10_state R40). `operand k` is the operand numbered k. -/
inductive Source where
  | lit (n : Nat)
  | rdata
  | r0
  | r1
  | r2
  | memData
  | pc
  | nextPc
  | priv
  | virt
  | xlateMode
  | mnemonic
  | operand (k : Nat)
  | opcode
  | size
  | xpState
  | xpVaddr
  | xpSize
deriving DecidableEq, Repr

/-- One thing an external Action does (42_engine R153): issue an operation on the internal port; write a cell that the
frame lets it write; use the memory store. `setInst` is the decoder's write of R151, with the raw instruction bits
`bits` as `opcode`. -/
inductive ActionOp where
  | issue (cw : CmdWord) (wdata arg0 arg1 arg2 : Source)
  | setNextPc (v : Source)
  | setPriv (v : Source)
  | setVirt (v : Source)
  | setXlateMode (v : Source)
  | setInst (mnemonic : Mnemonic) (operands : List Nat) (bits : Source) (size : Nat)
  | memRead (addr : Source) (n : MemSize)
  | memWrite (addr : Source) (n : MemSize) (v : Source)
deriving DecidableEq, Repr

/-- What ONE invocation of an external Action does: its operations in order, then its answer (log entry 10). -/
structure ActionRun where
  ops : List ActionOp
  ct  : ControlTransfer
deriving DecidableEq, Repr

/-- The values the spec leaves arbitrary after reset (70_reset R232, 10_state R32, R34), as a parameter
(log entries 5 and 6). -/
structure Launch where
  x          : Vector Word 31
  f          : Vector Wide 32
  v          : Vector Wide 32
  xpVaddr    : Word
  xpSize     : BitVec 8
  xpPaddr    : Word
  xpMisalign : Word
  mnemonic   : Mnemonic
  operands   : List Nat
  opcode     : BitVec 32
  size       : Nat
deriving DecidableEq, Repr

/-- What the external function XlateMode reads (10_state R35): privilege, virtual flag, the CSR file. -/
abbrev XlateKey := Priv × Bool × List (Nat × Word)

/-- What the MMU decides by (43_xlate R165): the request, the privilege, the virtual flag, the translation mode, the access
type, the memory. The access type is what the decoder's record of the instruction says (42_engine R151), so the record
stands here (log entry 31). -/
structure MmuKey where
  vaddr     : Word
  size      : BitVec 8
  priv      : Priv
  virt      : Bool
  xlateMode : Nat
  mnemonic  : Mnemonic
  operands  : List Nat
  mem       : List (Nat × Byte)
deriving DecidableEq, Repr

/-- What the MMU answers a request with: a resolution, or the cause of a fault (43_xlate R165). -/
inductive MmuAnswer where
  | resolve (paddr misalign : Word)
  | raise (cause : Nat)
deriving DecidableEq, Repr

/-- The MMU as a function (43_xlate R165), a table with a default answer, so that a configuration is plain data (log
entry 31). -/
structure MmuFunction where
  tab     : List (MmuKey × MmuAnswer)
  default : MmuAnswer
deriving DecidableEq, Repr

/-- The parameters of 00_scope R11 for one hart. `mmu` is the MMU's function where the configuration gives it; where it gives
none, A_MMU is a script as every other external Action is (log entries 10 and 31). XlateMode is a table with a default value, so that a configuration is
plain data (DESIGN CHOICE, safe, log entry 13). -/
structure Config where
  xlen         : XLen
  flen         : Nat
  vlen         : Nat
  csrTab       : List CsrDesc
  faultCodes   : List (Nat × FaultClass)
  intrCodes    : List Nat
  handlers     : List (Mnemonic × List Action)
  graph        : List Group
  entry        : Nat
  exception    : Nat
  resetPc      : Word
  xlateTab     : List (XlateKey × Nat)
  xlateDefault : Nat
  mmu          : Option MmuFunction
  launch       : Launch
deriving DecidableEq, Repr

end Sys2Proof
end

