-- ==== Sys2Proof/Syntax.lean ====
section
/-!
DEFINITION. The fifteen operations of the block (30_encoding R72), one constructor per row of the opcode table. The
operands inside the command word are arguments; the data operands travel on the buses (R75).
-/

namespace Sys2Proof

/-- An operation of the command port: `cls` is the register class, `idx` a register index or CSR number, `fid` a field id,
`cause` a cause code (30_encoding R73, R75: unsigned and unscaled). -/
inductive Instr where
  | rfRead (cls : RegClass) (idx : Nat)
  | rfWrite (cls : RegClass) (idx : Nat)
  | rfReadDirect (cls : RegClass) (idx : Nat)
  | rfWriteDirect (cls : RegClass) (idx : Nat)
  | csrFieldRead (idx : Nat) (fid : Nat)
  | csrFieldWrite (idx : Nat) (fid : Nat)
  | engRunGroup
  | engResume
  | xltRequest
  | xltResolve
  | xltResult
  | xltPopResult
  | trapSetFault (cause : Nat)
  | trapSetInterrupt (cause : Nat)
  | trapDeliver
deriving DecidableEq, Repr

end Sys2Proof
end

