-- ==== Sys2Proof/WellFormed.lean ====
section
/-!
DEFINITION. Which instructions have a command word: every operand fits its field (30_encoding R73). An index above 31 in
class INT, FP or VEC and a cause outside the enumeration ARE well formed: the operation refuses them (R78).
-/

namespace Sys2Proof

/-- `idx` and `cause` have 12 bits, `fid` has 6 (30_encoding R73). -/
def Instr.wf : Instr → Bool
  | .rfRead _ idx => decide (idx < 4096)
  | .rfWrite _ idx => decide (idx < 4096)
  | .rfReadDirect _ idx => decide (idx < 4096)
  | .rfWriteDirect _ idx => decide (idx < 4096)
  | .csrFieldRead idx fid => decide (idx < 4096) && decide (fid < 64)
  | .csrFieldWrite idx fid => decide (idx < 4096) && decide (fid < 64)
  | .engRunGroup => true
  | .engResume => true
  | .xltRequest => true
  | .xltResolve => true
  | .xltResult => true
  | .xltPopResult => true
  | .trapSetFault cause => decide (cause < 4096)
  | .trapSetInterrupt cause => decide (cause < 4096)
  | .trapDeliver => true

end Sys2Proof
end

