-- ==== Sys2Proof/Decode.lean ====
section
/-!
DEFINITION. The decoder of command words, total, rejecting by name (30_encoding R72 to R80); then the encoder, from the
same fields. `decodeTableWord` is the decoder on the opcode table's numbering of bits.
-/

namespace Sys2Proof

/-- Why a command word matches no row (30_encoding R78). -/
inductive BadWord where
  /-- `op` is not one of R72. -/
  | unassignedOp
  /-- bits 3 to 0 are not zero. -/
  | reservedBits
  /-- a nonzero `fid` in format R, C or N. -/
  | strayFieldId
  /-- `cls` other than CSR in format F, other than 0 in format C or N. -/
  | wrongClass
  /-- a nonzero `idx` in format N. -/
  | strayIndex
deriving DecidableEq, Repr

namespace Cw

/-- Bits 31 to 24 (R73). -/
def op (cw : CmdWord) : BitVec 8 := cw.extractLsb' 24 8
/-- Bits 23 to 22 (R73). -/
def cls (cw : CmdWord) : BitVec 2 := cw.extractLsb' 22 2
/-- Bits 21 to 10 (R73). -/
def idx (cw : CmdWord) : BitVec 12 := cw.extractLsb' 10 12
/-- Bits 9 to 4 (R73). -/
def fid (cw : CmdWord) : BitVec 6 := cw.extractLsb' 4 6
/-- Bits 3 to 0 (R73). -/
def low (cw : CmdWord) : BitVec 4 := cw.extractLsb' 0 4

end Cw

/-- The class codes of R74, read. -/
def RegClass.ofCode (c : BitVec 2) : RegClass :=
  if c = 0#2 then .int else if c = 1#2 then .fp else if c = 2#2 then .vec else .csr

/-- The class codes of R74, written. -/
def RegClass.code : RegClass → BitVec 2
  | .int => 0#2
  | .fp => 1#2
  | .vec => 2#2
  | .csr => 3#2

/-- Format R (R73): `cls`, `idx`, then ten zero bits. -/
def decodeR (cw : CmdWord) (k : RegClass → Nat → Instr) : Except BadWord Instr :=
  if Cw.low cw ≠ 0#4 then .error .reservedBits
  else if Cw.fid cw ≠ 0#6 then .error .strayFieldId
  else .ok (k (RegClass.ofCode (Cw.cls cw)) (Cw.idx cw).toNat)

/-- Format F (R73): `cls` is CSR, `idx`, `fid`, then four zero bits. -/
def decodeF (cw : CmdWord) (k : Nat → Nat → Instr) : Except BadWord Instr :=
  if Cw.low cw ≠ 0#4 then .error .reservedBits
  else if Cw.cls cw ≠ 3#2 then .error .wrongClass
  else .ok (k (Cw.idx cw).toNat (Cw.fid cw).toNat)

/-- Format C (R73): `cls` is zero, `cause`, then ten zero bits. -/
def decodeC (cw : CmdWord) (k : Nat → Instr) : Except BadWord Instr :=
  if Cw.low cw ≠ 0#4 then .error .reservedBits
  else if Cw.cls cw ≠ 0#2 then .error .wrongClass
  else if Cw.fid cw ≠ 0#6 then .error .strayFieldId
  else .ok (k (Cw.idx cw).toNat)

/-- Format N (R73): everything below `op` is zero. -/
def decodeN (cw : CmdWord) (i : Instr) : Except BadWord Instr :=
  if Cw.low cw ≠ 0#4 then .error .reservedBits
  else if Cw.cls cw ≠ 0#2 then .error .wrongClass
  else if Cw.fid cw ≠ 0#6 then .error .strayFieldId
  else if Cw.idx cw ≠ 0#12 then .error .strayIndex
  else .ok i

/-- The decoder (R72 for the operation codes, R77, R78). -/
def decode (cw : CmdWord) : Except BadWord Instr :=
  if Cw.op cw = 0x01#8 then decodeR cw .rfRead
  else if Cw.op cw = 0x02#8 then decodeR cw .rfWrite
  else if Cw.op cw = 0x03#8 then decodeR cw .rfReadDirect
  else if Cw.op cw = 0x04#8 then decodeR cw .rfWriteDirect
  else if Cw.op cw = 0x10#8 then decodeF cw .csrFieldRead
  else if Cw.op cw = 0x11#8 then decodeF cw .csrFieldWrite
  else if Cw.op cw = 0x20#8 then decodeN cw .engRunGroup
  else if Cw.op cw = 0x21#8 then decodeN cw .engResume
  else if Cw.op cw = 0x30#8 then decodeN cw .xltRequest
  else if Cw.op cw = 0x31#8 then decodeN cw .xltResolve
  else if Cw.op cw = 0x32#8 then decodeN cw .xltResult
  else if Cw.op cw = 0x33#8 then decodeN cw .xltPopResult
  else if Cw.op cw = 0x40#8 then decodeC cw .trapSetFault
  else if Cw.op cw = 0x41#8 then decodeC cw .trapSetInterrupt
  else if Cw.op cw = 0x42#8 then decodeN cw .trapDeliver
  else .error .unassignedOp

/-! ### The encoder -/

/-- The command word with the fields of R73, high to low. -/
def cmdWord (op : BitVec 8) (cls : BitVec 2) (idx : Nat) (fid : Nat) : CmdWord :=
  op ++ cls ++ BitVec.ofNat 12 idx ++ BitVec.ofNat 6 fid ++ 0#4

/-- The operation code `op` of each operation (R72). -/
def Instr.op : Instr → BitVec 8
  | .rfRead _ _ => 0x01#8
  | .rfWrite _ _ => 0x02#8
  | .rfReadDirect _ _ => 0x03#8
  | .rfWriteDirect _ _ => 0x04#8
  | .csrFieldRead _ _ => 0x10#8
  | .csrFieldWrite _ _ => 0x11#8
  | .engRunGroup => 0x20#8
  | .engResume => 0x21#8
  | .xltRequest => 0x30#8
  | .xltResolve => 0x31#8
  | .xltResult => 0x32#8
  | .xltPopResult => 0x33#8
  | .trapSetFault _ => 0x40#8
  | .trapSetInterrupt _ => 0x41#8
  | .trapDeliver => 0x42#8

/-- The command word of a well-formed operation (R72, R73). -/
def encode (i : Instr) : CmdWord :=
  match i with
  | .rfRead cls idx => cmdWord i.op cls.code idx 0
  | .rfWrite cls idx => cmdWord i.op cls.code idx 0
  | .rfReadDirect cls idx => cmdWord i.op cls.code idx 0
  | .rfWriteDirect cls idx => cmdWord i.op cls.code idx 0
  | .csrFieldRead idx fid => cmdWord i.op 3#2 idx fid
  | .csrFieldWrite idx fid => cmdWord i.op 3#2 idx fid
  | .engRunGroup => cmdWord i.op 0#2 0 0
  | .engResume => cmdWord i.op 0#2 0 0
  | .xltRequest => cmdWord i.op 0#2 0 0
  | .xltResolve => cmdWord i.op 0#2 0 0
  | .xltResult => cmdWord i.op 0#2 0 0
  | .xltPopResult => cmdWord i.op 0#2 0 0
  | .trapSetFault cause => cmdWord i.op 0#2 cause 0
  | .trapSetInterrupt cause => cmdWord i.op 0#2 cause 0
  | .trapDeliver => cmdWord i.op 0#2 0 0

/-! ### The rows of R77 -/

/-- The mask of an operation's row: which bits of the word are fixed (R77, by format). -/
def Instr.rowMask : Instr → CmdWord
  | .rfRead _ _ => 0xFF0003FF#32
  | .rfWrite _ _ => 0xFF0003FF#32
  | .rfReadDirect _ _ => 0xFF0003FF#32
  | .rfWriteDirect _ _ => 0xFF0003FF#32
  | .csrFieldRead _ _ => 0xFFC0000F#32
  | .csrFieldWrite _ _ => 0xFFC0000F#32
  | .engRunGroup => 0xFFFFFFFF#32
  | .engResume => 0xFFFFFFFF#32
  | .xltRequest => 0xFFFFFFFF#32
  | .xltResolve => 0xFFFFFFFF#32
  | .xltResult => 0xFFFFFFFF#32
  | .xltPopResult => 0xFFFFFFFF#32
  | .trapSetFault _ => 0xFFC003FF#32
  | .trapSetInterrupt _ => 0xFFC003FF#32
  | .trapDeliver => 0xFFFFFFFF#32

/-- The match value of an operation's row (R77, by format). -/
def Instr.rowMatch : Instr → CmdWord
  | .rfRead _ _ => 0x01000000#32
  | .rfWrite _ _ => 0x02000000#32
  | .rfReadDirect _ _ => 0x03000000#32
  | .rfWriteDirect _ _ => 0x04000000#32
  | .csrFieldRead _ _ => 0x10C00000#32
  | .csrFieldWrite _ _ => 0x11C00000#32
  | .engRunGroup => 0x20000000#32
  | .engResume => 0x21000000#32
  | .xltRequest => 0x30000000#32
  | .xltResolve => 0x31000000#32
  | .xltResult => 0x32000000#32
  | .xltPopResult => 0x33000000#32
  | .trapSetFault _ => 0x40000000#32
  | .trapSetInterrupt _ => 0x41000000#32
  | .trapDeliver => 0x42000000#32

/-! ### The opcode table's numbering -/

/-- The command word whose bits are the low `nbits` bits of `w`, if they fit the one length there is (R73, R80). -/
def tableWord (nbits w : Nat) : Option CmdWord :=
  if w % 2 ^ nbits < 2 ^ 32 then some (BitVec.ofNat 32 (w % 2 ^ nbits)) else none

/-- The operation the decoder reads from a word of the opcode table, none where it refuses. -/
def decodeTableWord (nbits w : Nat) : Option Instr :=
  match tableWord nbits w with
  | none => none
  | some cw =>
    match decode cw with
    | .ok i => some i
    | .error _ => none

end Sys2Proof
end

