-- ==== Sys2Proof/Machine/Bits.lean ====
section
/-!
DEFINITION. The bit arithmetic of the block (00_scope R12, 41_csr R113, R123): truncation, masks, shifts, all unsigned,
computed over natural numbers where a shift could reach the word width.
-/

namespace Sys2Proof.Machine

/-- `ones(W)` = 2^W - 1, as a 64-bit cell (R12); for W = 64 it is all ones (41_csr R113). -/
def ones (w : Nat) : Word := BitVec.ofNat 64 (2 ^ w - 1)

/-- `trunc_XLEN(v)` of a 64-bit value (R12). -/
def trunc (x : XLen) (v : Word) : Word := v &&& ones x.bits

/-- `trunc_W(v)` = v mod 2^W of a value whose width is a parameter (R12). -/
def truncWide (w : Nat) (v : Wide) : Wide := v % 2 ^ w

/-- The low XLEN bits of a value on a data bus (40_regfile R90). -/
def wordOf (x : XLen) (v : Wide) : Word := trunc x (BitVec.ofNat 64 v)

/-- The width of the field [low, high] (41_csr R113). -/
def fieldWidth (low high : Nat) : Nat := high - low + 1

/-- `fmask = (2^w - 1) << low` (41_csr R113). -/
def fieldMask (low high : Nat) : Word := ones (fieldWidth low high) <<< low

/-- `(raw >> low) & (2^(high-low+1) - 1)` (41_csr R116). -/
def fieldExtract (low high : Nat) (raw : Word) : Word := (raw >>> low) &&& ones (fieldWidth low high)

/-- `(raw & ~fmask) | (trunc_w(x) << low)` (41_csr R118). -/
def fieldInsert (low high : Nat) (raw x : Word) : Word :=
  (raw &&& ~~~(fieldMask low high)) ||| ((x &&& ones (fieldWidth low high)) <<< low)

/-- `(old & ~m) | (v & m)` (41_csr R112). -/
def maskedMerge (m old v : Word) : Word := (old &&& ~~~m) ||| (v &&& m)

/-- `v & ~1` (41_csr R123 (5), 60_exceptions R200). -/
def clearBit0 (v : Word) : Word := v &&& ~~~(1#64)

/-- The interrupt flag `1 << (XLEN-1)` (41_csr R123 (6), 60_exceptions R202). -/
def intrFlag (x : XLen) : Word := 1#64 <<< (x.bits - 1)

/-- A function applied to every cell of a register file. -/
def mapCells {α β : Type} {n : Nat} (g : α → β) (cells : Vector α n) : Vector β n :=
  ⟨⟨cells.toArray.toList.map g⟩, by simp⟩

end Sys2Proof.Machine
end

