-- ==== Sys2Proof/Machine/ConfigCheck.lean ====
section
/-!
DEFINITION. The construction checks of a configuration: the CSR table (41_csr R111) and the group graph (42_engine R139).
A configuration that fails them comes out of reset with fatal = F_BAD_CONFIG. Also what reset computes from a configuration:
the CSR file and the translation mode (10_state R24, R35).
-/

namespace Sys2Proof

/-- No entry of the list occurs twice. -/
def noRepeats {α : Type} [DecidableEq α] : List α → Bool
  | [] => true
  | a :: as => !(as.contains a) && noRepeats as

/-- `0 <= low <= high <= XLEN-1` (41_csr R111). -/
def CsrField.ok (x : XLen) (f : CsrField) : Bool :=
  decide (f.low ≤ f.high) && decide (f.high < x.bits)

/-- One descriptor (41_csr R111): number below 2^12, mask and reset below 2^XLEN, fields within the width, field names
distinct, at most 64 fields. -/
def CsrDesc.ok (x : XLen) (d : CsrDesc) : Bool :=
  decide (d.number < 4096)
    && decide (d.mask.toNat < 2 ^ x.bits) && decide (d.reset.toNat < 2 ^ x.bits)
    && d.fields.all (CsrField.ok x)
    && noRepeats (d.fields.map CsrField.name)
    && decide (d.fields.length ≤ 64)

/-- The CSR table (41_csr R111): numbers pairwise distinct, every descriptor in order. -/
def Config.csrTabOk (c : Config) : Bool :=
  noRepeats (c.csrTab.map CsrDesc.number) && c.csrTab.all (CsrDesc.ok c.xlen)

/-- A `next` link is absent or names a group (42_engine R139). -/
def Group.linkOk (n : Nat) (g : Group) : Bool :=
  match g.next with
  | none => true
  | some t => decide (t < n)

/-- The tags of group `t` contain FETCH (42_engine R141, R145). -/
def Config.isFetchGroup (c : Config) (t : Nat) : Bool :=
  match c.graph[t]? with
  | none => false
  | some g => g.tags.contains .fetch

/-- The group graph (42_engine R139). -/
def Config.graphOk (c : Config) : Bool :=
  c.graph.all (Group.linkOk c.graph.length)
    && decide (c.entry < c.graph.length) && decide (c.exception < c.graph.length)
    && c.isFetchGroup c.entry

/-- Both construction checks. -/
def Config.ok (c : Config) : Bool := c.csrTabOk && c.graphOk

/-- `XlateMode(priv, virt, csr)`, the MMU's function (10_state R35), as the configuration's table gives it. -/
def Config.xlateMode (c : Config) (p : Priv) (virt : Bool) (csr : List (Nat × Word)) : Nat :=
  match c.xlateTab.lookup (p, virt, csr) with
  | some m => m
  | none => c.xlateDefault

/-- The CSR file after reset: every descriptor's reset value (10_state R24). -/
def Config.resetCsrs (c : Config) : List (Nat × Word) := c.csrTab.map fun d => (d.number, d.reset)

end Sys2Proof
end

