-- ==== Sys2Proof/Machine/Reference.lean ====
section
/-!
DEFINITION. The default values of the parameters: cause codes and classes (60_exceptions R190, R193), the default CSRTAB
(10_state R26), the reference GRAPH (42_engine R143), the reference configuration. The spec marks the numbers here as
supplied from general knowledge (93_implementation_defined GK1 to GK8); the model follows the spec's tables.
-/

namespace Sys2Proof

/-- The codes of 60_exceptions R190. -/
def FaultCause.code : FaultCause → Nat
  | .instAddrMisaligned => 0
  | .instAccessFault => 1
  | .illegalInst => 2
  | .breakpoint => 3
  | .loadAddrMisaligned => 4
  | .loadAccessFault => 5
  | .storeAmoAddrMisaligned => 6
  | .storeAmoAccessFault => 7
  | .ecallFromU => 8
  | .ecallFromS => 9
  | .ecallFromVS => 10
  | .ecallFromM => 11
  | .instPageFault => 12
  | .loadPageFault => 13
  | .storeAmoPageFault => 15
  | .softwareCheck => 18
  | .hardwareError => 19

/-- The class column of 60_exceptions R190. -/
def FaultCause.cls : FaultCause → FaultClass
  | .instAddrMisaligned => .fetch
  | .instAccessFault => .fetch
  | .illegalInst => .illegal
  | .breakpoint => .zero
  | .loadAddrMisaligned => .loadStore
  | .loadAccessFault => .loadStore
  | .storeAmoAddrMisaligned => .loadStore
  | .storeAmoAccessFault => .loadStore
  | .ecallFromU => .zero
  | .ecallFromS => .zero
  | .ecallFromVS => .zero
  | .ecallFromM => .zero
  | .instPageFault => .fetch
  | .loadPageFault => .loadStore
  | .storeAmoPageFault => .loadStore
  | .softwareCheck => .zero
  | .hardwareError => .zero

/-- The codes of 60_exceptions R193. -/
def InterruptCause.code : InterruptCause → Nat
  | .supervisorSoftware => 1
  | .machineSoftware => 3
  | .supervisorTimer => 5
  | .machineTimer => 7
  | .supervisorExternal => 9
  | .machineExternal => 11

/-- `enc` of 60_exceptions R194, 10_state R29. -/
def Priv.enc : Priv → Nat
  | .user => 0
  | .supervisor => 1
  | .machine => 3

/-- The mode with an encoding; 2 is the encoding of none (10_state R29). -/
def Priv.ofEnc : Nat → Option Priv
  | 0 => some .user
  | 1 => some .supervisor
  | 3 => some .machine
  | _ => none

/-- The number that stands for a mnemonic key on a data path of an Action: 0 for UNIMP (DESIGN CHOICE, safe, log entry 32). -/
def Mnemonic.code : Mnemonic → Nat
  | .unimp => 0
  | .key k => k + 1

/-- The number of bytes of an access (20_memory R51). -/
def MemSize.bytes : MemSize → Nat
  | .b1 => 1
  | .b2 => 2
  | .b4 => 4
  | .b8 => 8
  | .b16 => 16

namespace Reference

/-- FAULT_CODES with their classes: every member of FaultCause (60_exceptions R190). -/
def faultCodes : List (Nat × FaultClass) :=
  [FaultCause.instAddrMisaligned, .instAccessFault, .illegalInst, .breakpoint, .loadAddrMisaligned, .loadAccessFault,
    .storeAmoAddrMisaligned, .storeAmoAccessFault, .ecallFromU, .ecallFromS, .ecallFromVS, .ecallFromM,
    .instPageFault, .loadPageFault, .storeAmoPageFault, .softwareCheck, .hardwareError].map
    fun c => (c.code, c.cls)

/-- INTR_CODES: every member of InterruptCause (60_exceptions R193). -/
def intrCodes : List Nat :=
  [InterruptCause.supervisorSoftware, .machineSoftware, .supervisorTimer, .machineTimer, .supervisorExternal,
    .machineExternal].map InterruptCause.code

/-- A row of the default CSRTAB: every bit writable, reset 0 (10_state R26). -/
def csrRow (x : XLen) (number : Nat) (name : CsrName) (fields : List CsrField) : CsrDesc :=
  { number := number, name := name, mask := Machine.ones x.bits, fields := fields, reset := 0 }

/-- The fields of MSTATUS (10_state R26): gva and mpv stand there on RV64 only. -/
def mstatusFields (x : XLen) : List CsrField :=
  [⟨.sie, 1, 1⟩, ⟨.mie, 3, 3⟩, ⟨.spie, 5, 5⟩, ⟨.mpie, 7, 7⟩, ⟨.spp, 8, 8⟩, ⟨.mpp, 11, 12⟩] ++
    (match x with
     | .rv32 => []
     | .rv64 => [⟨.gva, 38, 38⟩, ⟨.mpv, 39, 39⟩])

/-- The default CSRTAB (10_state R26). -/
def csrTab (x : XLen) : List CsrDesc :=
  [csrRow x 0x105 .stvec [], csrRow x 0x141 .sepc [], csrRow x 0x142 .scause [], csrRow x 0x143 .stval [],
    csrRow x 0x300 .mstatus (mstatusFields x), csrRow x 0x302 .medeleg [], csrRow x 0x303 .mideleg [],
    csrRow x 0x305 .mtvec []] ++
    (match x with
     | .rv32 => [csrRow x 0x310 .mstatush [⟨.gva, 6, 6⟩, ⟨.mpv, 7, 7⟩]]
     | .rv64 => []) ++
    [csrRow x 0x341 .mepc [], csrRow x 0x342 .mcause [], csrRow x 0x343 .mtval []]

/-- An Action that an external collaborator supplies. -/
def extAction (t : Tag) (e : ExtAction) : Action := { tag := t, body := .external e }

/-- The MMU's Action, tag TRANSLATE (42_engine R152). -/
def mmuAction : Action := extAction .translate .aMmu

/-- The built-in Action `illegal` (42_engine R156). Its tag is not stated; EXECUTE (DESIGN CHOICE, safe, log entry 21). -/
def illegalAction : Action := { tag := .execute, body := .illegal }

/-- The reference GRAPH (42_engine R143): G_FETCH 0, G_EXECUTE 1, G_FINISH 2, G_EXCEPTION 3. -/
def graph : List Group :=
  [ { actions := .fixed [extAction .fetch .aFetch, extAction .translate .aFtrans, extAction .decode .aDecode,
        { tag := .decode, body := .assemble }], next := some 1, tags := [.fetch] },
    { actions := .instruction, next := some 2, tags := [.execute] },
    { actions := .fixed [{ tag := .finish, body := .commitPc }], next := some 0, tags := [.finish] },
    { actions := .fixed [{ tag := .exception, body := .deliverTrap }, { tag := .exception, body := .commitPc }],
      next := some 0, tags := [.exception] } ]

/-- The launch values of the reference configuration: not zero, since the spec says a model must not pick 0 for a register
(70_reset R232); bytes 0xA5 (DESIGN CHOICE, unsafe, log entries 5 and 6). -/
def launch : Launch :=
  { x := Vector.replicate 31 0xA5A5A5A5A5A5A5A5#64
    f := Vector.replicate 32 0xA5A5A5A5A5A5A5A5
    v := Vector.replicate 32 0xA5A5A5A5A5A5A5A5A5A5A5A5A5A5A5A5
    xpVaddr := 0
    xpSize := 0
    xpPaddr := 0
    xpMisalign := 0
    mnemonic := .unimp
    operands := []
    opcode := 0
    size := 4 }

/-- The reference configuration at an XLEN: FLEN 64, VLEN 128 (D6), the default tables, no handlers, RESET_PC 0 (D35), a
constant XlateMode, no MMU function (DESIGN CHOICE, log entry 4). -/
def config (x : XLen) : Config :=
  { xlen := x
    flen := 64
    vlen := 128
    csrTab := csrTab x
    faultCodes := faultCodes
    intrCodes := intrCodes
    handlers := []
    graph := graph
    entry := 0
    exception := 3
    resetPc := 0
    xlateTab := []
    xlateDefault := 0
    mmu := none
    launch := launch }

end Reference

end Sys2Proof
end

