-- ==== Sys2Proof/Machine/Mem.lean ====
section
/-!
DEFINITION. The external memory store behind `MemRead` and `MemWrite` (20_memory R51 to R53): bytes by 64-bit address, as a
list of cells in one canonical form. The block itself holds no memory (R50; log entry 16).
-/

namespace Sys2Proof.Machine

/-- The external store: (address, byte) pairs, addresses strictly rising, no byte that an unlisted address reads as. -/
abbrev Memory := List Host.Cell

/-- What an unlisted address reads as: the spec gives the store no contents (DESIGN CHOICE, unsafe, log entry 17). -/
def Memory.blank : Byte := 0#8

/-- One byte of the store. -/
def Memory.byte : Memory → Nat → Byte
  | [], _ => Memory.blank
  | (a, b) :: m, k => if a = k then b else Memory.byte m k

/-- Store one byte, keeping the canonical form. -/
def Memory.setByte : Memory → Nat → Byte → Memory
  | [], k, v => if v = Memory.blank then [] else [(k, v)]
  | (a, b) :: m, k, v =>
    if k < a then
      if v = Memory.blank then (a, b) :: m else (k, v) :: (a, b) :: m
    else if a = k then
      if v = Memory.blank then m else (k, v) :: m
    else (a, b) :: Memory.setByte m k v

/-- Every address of the list is above `k`, rising. -/
def Memory.risingFrom : Nat → Memory → Bool
  | _, [] => true
  | k, (a, b) :: m => decide (k ≤ a) && decide (b ≠ Memory.blank) && Memory.risingFrom (a + 1) m

/-- The canonical form: addresses strictly rising and below 2^64 (10_state R36), no byte equal to the blank one. -/
def Memory.wf (m : Memory) : Bool :=
  Memory.risingFrom 0 m && m.all fun c => decide (c.1 < 2 ^ 64)

/-- The address after `a`, in the 64-bit space (wrap at the top: PRESUMED, unsafe, log entry 18). -/
def Memory.nextAddr (a : Nat) : Nat := (a + 1) % 2 ^ 64

/-- `MemRead(a, n)`, little-endian: byte i of the value lives at a + i (20_memory R51, R53). -/
def Memory.read (m : Memory) : Nat → Nat → Wide
  | _, 0 => 0
  | a, n + 1 => (m.byte a).toNat + 256 * Memory.read m (Memory.nextAddr a) n

/-- `MemWrite(a, n, v)`: the low 8*n bits of v, little-endian (20_memory R51, R53). -/
def Memory.write (m : Memory) : Nat → Nat → Wide → Memory
  | _, 0, _ => m
  | a, n + 1, v => Memory.write (m.setByte a (BitVec.ofNat 8 v)) (Memory.nextAddr a) n (v / 256)

/-- The addresses an n-byte access at `a` touches. -/
def Memory.span : Nat → Nat → List Nat
  | _, 0 => []
  | a, n + 1 => a :: Memory.span (Memory.nextAddr a) n

end Sys2Proof.Machine
end

