-- ==== Sys2Proof/Machine/State.lean ====
section
/-!
DEFINITION. The state of one hart's block (10_state R20 to R38) as plain data, with its ports (30_encoding R70, R71), its
configuration, and what stands outside it; how a step can stop; the state after reset (10_state R39).
-/

namespace Sys2Proof.Machine

/-- The closed list of fatal codes (00_scope R8). -/
inductive FatalCode where
  | unknownCsr
  | unknownField
  | bothPending
  | nonePending
  | xltBusy
  | xltNoResult
  | missingHandler
  | badRegIndex
  | badCommand
  | badCause
  | slotOccupied
  | xltBadResolve
  | badGroup
  | isPaused
  | notPaused
  | badConfig
deriving DecidableEq, Repr

/-- How the machine stops with a fault. A cause of the simulated program is never one of these (it is delivered, 00_scope
R9), nor is a fatal (it is latched, R7; log entry 9). -/
inductive Fault where
  /-- Raised by ENG.RUN_GROUP and ENG.RESUME when an external Action issues ENG.RUN_GROUP or ENG.RESUME on the internal
  port: 42_engine R142 and R153 forbid it and give it no effect. Safe (log entry 12). -/
  | engineNested
deriving DecidableEq, Repr

/-- Why an operation has no meaning. -/
inductive Refusal where
  /-- An arm of exec without a meaning; no arm is left so. Safe. -/
  | notModelled (mnemonic : String)
deriving DecidableEq, Repr

/-- The operand buses (30_encoding R71). -/
structure Bus where
  wdata : Wide
  arg0  : Word
  arg1  : Word
  arg2  : Word
deriving DecidableEq, Repr

/-- The response buses (30_encoding R71); `status` true is FATAL. -/
structure Response where
  status : Bool
  fcode  : BitVec 5
  rdata  : Wide
  r0     : Word
  r1     : Word
  r2     : Word
deriving DecidableEq, Repr

/-- A command on the port: the command word and the operand buses, presented together (30_encoding R70). -/
structure Command where
  cw  : CmdWord
  bus : Bus
deriving DecidableEq, Repr

/-- What the outside presents to the block: a command (30_encoding R70) or the reset input (70_reset R230). -/
inductive Input where
  | command (c : Command)
  | reset
deriving DecidableEq, Repr

/-- The Translation Port's states (10_state R32). -/
inductive XpState where
  | idle
  | requested
  | resolved
deriving DecidableEq, Repr

/-- The Translation Port (10_state R32). -/
structure XltPort where
  state    : XpState
  vaddr    : Word
  size     : BitVec 8
  paddr    : Word
  misalign : Word
deriving DecidableEq, Repr

/-- The pending-cause slot (10_state R30) and the trap-information latch (R31). -/
structure TrapUnit where
  pendFault  : Option Nat
  pendIntr   : Option Nat
  tiVaddr    : Word
  tiMisalign : Word
  tiOpcode   : Word
deriving DecidableEq, Repr

/-- The Engine (10_state R33). -/
structure Engine where
  next   : Option Nat
  cursor : Nat
  paused : Bool
deriving DecidableEq, Repr

/-- The current-instruction record (10_state R34). -/
structure CurInst where
  mnemonic : Mnemonic
  operands : List Nat
  opcode   : BitVec 32
  size     : Nat
  actions  : List Action
deriving DecidableEq, Repr

/-- Raw CSR storage: one cell per descriptor of CSRTAB (10_state R24). -/
abbrev CsrFile := List (Nat × Word)

/-- The state. `cfg` is fixed for the machine and no operation writes it (log entry 3); `script`, `idle`, `mem` and
`memData` belong to the collaborators outside the block (log entries 10, 11, 16). -/
structure State where
  cfg       : Config
  x         : Vector Word 31
  f         : Vector Wide 32
  v         : Vector Wide 32
  csr       : CsrFile
  pc        : Word
  nextPc    : Word
  priv      : Priv
  virt      : Bool
  trap      : TrapUnit
  xp        : XltPort
  eng       : Engine
  curInst   : CurInst
  xlateMode : Nat
  fatal     : Option FatalCode
  bus       : Bus
  resp      : Response
  iresp     : Response
  inputs    : List Input
  script    : List ActionRun
  idle      : ActionRun
  mem       : Memory
  memData   : Wide
deriving DecidableEq, Repr

/-- Response buses of an operation that returns nothing (30_encoding R71). -/
def Response.ok : Response := { status := false, fcode := 0, rdata := 0, r0 := 0, r1 := 0, r2 := 0 }

/-- Operand buses carrying zeros. -/
def Bus.zero : Bus := { wdata := 0, arg0 := 0, arg1 := 0, arg2 := 0 }

/-- The block of configuration `c` right after reset (10_state R39, 70_reset R230), with the outside as given: the inputs
still waiting, the collaborators' scripts, the store. -/
def State.resetOf (c : Config) (inputs : List Input) (script : List ActionRun) (idle : ActionRun) (mem : Memory)
    (memData : Wide) : State :=
  { cfg := c
    x := mapCells (trunc c.xlen) c.launch.x
    f := mapCells (truncWide c.flen) c.launch.f
    v := mapCells (truncWide c.vlen) c.launch.v
    csr := c.resetCsrs
    pc := trunc c.xlen c.resetPc
    nextPc := trunc c.xlen c.resetPc
    priv := .machine
    virt := false
    trap := { pendFault := none, pendIntr := none, tiVaddr := 0, tiMisalign := 0, tiOpcode := 0 }
    xp := { state := .idle, vaddr := c.launch.xpVaddr, size := c.launch.xpSize, paddr := c.launch.xpPaddr,
            misalign := c.launch.xpMisalign }
    eng := { next := some c.entry, cursor := 0, paused := false }
    curInst := { mnemonic := c.launch.mnemonic, operands := c.launch.operands, opcode := c.launch.opcode,
                 size := c.launch.size, actions := [] }
    xlateMode := c.xlateMode .machine false c.resetCsrs
    fatal := if c.ok then none else some .badConfig
    bus := Bus.zero
    resp := Response.ok
    iresp := Response.ok
    inputs := inputs
    script := script
    idle := idle
    mem := mem
    memData := memData }

/-- The machine right after reset: the reference configuration with XLEN = 64, nothing waiting on the port, no script, the
store blank (log entries 4, 7, 11, 17). -/
def State.reset : State :=
  State.resetOf (Reference.config .rv64) [] [] { ops := [], ct := .continue } [] 0

end Sys2Proof.Machine
end

