-- ==== Sys2Proof/Machine/Operands.lean ====
section
/-!
DEFINITION. Operand forms: a register by class and index, a CSR by number, a field by id or name, the data buses, and where
an external Action takes a value from. Reading and writing one cell is defined here, once.
-/

namespace Sys2Proof

/-- DW = max(XLEN, FLEN, VLEN) (00_scope R11). -/
def Config.dw (c : Config) : Nat := max c.xlen.bits (max c.flen c.vlen)

/-- The descriptor of CSR number `n`; none is "not in CSRTAB" (10_state R24). -/
def Config.desc (c : Config) (n : Nat) : Option CsrDesc := c.csrTab.find? fun d => d.number == n

/-- The descriptor of the CSR that delivery names (60_exceptions R207). -/
def Config.descNamed (c : Config) (nm : CsrName) : Option CsrDesc := c.csrTab.find? fun d => d.name == nm

/-- The field of a descriptor that delivery names (60_exceptions R207). -/
def CsrDesc.fieldNamed (d : CsrDesc) (nm : FieldName) : Option CsrField := d.fields.find? fun f => f.name == nm

/-- FAULT_CODES holds the code (44_trap_ops R181). -/
def Config.isFaultCode (c : Config) (k : Nat) : Bool := c.faultCodes.any fun p => p.1 == k

/-- INTR_CODES holds the code (44_trap_ops R183). -/
def Config.isIntrCode (c : Config) (k : Nat) : Bool := c.intrCodes.any fun n => n == k

/-- The class of a fault code (60_exceptions R190); a code outside FAULT_CODES is never pending (log entry 22). -/
def Config.faultClass (c : Config) (k : Nat) : FaultClass :=
  match c.faultCodes.find? fun p => p.1 == k with
  | some p => p.2
  | none => .zero

namespace Machine

/-- The 5-bit fatal codes (00_scope R8). -/
def FatalCode.code : FatalCode → BitVec 5
  | .unknownCsr => 1
  | .unknownField => 2
  | .bothPending => 3
  | .nonePending => 4
  | .xltBusy => 5
  | .xltNoResult => 6
  | .missingHandler => 7
  | .badRegIndex => 8
  | .badCommand => 9
  | .badCause => 10
  | .slotOccupied => 11
  | .xltBadResolve => 12
  | .badGroup => 13
  | .isPaused => 14
  | .notPaused => 15
  | .badConfig => 16

/-! ### The data buses -/

/-- The operand buses as presented: `wdata` has DW bits (30_encoding R71; log entry 27). -/
def latchBus (c : Config) (b : Bus) : Bus := { b with wdata := truncWide c.dw b.wdata }

/-- The answer of a fatal operation: status 1, the code, every data response 0 (30_encoding R71). -/
def Response.ofFatal (c : FatalCode) : Response := { Response.ok with status := true, fcode := c.code }

/-- The answer of an operation that returns `rdata` (30_encoding R75). -/
def Response.ofData (v : Wide) : Response := { Response.ok with rdata := v }

/-- The answer of an operation that returns `r0`, `r1`, `r2` (30_encoding R75). -/
def Response.ofTriple (a b c : Word) : Response := { Response.ok with r0 := a, r1 := b, r2 := c }

/-! ### CSR cells -/

/-- Raw storage of the CSR numbered `n` (00_scope R13). -/
def CsrFile.get : CsrFile → Nat → Word
  | [], _ => 0
  | (k, w) :: r, n => if k = n then w else CsrFile.get r n

/-- Raw storage written, no mask (00_scope R13). -/
def CsrFile.set : CsrFile → Nat → Word → CsrFile
  | [], n, v => [(n, v)]
  | (k, w) :: r, n, v => if k = n then (k, v) :: r else (k, w) :: CsrFile.set r n v

/-- `csr[n] <- v` (00_scope R13). -/
def State.csrStore (s : State) (d : CsrDesc) (v : Word) : State := { s with csr := s.csr.set d.number v }

/-- `csr_write(n, v)`, through the descriptor's write mask (41_csr R112). -/
def State.csrWrite (s : State) (d : CsrDesc) (v : Word) : State :=
  s.csrStore d (maskedMerge d.mask (s.csr.get d.number) v)

/-- `field_read(n, f)` (41_csr R116). -/
def State.fieldRead (s : State) (d : CsrDesc) (f : CsrField) : Word :=
  fieldExtract f.low f.high (s.csr.get d.number)

/-- `field_write(n, f, x)`, through the write mask (41_csr R118). -/
def State.fieldWrite (s : State) (d : CsrDesc) (f : CsrField) (x : Word) : State :=
  s.csrWrite d (fieldInsert f.low f.high (s.csr.get d.number) x)

/-! ### Register cells -/

/-- `x[i]`: register 0 has no storage and reads zero (10_state R21). -/
def State.intCell (s : State) (i : Nat) : Word := if i = 0 then 0 else (s.x[i - 1]?).getD 0

/-- `x[i] <- w`: a write to register 0 is discarded (10_state R21). -/
def State.setIntCell (s : State) (i : Nat) (w : Word) : State :=
  if i = 0 then s else { s with x := s.x.setIfInBounds (i - 1) w }

/-- `f[i]` (10_state R23). -/
def State.fpCell (s : State) (i : Nat) : Wide := (s.f[i]?).getD 0

/-- `f[i] <- w`, FLEN bits (10_state R23). -/
def State.setFpCell (s : State) (i : Nat) (w : Wide) : State := { s with f := s.f.setIfInBounds i w }

/-- `v[i]` (10_state R23). -/
def State.vecCell (s : State) (i : Nat) : Wide := (s.v[i]?).getD 0

/-- `v[i] <- w`, VLEN bits (10_state R23). -/
def State.setVecCell (s : State) (i : Nat) (w : Wide) : State := { s with v := s.v.setIfInBounds i w }

/-- The register named (cls, idx), read; the case table of 40_regfile R91, shared by R95. -/
def State.readReg (s : State) (cls : RegClass) (idx : Nat) : Except FatalCode Wide :=
  match cls with
  | .int => if idx > 31 then .error .badRegIndex else .ok (s.intCell idx).toNat
  | .fp => if idx > 31 then .error .badRegIndex else .ok (s.fpCell idx)
  | .vec => if idx > 31 then .error .badRegIndex else .ok (s.vecCell idx)
  | .csr =>
    match s.cfg.desc idx with
    | none => .error .unknownCsr
    | some d => .ok (s.csr.get d.number).toNat

/-- The register named (cls, idx), written with the low bits of `wdata` (40_regfile R90): the case table of R93 when
`store` is the masked CSR write, of R97 when it is the raw one. -/
def State.writeReg (s : State) (store : State → CsrDesc → Word → State) (cls : RegClass) (idx : Nat) (wdata : Wide) :
    Except FatalCode State :=
  match cls with
  | .int => if idx > 31 then .error .badRegIndex else .ok (s.setIntCell idx (wordOf s.cfg.xlen wdata))
  | .fp => if idx > 31 then .error .badRegIndex else .ok (s.setFpCell idx (truncWide s.cfg.flen wdata))
  | .vec => if idx > 31 then .error .badRegIndex else .ok (s.setVecCell idx (truncWide s.cfg.vlen wdata))
  | .csr =>
    match s.cfg.desc idx with
    | none => .error .unknownCsr
    | some d => .ok (store s d (wordOf s.cfg.xlen wdata))

/-! ### Values of an external Action -/

/-- The number that stands for a state of the port: IDLE 0, REQUESTED 1, RESOLVED 2 (DESIGN CHOICE, safe, log entry 32). -/
def XpState.code : XpState → Nat
  | .idle => 0
  | .requested => 1
  | .resolved => 2

/-- The value a source stands for: its own, or what the Action has read (42_engine R153). A cell that is no number stands for
its code (10_state R29; log entry 32). -/
def State.sourceValue (s : State) : Source → Wide
  | .lit n => n
  | .rdata => s.iresp.rdata
  | .r0 => s.iresp.r0.toNat
  | .r1 => s.iresp.r1.toNat
  | .r2 => s.iresp.r2.toNat
  | .memData => s.memData
  | .pc => s.pc.toNat
  | .nextPc => s.nextPc.toNat
  | .priv => s.priv.enc
  | .virt => s.virt.toNat
  | .xlateMode => s.xlateMode
  | .mnemonic => s.curInst.mnemonic.code
  | .operand k => (s.curInst.operands[k]?).getD 0
  | .opcode => s.curInst.opcode.toNat
  | .size => s.curInst.size
  | .xpState => s.xp.state.code
  | .xpVaddr => s.xp.vaddr.toNat
  | .xpSize => s.xp.size.toNat

/-- A source on a 64-bit bus (30_encoding R71). -/
def State.sourceWord (s : State) (v : Source) : Word := BitVec.ofNat 64 (s.sourceValue v)

/-- The internal port's operand buses (30_encoding R70, R71). -/
def State.sourceBus (s : State) (wdata arg0 arg1 arg2 : Source) : Bus :=
  latchBus s.cfg
    { wdata := s.sourceValue wdata, arg0 := s.sourceWord arg0, arg1 := s.sourceWord arg1, arg2 := s.sourceWord arg2 }

end Machine

/-- The CSR and field that (idx, fid) name: the number is checked before the field (41_csr R117, R119, R122). -/
def Config.findField (c : Config) (idx fid : Nat) : Except Machine.FatalCode (CsrDesc × CsrField) :=
  match c.desc idx with
  | none => .error .unknownCsr
  | some d =>
    match d.fields[fid]? with
    | none => .error .unknownField
    | some f => .ok (d, f)

end Sys2Proof
end

