-- ==== Sys2Proof/Machine/Flags.lean ====
section
/-!
DEFINITION. The block has no status flag and no condition code: every operation rule says "Flags: none" (10_state R37). What
stands here is what the spec computes bit by bit: the response flags of the Engine's operations (42_engine R141) and the
status-CSR update of trap delivery (60_exceptions R204 to R206).
-/

namespace Sys2Proof.Machine

/-- `r2` of ENG.RUN_GROUP and ENG.RESUME: bit 0 retired, bit 1 paused, bit 2 no_next (42_engine R141). -/
def runFlags (retired paused noNext : Bool) : Word :=
  (if retired then 1#64 else 0#64) ||| (if paused then 2#64 else 0#64) ||| (if noNext then 4#64 else 0#64)

/-- `retired`: the hart is not paused and its next group is tagged FETCH (42_engine R145). -/
def State.retired (s : State) : Bool :=
  !s.eng.paused &&
    (match s.eng.next with
     | none => false
     | some t => s.cfg.isFetchGroup t)

/-- `no_next`: there is no next group (42_engine R141). -/
def State.noNext (s : State) : Bool := s.eng.next.isNone

/-- The CSRs and fields that the delivery sequence names (60_exceptions R194). `sv` is MSTATUS on RV64, MSTATUSH on RV32. -/
structure TrapNames where
  medeleg : CsrDesc
  mideleg : CsrDesc
  mtvec   : CsrDesc
  mepc    : CsrDesc
  mcause  : CsrDesc
  mtval   : CsrDesc
  stvec   : CsrDesc
  sepc    : CsrDesc
  scause  : CsrDesc
  stval   : CsrDesc
  mstatus : CsrDesc
  sv      : CsrDesc
  mie     : CsrField
  mpie    : CsrField
  mpp     : CsrField
  sie     : CsrField
  spie    : CsrField
  spp     : CsrField
  mpv     : CsrField
  gva     : CsrField
deriving DecidableEq, Repr

/-- The status update when the target is MACHINE (60_exceptions R204, R206): `mpie <- mie`, `mpp <- enc(priv)`, `mie <- 0`,
then `mpv <- 0`, `gva <- 0`. -/
def State.machineStatus (s : State) (t : TrapNames) : State :=
  ((((s.fieldWrite t.mstatus t.mpie (s.fieldRead t.mstatus t.mie)).fieldWrite t.mstatus t.mpp
    (BitVec.ofNat 64 s.priv.enc)).fieldWrite t.mstatus t.mie 0).fieldWrite t.sv t.mpv 0).fieldWrite t.sv t.gva 0

/-- The status update when the target is SUPERVISOR (60_exceptions R205): `spie <- sie`, `spp <- enc(priv)`, `sie <- 0`, all
on MSTATUS. -/
def State.supervisorStatus (s : State) (t : TrapNames) : State :=
  ((s.fieldWrite t.mstatus t.spie (s.fieldRead t.mstatus t.sie)).fieldWrite t.mstatus t.spp
    (BitVec.ofNat 64 s.priv.enc)).fieldWrite t.mstatus t.sie 0

end Sys2Proof.Machine
end

