-- ==== Sys2Proof/Machine/Ops.lean ====
section
/-!
DEFINITION. The shared operations: what a fatal does, how an operation answers on the command port, the work of the thirteen
operations that are not the Engine's, and taking an exception (trap delivery) as one operation.
-/

namespace Sys2Proof.Machine

/-- What an operation ends in (00_scope R7): OK with a new state and a response, or FATAL, which writes nothing. -/
inductive OpResult where
  | ok (s : State) (r : Response)
  | fatal (c : FatalCode)

/-! ### Answering on the command port -/

/-- The response buses, driven. -/
def State.respond (s : State) (r : Response) : State := { s with resp := r }

/-- FATAL with a code: the latch is written and answered (00_scope R7, 30_encoding R71; log entry 9). -/
def State.latch (s : State) (c : FatalCode) : State := { s with fatal := some c, resp := Response.ofFatal c }

/-- A command refused because the latch holds a code: nothing is read or written but the answer (00_scope R7). -/
def State.refuse (s : State) (c : FatalCode) : State := { s with resp := Response.ofFatal c }

/-- An operation as a command: refused with the latched code if there is one, else performed (00_scope R7). -/
def command (s : State) (op : State → OpResult) : Host.Outcome State Fault Refusal :=
  match s.fatal with
  | some c => .next (s.refuse c)
  | none =>
    match op s with
    | .ok t r => .next (t.respond r)
    | .fatal c => .next (s.latch c)

/-! ### Register File and CSR Registry -/

/-- RF.READ and RF.READ_DIRECT (40_regfile R91, R95). -/
def opRead (cls : RegClass) (idx : Nat) (s : State) : OpResult :=
  match s.readReg cls idx with
  | .error c => .fatal c
  | .ok v => .ok s (Response.ofData v)

/-- RF.WRITE: CSRs through the write mask (40_regfile R93). -/
def opWrite (cls : RegClass) (idx : Nat) (b : Bus) (s : State) : OpResult :=
  match s.writeReg State.csrWrite cls idx b.wdata with
  | .error c => .fatal c
  | .ok t => .ok t Response.ok

/-- RF.WRITE_DIRECT: CSRs raw, the zero write-guard kept (40_regfile R97). -/
def opWriteDirect (cls : RegClass) (idx : Nat) (b : Bus) (s : State) : OpResult :=
  match s.writeReg State.csrStore cls idx b.wdata with
  | .error c => .fatal c
  | .ok t => .ok t Response.ok

/-- CSR.FIELD_READ (41_csr R117). -/
def opFieldRead (idx fid : Nat) (s : State) : OpResult :=
  match s.cfg.findField idx fid with
  | .error c => .fatal c
  | .ok p => .ok s (Response.ofData (s.fieldRead p.1 p.2).toNat)

/-- CSR.FIELD_WRITE (41_csr R119). -/
def opFieldWrite (idx fid : Nat) (b : Bus) (s : State) : OpResult :=
  match s.cfg.findField idx fid with
  | .error c => .fatal c
  | .ok p => .ok (s.fieldWrite p.1 p.2 (wordOf s.cfg.xlen b.wdata)) Response.ok

/-! ### Translation Port -/

/-- The port written. -/
def State.setXp (s : State) (p : XltPort) : State := { s with xp := p }

/-- XLT.REQUEST (43_xlate R162). -/
def opRequest (b : Bus) (s : State) : OpResult :=
  match s.xp.state with
  | .idle =>
    .ok (s.setXp { s.xp with state := .requested, vaddr := b.arg0, size := b.arg1.setWidth 8 }) Response.ok
  | .requested => .fatal .xltBusy
  | .resolved => .fatal .xltBusy

/-- XLT.RESOLVE (43_xlate R164). -/
def opResolve (b : Bus) (s : State) : OpResult :=
  match s.xp.state with
  | .idle => .fatal .xltBadResolve
  | .requested =>
    .ok (s.setXp { s.xp with state := .resolved, paddr := b.arg0, misalign := b.arg1 }) Response.ok
  | .resolved => .fatal .xltBadResolve

/-- The result triple (paddr, vaddr, misalign) (43_xlate R166). -/
def XltPort.triple (p : XltPort) : Response := Response.ofTriple p.paddr p.vaddr p.misalign

/-- XLT.RESULT (43_xlate R167, R168). -/
def opResult (s : State) : OpResult :=
  match s.xp.state with
  | .idle => .fatal .xltNoResult
  | .requested => .fatal .xltNoResult
  | .resolved => .ok s s.xp.triple

/-- XLT.POP_RESULT (43_xlate R169). -/
def opPopResult (s : State) : OpResult :=
  match s.xp.state with
  | .idle => .fatal .xltNoResult
  | .requested => .fatal .xltNoResult
  | .resolved => .ok (s.setXp { s.xp with state := .idle }) s.xp.triple

/-! ### Exception/Interrupt Unit -/

/-- The slot and the trap-information latch, written. -/
def State.setTrap (s : State) (t : TrapUnit) : State := { s with trap := t }

/-- The slot empty and the latch zero (10_state R39, 60_exceptions R210). -/
def TrapUnit.empty : TrapUnit := { pendFault := none, pendIntr := none, tiVaddr := 0, tiMisalign := 0, tiOpcode := 0 }

/-- TRAP.SET_FAULT (44_trap_ops R181). -/
def opSetFault (cause : Nat) (b : Bus) (s : State) : OpResult :=
  if s.cfg.isFaultCode cause = false then .fatal .badCause
  else if s.trap.pendIntr.isSome then .fatal .bothPending
  else if s.trap.pendFault.isSome then .fatal .slotOccupied
  else
    .ok (s.setTrap { s.trap with
      pendFault := some cause
      tiVaddr := trunc s.cfg.xlen b.arg0
      tiMisalign := trunc s.cfg.xlen b.arg1
      tiOpcode := trunc s.cfg.xlen b.arg2 }) Response.ok

/-- TRAP.SET_INTERRUPT (44_trap_ops R183). -/
def opSetInterrupt (cause : Nat) (s : State) : OpResult :=
  if s.cfg.isIntrCode cause = false then .fatal .badCause
  else if s.trap.pendFault.isSome then .fatal .bothPending
  else if s.trap.pendIntr.isSome then .fatal .slotOccupied
  else .ok (s.setTrap { TrapUnit.empty with pendIntr := some cause }) Response.ok

end Sys2Proof.Machine

namespace Sys2Proof

/-- A CSR that delivery names, or F_UNKNOWN_CSR (60_exceptions R207). -/
def Config.needCsr (c : Config) (nm : CsrName) : Except Machine.FatalCode CsrDesc :=
  match c.descNamed nm with
  | none => .error .unknownCsr
  | some d => .ok d

/-- A field that delivery names, or F_UNKNOWN_FIELD (60_exceptions R207). -/
def CsrDesc.needField (d : CsrDesc) (nm : FieldName) : Except Machine.FatalCode CsrField :=
  match d.fieldNamed nm with
  | none => .error .unknownField
  | some f => .ok f

/-- Every lookup of the delivery sequence, made before any state changes (10_state R26, 60_exceptions R207): all the CSRs of
the table, then all the fields (DESIGN CHOICE of the order, log entry 14). -/
def Config.trapNames (c : Config) : Except Machine.FatalCode Machine.TrapNames := do
  let medeleg ← c.needCsr .medeleg
  let mideleg ← c.needCsr .mideleg
  let mtvec ← c.needCsr .mtvec
  let mepc ← c.needCsr .mepc
  let mcause ← c.needCsr .mcause
  let mtval ← c.needCsr .mtval
  let stvec ← c.needCsr .stvec
  let sepc ← c.needCsr .sepc
  let scause ← c.needCsr .scause
  let stval ← c.needCsr .stval
  let mstatus ← c.needCsr .mstatus
  let sv ← c.needCsr (match c.xlen with
    | .rv64 => .mstatus
    | .rv32 => .mstatush)
  let mie ← mstatus.needField .mie
  let mpie ← mstatus.needField .mpie
  let mpp ← mstatus.needField .mpp
  let sie ← mstatus.needField .sie
  let spie ← mstatus.needField .spie
  let spp ← mstatus.needField .spp
  let mpv ← sv.needField .mpv
  let gva ← sv.needField .gva
  return { medeleg, mideleg, mtvec, mepc, mcause, mtval, stvec, sepc, scause, stval, mstatus, sv, mie, mpie, mpp, sie,
           spie, spp, mpv, gva }

end Sys2Proof

namespace Sys2Proof.Machine

/-- Step 1, delegation: bit `c` of MIDELEG or MEDELEG decides, and nothing else (60_exceptions R195, R196). -/
def State.trapTarget (s : State) (t : TrapNames) (isIntr : Bool) (c : Nat) : Priv :=
  if (s.csr.get (if isIntr then t.mideleg.number else t.medeleg.number)).getLsbD c then .supervisor else .machine

/-- Step 2, the trap value (60_exceptions R197 to R199). -/
def State.trapValue (s : State) (isIntr : Bool) (c : Nat) : Word :=
  if isIntr then 0
  else
    match s.cfg.faultClass c with
    | .fetch => trunc s.cfg.xlen (s.trap.tiVaddr + s.trap.tiMisalign)
    | .loadStore => s.trap.tiVaddr
    | .illegal => s.trap.tiOpcode
    | .zero => 0

/-- The cause CSR's value: the code, and bit XLEN-1 for an interrupt (60_exceptions R202). -/
def causeValue (x : XLen) (isIntr : Bool) (c : Nat) : Word :=
  wordOf x c ||| (if isIntr then intrFlag x else 0)

/-- `next_pc <- v` (10_state R28). -/
def State.setNextPc (s : State) (v : Word) : State := { s with nextPc := v }

/-- Step 3 for MACHINE: redirect, record, update the status (60_exceptions R200 to R204, R206). -/
def State.recordMachine (s : State) (t : TrapNames) (isIntr : Bool) (c : Nat) : State :=
  ((((s.setNextPc (clearBit0 (s.csr.get t.mtvec.number))).csrWrite t.mepc s.pc).csrWrite t.mcause
    (causeValue s.cfg.xlen isIntr c)).csrWrite t.mtval (s.trapValue isIntr c)).machineStatus t

/-- Step 3 for SUPERVISOR: redirect, record, update the status (60_exceptions R200 to R203, R205). -/
def State.recordSupervisor (s : State) (t : TrapNames) (isIntr : Bool) (c : Nat) : State :=
  ((((s.setNextPc (clearBit0 (s.csr.get t.stvec.number))).csrWrite t.sepc s.pc).csrWrite t.scause
    (causeValue s.cfg.xlen isIntr c)).csrWrite t.stval (s.trapValue isIntr c)).supervisorStatus t

/-- Step 4, the switch: privilege, virtual flag 0, translation mode recomputed (60_exceptions R208, R209). -/
def State.switchTo (s : State) (p : Priv) : State :=
  { s with priv := p, virt := false, xlateMode := s.cfg.xlateMode p false s.csr }

/-- Taking an exception: the delivery sequence for a cause (60_exceptions R194), all five steps. -/
def State.deliver (s : State) (t : TrapNames) (isIntr : Bool) (c : Nat) : State :=
  ((if s.trapTarget t isIntr c = .supervisor then s.recordSupervisor t isIntr c
    else s.recordMachine t isIntr c).switchTo (s.trapTarget t isIntr c)).setTrap TrapUnit.empty

/-- The delivery of a cause, or the fatal of a lookup that misses (60_exceptions R207). -/
def opDeliverCause (isIntr : Bool) (c : Nat) (s : State) : OpResult :=
  match s.cfg.trapNames with
  | .error e => .fatal e
  | .ok t => .ok (s.deliver t isIntr c) Response.ok

/-- TRAP.DELIVER (44_trap_ops R185). The block has no return from an exception: that is a handler Action's (R217). -/
def opDeliver (s : State) : OpResult :=
  match s.trap.pendFault, s.trap.pendIntr with
  | some _, some _ => .fatal .bothPending
  | none, none => .fatal .nonePending
  | some c, none => opDeliverCause false c s
  | none, some c => opDeliverCause true c s

/-! ### Observation -/

/-- The observation outputs (10_state R40). -/
structure Observation where
  pc        : Word
  nextPc    : Word
  priv      : Priv
  virt      : Bool
  pendFault : Option Nat
  pendIntr  : Option Nat
  xpState   : XpState
  xpVaddr   : Word
  xpSize    : BitVec 8
  engNext   : Option Nat
  paused    : Bool
  fatal     : Option FatalCode
deriving DecidableEq, Repr

/-- What the block shows, with no operation needed (10_state R40). -/
def State.observe (s : State) : Observation :=
  { pc := s.pc, nextPc := s.nextPc, priv := s.priv, virt := s.virt, pendFault := s.trap.pendFault,
    pendIntr := s.trap.pendIntr, xpState := s.xp.state, xpVaddr := s.xp.vaddr, xpSize := s.xp.size,
    engNext := s.eng.next, paused := s.eng.paused, fatal := s.fatal }

end Sys2Proof.Machine
end

