-- ==== Sys2Proof/Machine/CsrRegistry.lean ====
section
/-!
DEFINITION. The CSR Registry's two operations on the command port (41_csr R110 to R123).
-/

namespace Sys2Proof.Machine

/-- CSR.FIELD_READ n, fid (41_csr R117). -/
def execCsrFieldRead (idx fid : Nat) (s : State) : Host.Outcome State Fault Refusal :=
  command s (opFieldRead idx fid)

/-- CSR.FIELD_WRITE n, fid, wdata (41_csr R119). -/
def execCsrFieldWrite (idx fid : Nat) (s : State) : Host.Outcome State Fault Refusal :=
  command s (opFieldWrite idx fid s.bus)

end Sys2Proof.Machine
end

