-- ==== Sys2Proof/Machine/Actions.lean ====
section
/-!
DEFINITION. Actions (42_engine R131, R153): an operation on the internal port, what an external Action does, the four
built-in Actions (R148, R154, R155, R156), and the invocation of any Action.
-/

namespace Sys2Proof.Machine

/-- The work of an operation on a port whose operand buses carry `b`; none for the Engine's two operations, which an Action
never issues (42_engine R142, R153). -/
def portOp (i : Instr) (b : Bus) (s : State) : Option OpResult :=
  match i with
  | .rfRead cls idx => some (opRead cls idx s)
  | .rfWrite cls idx => some (opWrite cls idx b s)
  | .rfReadDirect cls idx => some (opRead cls idx s)
  | .rfWriteDirect cls idx => some (opWriteDirect cls idx b s)
  | .csrFieldRead idx fid => some (opFieldRead idx fid s)
  | .csrFieldWrite idx fid => some (opFieldWrite idx fid b s)
  | .engRunGroup => none
  | .engResume => none
  | .xltRequest => some (opRequest b s)
  | .xltResolve => some (opResolve b s)
  | .xltResult => some (opResult s)
  | .xltPopResult => some (opPopResult s)
  | .trapSetFault cause => some (opSetFault cause b s)
  | .trapSetInterrupt cause => some (opSetInterrupt cause s)
  | .trapDeliver => some (opDeliver s)

/-- How a stretch of an Action's work ends: done, stopped by a fatal whose earlier effects stand (42_engine R141), or
stopped by the model. -/
inductive WorkOut where
  | ok (s : State)
  | fatal (s : State) (c : FatalCode)
  | fault (r : Fault)

/-- An operation's answer on the internal port (30_encoding R70). -/
def answer (s : State) : OpResult → WorkOut
  | .ok t r => .ok { t with iresp := r }
  | .fatal c => .fatal { s with iresp := Response.ofFatal c } c

/-- An operation issued on the internal port: same encoding, same semantics (30_encoding R70, R78). -/
def issue (cw : CmdWord) (b : Bus) (s : State) : WorkOut :=
  match decode cw with
  | .error _ => answer s (.fatal .badCommand)
  | .ok i =>
    match portOp i b s with
    | none => .fault .engineNested
    | some r => answer s r

/-- One thing an external Action does (42_engine R153). The encoding of no mode leaves `priv` as it was (log entry 32). -/
def runOp (s : State) : ActionOp → WorkOut
  | .issue cw wdata arg0 arg1 arg2 => issue cw (s.sourceBus wdata arg0 arg1 arg2) s
  | .setNextPc v => .ok (s.setNextPc (wordOf s.cfg.xlen (s.sourceValue v)))
  | .setPriv v => .ok { s with priv := (Priv.ofEnc (s.sourceValue v)).getD s.priv }
  | .setVirt v => .ok { s with virt := (s.sourceValue v).testBit 0 }
  | .setXlateMode v => .ok { s with xlateMode := s.sourceValue v }
  | .setInst mnemonic operands bits size =>
    .ok { s with curInst := { s.curInst with mnemonic := mnemonic, operands := operands, size := size,
                                             opcode := BitVec.ofNat 32 (s.sourceValue bits) } }
  | .memRead addr n => .ok { s with memData := s.mem.read (s.sourceWord addr).toNat n.bytes }
  | .memWrite addr n v => .ok { s with mem := s.mem.write (s.sourceWord addr).toNat n.bytes (s.sourceValue v) }

/-- An external Action's operations, in order. A fatal stops the Action there: what it did before stands (42_engine R141), and
nothing it would have done after it is done. R136 stops the run after the Action and does not say what the Action itself still
does (DESIGN CHOICE, unsafe, log entry 30). -/
def runOps (s : State) : List ActionOp → WorkOut
  | [] => .ok s
  | o :: os =>
    match runOp s o with
    | .ok t => runOps t os
    | .fatal t c => .fatal t c
    | .fault r => .fault r

/-- What an Action ends in: a new state and its answer to the Engine (42_engine R131, R133), or as in `WorkOut`. -/
inductive ActOut where
  | ok (s : State) (ct : ControlTransfer)
  | fatal (s : State) (c : FatalCode)
  | fault (r : Fault)

/-- An Action's work followed by its answer. -/
def WorkOut.thenAnswer (w : WorkOut) (ct : ControlTransfer) : ActOut :=
  match w with
  | .ok s => .ok s ct
  | .fatal s c => .fatal s c
  | .fault r => .fault r

/-- The next invocation's script; `idle` when there is none left (log entries 10, 11). -/
def State.nextRun (s : State) : ActionRun :=
  match s.script with
  | [] => s.idle
  | r :: _ => r

/-- The script without the invocation just taken. -/
def State.dropRun (s : State) : State := { s with script := s.script.tail }

/-- An external Action that does what the next script says (42_engine R131, R153). -/
def actScript (s : State) : ActOut := (runOps s.dropRun s.nextRun.ops).thenAnswer s.nextRun.ct

/-- The MMU's answer to what it decides by (43_xlate R165). -/
def mmuAnswer (m : MmuFunction) (k : MmuKey) : MmuAnswer := (m.tab.lookup k).getD m.default

/-- What the MMU decides by, in this state (43_xlate R165; log entry 31). -/
def State.mmuKey (s : State) : MmuKey :=
  { vaddr := s.xp.vaddr, size := s.xp.size, priv := s.priv, virt := s.virt, xlateMode := s.xlateMode,
    mnemonic := s.curInst.mnemonic, operands := s.curInst.operands, mem := s.mem }

/-- The MMU does with the request what it answers: XLT.RESOLVE and Continue, or TRAP.SET_FAULT with the request's address and
the transfer to G_EXCEPTION (42_engine R152, 43_xlate R165, 20_memory R59); operands a load/store cause does not use are 0
(44_trap_ops R182). -/
def mmuServe (s : State) : MmuAnswer → ActOut
  | .resolve paddr misalign =>
    (answer s (opResolve { Bus.zero with arg0 := paddr, arg1 := misalign } s)).thenAnswer .continue
  | .raise cause =>
    (answer s (opSetFault cause { Bus.zero with arg0 := s.xp.vaddr } s)).thenAnswer (.transfer s.cfg.exception)

/-- A_MMU as a function (42_engine R152): it serves a request, and does nothing where there is none, or none left to resolve
(43_xlate R165: it never resolves twice; log entry 31). -/
def actMmu (m : MmuFunction) (s : State) : ActOut :=
  match s.xp.state with
  | .idle => .ok s .continue
  | .requested => mmuServe s (mmuAnswer m s.mmuKey)
  | .resolved => .ok s .continue

/-- The MMU's function, where `e` is A_MMU and the configuration gives one (43_xlate R165). -/
def State.mmuOf (s : State) (e : ExtAction) : Option MmuFunction := if e = .aMmu then s.cfg.mmu else none

/-- An external Action (42_engine R131, R153): the MMU's function where there is one, else a script. -/
def actExternal (e : ExtAction) (s : State) : ActOut :=
  match s.mmuOf e with
  | some m => actMmu m s
  | none => actScript s

/-- The Actions registered for a mnemonic (42_engine R148). -/
def handlersOf (c : Config) (m : Mnemonic) : Option (List Action) := c.handlers.lookup m

/-- The lookup of instruction assembly: the registered list, `[illegal]` for an unregistered UNIMP, else the
missing-handler fatal (42_engine R148, R149). -/
def assembledList (c : Config) (m : Mnemonic) : Except FatalCode (List Action) :=
  match handlersOf c m with
  | some l => .ok l
  | none => if m = .unimp then .ok [Reference.illegalAction] else .error .missingHandler

/-- A_MMU stands between a COMPUTE_ADDR Action and the EXECUTE Action (42_engine R148, R152). -/
def withMmu : List Action → List Action
  | [a, e] => if a.tag = .computeAddr then [a, Reference.mmuAction, e] else [a, e]
  | l => l

/-- The built-in Action `assemble` (42_engine R148): the instruction's group, a renewed port (43_xlate R171), the
fall-through `next_pc`. -/
def actAssemble (s : State) : ActOut :=
  match assembledList s.cfg s.curInst.mnemonic with
  | .error c => .fatal s c
  | .ok l =>
    .ok { s with
      curInst := { s.curInst with actions := withMmu l }
      xp := { s.xp with state := .idle }
      nextPc := trunc s.cfg.xlen (s.pc + BitVec.ofNat 64 s.curInst.size) } .continue

/-- The built-in Action `commit_pc` (42_engine R154). -/
def actCommitPc (s : State) : ActOut := .ok { s with pc := s.nextPc } .continue

/-- The built-in Action `deliver_trap` (42_engine R155). -/
def actDeliverTrap (s : State) : ActOut := (answer s (opDeliver s)).thenAnswer .continue

/-- The built-in Action `illegal` (42_engine R156): TRAP.SET_FAULT 2, 0, 0, opcode, then the transfer to G_EXCEPTION. -/
def actIllegal (s : State) : ActOut :=
  (answer s (opSetFault FaultCause.illegalInst.code
    { Bus.zero with arg2 := s.curInst.opcode.setWidth 64 } s)).thenAnswer (.transfer s.cfg.exception)

/-- Any Action, invoked (42_engine R131). -/
def invoke (a : Action) (s : State) : ActOut :=
  match a.body with
  | .assemble => actAssemble s
  | .commitPc => actCommitPc s
  | .deliverTrap => actDeliverTrap s
  | .illegal => actIllegal s
  | .external e => actExternal e s

end Sys2Proof.Machine
end

