-- ==== Sys2Proof/Machine/Engine.lean ====
section
/-!
DEFINITION. The Action/ActionGroup Engine (42_engine R130 to R147): executing a group, transfer and pause, and the Engine's
two operations on the command port.
-/

namespace Sys2Proof.Machine

/-- How the run of a group ends (42_engine R136): the next group, or as in `WorkOut`. -/
inductive RunOut where
  | done (s : State) (next : Option Nat)
  | fatal (s : State) (c : FatalCode)
  | fault (r : Fault)

/-- The Engine's cells, written. -/
def State.setEng (s : State) (e : Engine) : State := { s with eng := e }

/-- `transfer(t)`: any group of GRAPH, else F_BAD_GROUP (42_engine R137). -/
def transferTo (s : State) (t : Nat) : RunOut :=
  if t < s.cfg.graph.length then .done s (some t) else .fatal s .badGroup

/-- `run(g, start)` from Action number `i` on, over the Actions left (42_engine R136): in order, each once; the end follows
the static link `next`; a transfer abandons the rest; a pause keeps the group and the number of the Action after. -/
def runActions (g : Nat) (next : Option Nat) (i : Nat) (s : State) : List Action → RunOut
  | [] => .done s next
  | a :: as =>
    match invoke a s with
    | .fault r => .fault r
    | .fatal t c => .fatal t c
    | .ok t .continue => runActions g next (i + 1) t as
    | .ok t (.transfer u) => transferTo t u
    | .ok t .pause => .done (t.setEng { t.eng with paused := true, cursor := i + 1 }) (some g)

/-- `actions(g)`, read when the group starts (42_engine R135, R136). -/
def State.groupActions (s : State) (g : Group) : List Action :=
  match g.actions with
  | .fixed as => as
  | .instruction => s.curInst.actions

/-- `run(g, i)` (42_engine R136); a `g` outside GRAPH is no group to run (log entry 20). -/
def runGroup (g i : Nat) (s : State) : RunOut :=
  match s.cfg.graph[g]? with
  | none => .fatal s .badGroup
  | some grp => runActions g grp.next i s ((s.groupActions grp).drop i)

/-- `r0`, `r1`, `r2` of ENG.RUN_GROUP and ENG.RESUME (42_engine R141, 30_encoding R75). -/
def runResponse (g : Nat) (s : State) : Response :=
  Response.ofTriple (BitVec.ofNat 64 g) (BitVec.ofNat 64 (s.eng.next.getD 0))
    (runFlags s.retired s.eng.paused s.noNext)

/-- The run of a group as a command's outcome: `eng_next` written and answered; a fatal's earlier effects stand (42_engine
R141). -/
def finishRun (g : Nat) : RunOut → Host.Outcome State Fault Refusal
  | .done s next =>
    .next ((s.setEng { s.eng with next := next }).respond (runResponse g (s.setEng { s.eng with next := next })))
  | .fatal s c => .next (s.latch c)
  | .fault r => .fault r

/-- ENG.RUN_GROUP (42_engine R141). -/
def execEngRunGroup (s : State) : Host.Outcome State Fault Refusal :=
  match s.fatal with
  | some c => .next (s.refuse c)
  | none =>
    if s.eng.paused then .next (s.latch .isPaused)
    else
      match s.eng.next with
      | none => .next (s.latch .badGroup)
      | some g => finishRun g (runGroup g 0 s)

/-- The Engine's cells at a resume: not paused, cursor 0 (42_engine R147). -/
def State.unpause (s : State) : State := s.setEng { s.eng with paused := false, cursor := 0 }

/-- ENG.RESUME (42_engine R147). -/
def execEngResume (s : State) : Host.Outcome State Fault Refusal :=
  match s.fatal with
  | some c => .next (s.refuse c)
  | none =>
    if s.eng.paused = false then .next (s.latch .notPaused)
    else
      match s.eng.next with
      | none => .next (s.latch .badGroup)
      | some g => finishRun g (runGroup g s.eng.cursor s.unpause)

end Sys2Proof.Machine
end

