-- ==== Sys2Proof/Machine/ExceptionUnit.lean ====
section
/-!
DEFINITION. The Exception/Interrupt Unit's three operations on the command port (44_trap_ops R180 to R186).
-/

namespace Sys2Proof.Machine

/-- TRAP.SET_FAULT c, vaddr, misalign, opcode (44_trap_ops R181). -/
def execTrapSetFault (cause : Nat) (s : State) : Host.Outcome State Fault Refusal :=
  command s (opSetFault cause s.bus)

/-- TRAP.SET_INTERRUPT c (44_trap_ops R183). -/
def execTrapSetInterrupt (cause : Nat) (s : State) : Host.Outcome State Fault Refusal :=
  command s (opSetInterrupt cause)

/-- TRAP.DELIVER (44_trap_ops R185). -/
def execTrapDeliver (s : State) : Host.Outcome State Fault Refusal :=
  command s opDeliver

end Sys2Proof.Machine
end

