-- ==== Sys2Proof/Machine/RegisterFile.lean ====
section
/-!
DEFINITION. The Register File's four operations on the command port (40_regfile R90 to R99).
-/

namespace Sys2Proof.Machine

/-- RF.READ cls, idx (40_regfile R91): `rdata` is the register, zero-extended. -/
def execRfRead (cls : RegClass) (idx : Nat) (s : State) : Host.Outcome State Fault Refusal :=
  command s (opRead cls idx)

/-- RF.WRITE cls, idx, wdata (40_regfile R93): CSRs through the write mask. -/
def execRfWrite (cls : RegClass) (idx : Nat) (s : State) : Host.Outcome State Fault Refusal :=
  command s (opWrite cls idx s.bus)

/-- RF.READ_DIRECT cls, idx (40_regfile R95): observationally RF.READ. -/
def execRfReadDirect (cls : RegClass) (idx : Nat) (s : State) : Host.Outcome State Fault Refusal :=
  command s (opRead cls idx)

/-- RF.WRITE_DIRECT cls, idx, wdata (40_regfile R97): CSRs raw, the zero write-guard kept. -/
def execRfWriteDirect (cls : RegClass) (idx : Nat) (s : State) : Host.Outcome State Fault Refusal :=
  command s (opWriteDirect cls idx s.bus)

end Sys2Proof.Machine
end

