-- ==== Sys2Proof/Machine/TranslationPort.lean ====
section
/-!
DEFINITION. The Translation Port's four operations on the command port (43_xlate R160 to R171).
-/

namespace Sys2Proof.Machine

/-- XLT.REQUEST vaddr, size (43_xlate R162). -/
def execXltRequest (s : State) : Host.Outcome State Fault Refusal :=
  command s (opRequest s.bus)

/-- XLT.RESOLVE paddr, misalign (43_xlate R164). -/
def execXltResolve (s : State) : Host.Outcome State Fault Refusal :=
  command s (opResolve s.bus)

/-- XLT.RESULT (43_xlate R167). -/
def execXltResult (s : State) : Host.Outcome State Fault Refusal :=
  command s opResult

/-- XLT.POP_RESULT (43_xlate R169). -/
def execXltPopResult (s : State) : Host.Outcome State Fault Refusal :=
  command s opPopResult

end Sys2Proof.Machine
end

