-- ==== Sys2Proof/Machine/Dispatch.lean ====
section
/-! DEFINITION. One arm per operation of 30_encoding R72, each a call of its meaning. -/

namespace Sys2Proof.Machine

def exec (i : Instr) (s : State) : Host.Outcome State Fault Refusal :=
  match i with
  -- Register File
  | .rfRead cls idx => Sys2Proof.Machine.execRfRead cls idx s
  | .rfWrite cls idx => Sys2Proof.Machine.execRfWrite cls idx s
  | .rfReadDirect cls idx => Sys2Proof.Machine.execRfReadDirect cls idx s
  | .rfWriteDirect cls idx => Sys2Proof.Machine.execRfWriteDirect cls idx s
  -- CSR Registry
  | .csrFieldRead idx fid => Sys2Proof.Machine.execCsrFieldRead idx fid s
  | .csrFieldWrite idx fid => Sys2Proof.Machine.execCsrFieldWrite idx fid s
  -- Engine
  | .engRunGroup => Sys2Proof.Machine.execEngRunGroup s
  | .engResume => Sys2Proof.Machine.execEngResume s
  -- Translation Port
  | .xltRequest => Sys2Proof.Machine.execXltRequest s
  | .xltResolve => Sys2Proof.Machine.execXltResolve s
  | .xltResult => Sys2Proof.Machine.execXltResult s
  | .xltPopResult => Sys2Proof.Machine.execXltPopResult s
  -- Exception/Interrupt Unit
  | .trapSetFault cause => Sys2Proof.Machine.execTrapSetFault cause s
  | .trapSetInterrupt cause => Sys2Proof.Machine.execTrapSetInterrupt cause s
  | .trapDeliver => Sys2Proof.Machine.execTrapDeliver s

end Sys2Proof.Machine
end

