-- ==== Sys2Proof/Machine/Port.lean ====
section
/-!
DEFINITION. The command port's intake (30_encoding R70, R71, R78) and the reset input (70_reset R230): what `step` does
around `exec`.
-/

namespace Sys2Proof.Machine

/-- A command taken from the port: its operands stand on the buses, the rest waits (30_encoding R70, R71). -/
def State.accept (s : State) (c : Command) (rest : List Input) : State :=
  { s with inputs := rest, bus := latchBus s.cfg c.bus }

/-- A command word that matches no row: F_BAD_COMMAND, nothing else changed (30_encoding R78). -/
def rejectWord (s : State) : Host.Outcome State Fault Refusal := command s fun _ => .fatal .badCommand

/-- The reset input: every piece of the block's state at its reset value, the outside as it is (70_reset R230). -/
def State.afterReset (s : State) (rest : List Input) : State :=
  State.resetOf s.cfg rest s.script s.idle s.mem s.memData

/-- A command word put on the port before all others, with the operands the buses carry. -/
def State.present (s : State) (cw : CmdWord) : State :=
  { s with inputs := .command { cw := cw, bus := s.bus } :: s.inputs }

end Sys2Proof.Machine
end

