-- ==== Sys2Proof/Machine/Step.lean ====
section
/-!
DEFINITION. One step: the first input waiting on the port, a command or a reset. With nothing waiting nothing changes (00_scope
R5: the block changes state only by operations; log entry 7).
-/

namespace Sys2Proof.Machine

/-- A command taken, decoded and performed (30_encoding R70, R77, R78). -/
def stepCommand (s : State) (c : Command) (rest : List Input) : Host.Outcome State Fault Refusal :=
  match decode c.cw with
  | .error _ => rejectWord (s.accept c rest)
  | .ok i => exec i (s.accept c rest)

/-- One step of the block. -/
def step (s : State) : Host.Outcome State Fault Refusal :=
  match s.inputs with
  | [] => .next s
  | .reset :: rest => .next (s.afterReset rest)
  | .command c :: rest => stepCommand s c rest

/-- The state with the instruction of the low `nbits` bits of `w` presented first on the command port, its data operands those
the buses carry (log entry 7). -/
def State.withFetchWord (s : State) (nbits w : Nat) : State :=
  match tableWord nbits w with
  | none => s
  | some cw => s.present cw

end Sys2Proof.Machine
end

