-- ==== Sys2Proof/Machine/Pseudo.lean ====
section
/-!
DEFINITION. The pseudo-operations of 30_encoding R82, each an exact expansion.
-/

namespace Sys2Proof.Machine.Pseudo

/-- CSR.READ n. -/
def csrRead (n : Nat) : Instr := .rfRead .csr n
/-- CSR.WRITE n, v (v on `wdata`). -/
def csrWrite (n : Nat) : Instr := .rfWrite .csr n
/-- CSR.READ_DIRECT n. -/
def csrReadDirect (n : Nat) : Instr := .rfReadDirect .csr n
/-- CSR.WRITE_DIRECT n, v (v on `wdata`). -/
def csrWriteDirect (n : Nat) : Instr := .rfWriteDirect .csr n
/-- XR.READ i. -/
def xrRead (i : Nat) : Instr := .rfRead .int i
/-- XR.WRITE i, v (v on `wdata`). -/
def xrWrite (i : Nat) : Instr := .rfWrite .int i

/-- A response has `retired`, `paused`, `no_next` or `status` set: ENG.STEP stops (R82). -/
def stops (r : Response) : Bool := r.status || decide (r.r2 ≠ 0)

/-- ENG.STEP, one whole instruction chain (R82, 42_engine R145), cut after `fuel` groups, since a chain has no bound (R141;
log entry 28). -/
def engStep : Nat → State → Host.Outcome State Fault Refusal
  | 0, s => .next s
  | fuel + 1, s =>
    match execEngRunGroup s with
    | .next t => if stops t.resp then .next t else engStep fuel t
    | .fault r => .fault r
    | .refused r => .refused r

end Sys2Proof.Machine.Pseudo
end

