-- ==== Sys2Proof/Safety.lean ====
section
/-!
DEFINITION. The terms the claims use: a run without a fatal, the invariant of the block's state, who may do what inside an
Action (42_engine R150 to R153), what leaves the rest of the state alone.
-/

namespace Sys2Proof.Machine

/-- No fatal is latched (00_scope R7: a state with a fatal latched is never a final state of a run). -/
def State.safe (s : State) : Bool := s.fatal.isNone

/-- A chain boundary, or a pause: where the host may use the back door (70_reset R243). -/
def State.backDoorOpen (s : State) : Bool := s.retired || s.eng.paused

/-! ### The invariant -/

/-- An XLEN-wide value kept in a 64-bit cell (log entry 1). -/
def fits (x : XLen) (w : Word) : Bool := trunc x w == w

/-- A value of `n` bits (log entry 2). -/
def fitsWide (n : Nat) (v : Wide) : Bool := decide (v < 2 ^ n)

/-- Every cell holds a value of its width (10_state R20, R23, R24, R27, R28, R31). -/
def State.cellsFit (s : State) : Bool :=
  s.x.toList.all (fits s.cfg.xlen) && s.f.toList.all (fitsWide s.cfg.flen) && s.v.toList.all (fitsWide s.cfg.vlen)
    && s.csr.all (fun c => fits s.cfg.xlen c.2) && fits s.cfg.xlen s.pc && fits s.cfg.xlen s.nextPc
    && fits s.cfg.xlen s.trap.tiVaddr && fits s.cfg.xlen s.trap.tiMisalign && fits s.cfg.xlen s.trap.tiOpcode

/-- There is one CSR cell per descriptor, in the table's order (10_state R24). -/
def State.csrCellsOk (s : State) : Bool := s.csr.map Prod.fst == s.cfg.csrTab.map CsrDesc.number

/-- At most one cause is pending, and it is a member of its enumeration (10_state R30, 44_trap_ops R184); the
trap-information latch is zero unless a fault is pending (10_state R31). -/
def State.slotOk (s : State) : Bool :=
  (match s.trap.pendFault, s.trap.pendIntr with
   | none, none => true
   | some c, none => s.cfg.isFaultCode c
   | none, some c => s.cfg.isIntrCode c
   | some _, some _ => false)
  && (s.trap.pendFault.isSome
    || (s.trap.tiVaddr == 0 && s.trap.tiMisalign == 0 && s.trap.tiOpcode == 0))

/-- `eng_next` names a group of GRAPH or none, `eng_cursor` is 0 unless the hart is paused, a paused hart has a group
(10_state R33, 42_engine R146). -/
def State.engOk (s : State) : Bool :=
  (match s.eng.next with
   | none => !s.eng.paused
   | some g => decide (g < s.cfg.graph.length))
  && (s.eng.paused || s.eng.cursor == 0)

/-- The invariant: of a configuration that passes the construction checks, everything above and the store's canonical form;
of one that fails them, a latched fatal (41_csr R111, 42_engine R139). -/
def State.inv (s : State) : Bool :=
  if s.cfg.ok then s.cellsFit && s.csrCellsOk && s.slotOk && s.engOk && s.mem.wf else s.fatal.isSome

/-! ### Frames -/

/-- `t` differs from `s` at most in the response buses. -/
def SameButResp (s t : State) : Prop := t = { s with resp := t.resp }

/-- `t` differs from `s` at most in the CSR file and the response buses. -/
def SameButCsr (s t : State) : Prop := t = { s with csr := t.csr, resp := t.resp }

/-- Every CSR but number `n` reads as before. -/
def OtherCsrsKept (s t : State) (n : Nat) : Prop := ∀ k, k ≠ n → t.csr.get k = s.csr.get k

/-! ### What a conforming external Action does (the block checks none of it, 42_engine R153) -/

/-- A handler, as opposed to the front end and the MMU. -/
def isHandler : ExtAction → Bool
  | .handler _ => true
  | .aFetch => false
  | .aFtrans => false
  | .aDecode => false
  | .aMmu => false

/-- The fault causes an external Action may raise: fetch-class ones at the front end (42_engine R150), ILLEGAL_INST at the
decoder (R151), page-fault, access-fault and misaligned ones at the MMU (R152), any at a handler (R153). -/
def mayRaise (e : ExtAction) (cause : Nat) : Bool :=
  match e with
  | .aFetch => [0, 1, 12].contains cause
  | .aFtrans => [0, 1, 12].contains cause
  | .aDecode => cause == 2
  | .aMmu => [0, 1, 4, 5, 6, 7, 12, 13, 15].contains cause
  | .handler _ => true

/-- The operations an external Action may issue on the internal port (42_engine R150 to R153). -/
def mayIssue (e : ExtAction) (i : Instr) : Bool :=
  match i with
  | .rfRead _ _ => true
  | .rfWrite _ _ => isHandler e
  | .rfReadDirect _ _ => false
  | .rfWriteDirect _ _ => false
  | .csrFieldRead _ _ => true
  | .csrFieldWrite _ _ => isHandler e
  | .engRunGroup => false
  | .engResume => false
  | .xltRequest => isHandler e
  | .xltResolve => e == .aMmu
  | .xltResult => isHandler e
  | .xltPopResult => isHandler e
  | .trapSetFault cause => mayRaise e cause
  | .trapSetInterrupt _ => isHandler e || e == .aFetch || e == .aFtrans
  | .trapDeliver => false

/-- One thing an external Action may do (42_engine R150 to R153). -/
def mayDo (e : ExtAction) (o : ActionOp) : Bool :=
  match o with
  | .issue cw _ _ _ _ =>
    match decode cw with
    | .ok i => mayIssue e i
    | .error _ => false
  | .setNextPc _ => isHandler e
  | .setPriv _ => isHandler e
  | .setVirt _ => isHandler e
  | .setXlateMode _ => isHandler e
  | .setInst _ _ _ _ => e == .aDecode
  | .memRead _ _ => true
  | .memWrite _ _ _ => isHandler e || e == .aMmu

/-- ENG.RUN_GROUP or ENG.RESUME. -/
def isEngineOp : Instr → Bool
  | .rfRead _ _ => false
  | .rfWrite _ _ => false
  | .rfReadDirect _ _ => false
  | .rfWriteDirect _ _ => false
  | .csrFieldRead _ _ => false
  | .csrFieldWrite _ _ => false
  | .engRunGroup => true
  | .engResume => true
  | .xltRequest => false
  | .xltResolve => false
  | .xltResult => false
  | .xltPopResult => false
  | .trapSetFault _ => false
  | .trapSetInterrupt _ => false
  | .trapDeliver => false

/-- TRAP.SET_FAULT or TRAP.SET_INTERRUPT. -/
def isCauseSetter : Instr → Bool
  | .rfRead _ _ => false
  | .rfWrite _ _ => false
  | .rfReadDirect _ _ => false
  | .rfWriteDirect _ _ => false
  | .csrFieldRead _ _ => false
  | .csrFieldWrite _ _ => false
  | .engRunGroup => false
  | .engResume => false
  | .xltRequest => false
  | .xltResolve => false
  | .xltResult => false
  | .xltPopResult => false
  | .trapSetFault _ => true
  | .trapSetInterrupt _ => true
  | .trapDeliver => false

/-- The operation may write a CSR. -/
def mayWriteCsr : Instr → Bool
  | .rfRead _ _ => false
  | .rfWrite cls _ => cls == .csr
  | .rfReadDirect _ _ => false
  | .rfWriteDirect cls _ => cls == .csr
  | .csrFieldRead _ _ => false
  | .csrFieldWrite _ _ => true
  | .engRunGroup => false
  | .engResume => false
  | .xltRequest => false
  | .xltResolve => false
  | .xltResult => false
  | .xltPopResult => false
  | .trapSetFault _ => false
  | .trapSetInterrupt _ => false
  | .trapDeliver => true

/-- What an external Action does on the internal port satisfies `p` (and is no reserved word); anything else it does is let
through. -/
def issuesOnly (p : Instr → Bool) (o : ActionOp) : Bool :=
  match o with
  | .issue cw _ _ _ _ =>
    match decode cw with
    | .ok i => p i
    | .error _ => true
  | .setNextPc _ => true
  | .setPriv _ => true
  | .setVirt _ => true
  | .setXlateMode _ => true
  | .setInst _ _ _ _ => true
  | .memRead _ _ => true
  | .memWrite _ _ _ => true

/-- The operation sets a cause. -/
def setsCause (o : ActionOp) : Bool := !(issuesOnly (fun i => !isCauseSetter i) o)

/-- The operation issues `i`, whatever its operands. -/
def issues (i : Instr) (o : ActionOp) : Bool := !(issuesOnly (fun j => j != i) o)

/-- The operation writes the instruction record. -/
def writesInst (o : ActionOp) : Bool :=
  match o with
  | .issue _ _ _ _ _ => false
  | .setNextPc _ => false
  | .setPriv _ => false
  | .setVirt _ => false
  | .setXlateMode _ => false
  | .setInst _ _ _ _ => true
  | .memRead _ _ => false
  | .memWrite _ _ _ => false

/-- The operands of a fault that `e` raises from state `s`, where the contracts fix them: the decoder raises with the raw
instruction bits `raw` as opcode (42_engine R151), the MMU with the request's address (R152). -/
def faultOperandsOk (e : ExtAction) (raw : BitVec 32) (s : State) (vaddr bits : Source) : Bool :=
  match e with
  | .aFetch => true
  | .aFtrans => true
  | .aDecode => s.sourceWord bits == raw.setWidth 64
  | .aMmu => s.sourceWord vaddr == s.xp.vaddr
  | .handler _ => true

/-- One thing that `e` does in state `s`, its operands what the contracts say: those of a fault, and the raw bits `raw` in the
instruction record (10_state R34, 42_engine R151, R152). -/
def operandsOk (e : ExtAction) (raw : BitVec 32) (s : State) (o : ActionOp) : Bool :=
  match o with
  | .issue _ _ vaddr _ bits => !setsCause o || faultOperandsOk e raw s vaddr bits
  | .setNextPc _ => true
  | .setPriv v => (Priv.ofEnc (s.sourceValue v)).isSome
  | .setVirt _ => true
  | .setXlateMode _ => true
  | .setInst _ _ bits _ => BitVec.ofNat 32 (s.sourceValue bits) == raw
  | .memRead _ _ => true
  | .memWrite _ _ _ => true

/-- `p` holds of each operation in the state it is done in. -/
def holdsAlong (p : State → ActionOp → Bool) (s : State) : List ActionOp → Bool
  | [] => true
  | o :: os => p s o &&
    (match runOp s o with
     | .ok t => holdsAlong p t os
     | .fatal _ _ => true
     | .fault _ => true)

/-- An invocation answers as an Action may: it transfers to the exception group exactly when it sets a cause, and to no other
group (42_engine R153, 90_conflicts C9). -/
def answersWell (c : Config) (r : ActionRun) : Bool :=
  match r.ct with
  | .continue => !r.ops.any setsCause
  | .transfer g => g == c.exception && r.ops.any setsCause
  | .pause => !r.ops.any setsCause

/-- What the contract of each external Action asks of an invocation in state `s` beyond R153. The decoder continues with the
record written, or raises (42_engine R151). The MMU does exactly one of resolving and raising for a request, once, and nothing
where there is no request (R152, 43_xlate R165). Neither pauses. -/
def contractMet (s : State) (e : ExtAction) (r : ActionRun) : Bool :=
  match e with
  | .aFetch => true
  | .aFtrans => true
  | .aDecode => r.ct != .pause && (r.ops.any setsCause || r.ops.any writesInst)
  | .aMmu => r.ct != .pause &&
    (match s.xp.state with
     | .idle => r.ops.isEmpty
     | .requested => r.ops.countP (fun o => issues .xltResolve o || setsCause o) == 1
     | .resolved => !(r.ops.any fun o => issues .xltResolve o || setsCause o))
  | .handler _ => true

/-- An invocation of `e` in state `s` conforms: it does what `e` may do (42_engine R153), with the operands, the answer and the
outcome that the contract of `e` says (R150 to R152, 43_xlate R165). `raw` is the raw bits of the instruction. -/
def conforms (s : State) (raw : BitVec 32) (e : ExtAction) (r : ActionRun) : Bool :=
  r.ops.all (mayDo e) && holdsAlong (operandsOk e raw) s.dropRun r.ops && answersWell s.cfg r && contractMet s e r

/-- The MMU answers a request as it may: a cause, if one, is a page-fault, access-fault or misaligned one (42_engine R152). -/
def mmuAnswerOk : MmuAnswer → Bool
  | .resolve _ _ => true
  | .raise cause => mayRaise .aMmu cause

/-- The next invocation of `e` conforms: by its script, or as the MMU's function, which raises for a request only what an MMU
may. -/
def State.nextConforms (s : State) (raw : BitVec 32) (e : ExtAction) : Bool :=
  match s.mmuOf e with
  | none => conforms s raw e s.nextRun
  | some m => s.xp.state != .requested || mmuAnswerOk (mmuAnswer m s.mmuKey)

/-- The operation is not ENG.RUN_GROUP or ENG.RESUME, which the model stops on (log entry 12). -/
def noEngine (o : ActionOp) : Bool := issuesOnly (fun i => !isEngineOp i) o

/-- Every operation of every invocation waiting, and of the idle one, satisfies `p`. -/
def State.scriptsAll (s : State) (p : ActionOp → Bool) : Bool :=
  s.script.all (fun r => r.ops.all p) && s.idle.ops.all p

/-- The operation writes memory. -/
def writesMem (o : ActionOp) : Bool :=
  match o with
  | .memWrite _ _ _ => true
  | .issue _ _ _ _ _ => false
  | .setNextPc _ => false
  | .setPriv _ => false
  | .setVirt _ => false
  | .setXlateMode _ => false
  | .setInst _ _ _ _ => false
  | .memRead _ _ => false

/-! ### Runs of Actions -/

/-- The state after a list of Actions that all answer Continue; none if one does not (42_engine R136). -/
def runThrough (s : State) : List Action → Option State
  | [] => some s
  | a :: as =>
    match invoke a s with
    | .ok t .continue => runThrough t as
    | .ok _ (.transfer _) => none
    | .ok _ .pause => none
    | .fatal _ _ => none
    | .fault _ => none

/-- The Engine operation `i` runs a group from state `s`: it starts in `s0` at Action number `k` of group `g`, whose Actions
from there on are `as` (42_engine R141 for ENG.RUN_GROUP, R147 for ENG.RESUME). -/
structure EngineStarts (i : Instr) (s s0 : State) (g k : Nat) (grp : Group) (as : List Action) : Prop where
  safe  : s.fatal = none
  next  : s.eng.next = some g
  group : s.cfg.graph[g]? = some grp
  acts  : as = (s.groupActions grp).drop k
  entry : (i = .engRunGroup ∧ s.eng.paused = false ∧ s0 = s ∧ k = 0) ∨
    (i = .engResume ∧ s.eng.paused = true ∧ k = s.eng.cursor ∧
      s0 = { s with eng := { s.eng with paused := false, cursor := 0 } })

/-- A state in which TRAP.DELIVER finds every CSR and field it names, in the default table (10_state R26), with nothing
latched and the invariant true. -/
structure TrapReady (s : State) : Prop where
  safe  : s.fatal = none
  table : s.cfg.csrTab = Reference.csrTab s.cfg.xlen
  inv   : s.inv = true

/-- Exactly the cause `c` is pending, of the class that `isIntr` says (10_state R30). -/
def PendingOnly (s : State) (isIntr : Bool) (c : Nat) : Prop :=
  s.trap.pendFault = (if isIntr then none else some c) ∧ s.trap.pendIntr = (if isIntr then some c else none)

end Sys2Proof.Machine
end

