-- ==== Sys2Proof/Certificates/Slice0/Obligations.lean ====
section
/-!
DEFINITION. The statements for the provers. Each is written from the rules its docstring names; where a statement rests on a
choice of the model, its docstring names the log entry.
-/

open Sys2Proof Sys2Proof.Machine

/-! ## Encoding -/

/-- Decoding the command word of any well-formed operation gives the operation back, every operand at every value its field
admits (30_encoding R72, R73). -/
def Obligations.DecodeInvertsEncode : Prop :=
  ∀ i : Instr, i.wf = true → decode (encode i) = .ok i

/-- A word that decodes is the command word of what it decodes to, and that is well formed: no bit is dropped
(30_encoding R73). -/
def Obligations.EncodeInvertsDecode : Prop :=
  ∀ (cw : CmdWord) (i : Instr), decode cw = .ok i → encode i = cw ∧ i.wf = true

/-- 30_encoding R77: a word selects the row whose match it has under the row's mask; no two rows match the same word; the
match values are `op << 24`, with the class bits set in format F. -/
def Obligations.DecodeSelectsTheMatchingRow : Prop :=
  (∀ (cw : CmdWord) (i : Instr), decode cw = .ok i → cw &&& i.rowMask = i.rowMatch) ∧
  (∀ (cw : CmdWord) (i : Instr), cw &&& i.rowMask = i.rowMatch → ∃ j, decode cw = .ok j ∧ j.op = i.op) ∧
  (∀ (cw : CmdWord) (i j : Instr), cw &&& i.rowMask = i.rowMatch → cw &&& j.rowMask = j.rowMatch → i.op = j.op) ∧
  (∀ c n, (Instr.rfRead c n).rowMask = 0xFF0003FF#32 ∧ (Instr.rfWrite c n).rowMask = 0xFF0003FF#32 ∧
    (Instr.rfReadDirect c n).rowMask = 0xFF0003FF#32 ∧ (Instr.rfWriteDirect c n).rowMask = 0xFF0003FF#32) ∧
  (∀ n k, (Instr.csrFieldRead n k).rowMask = 0xFFC0000F#32 ∧ (Instr.csrFieldWrite n k).rowMask = 0xFFC0000F#32) ∧
  (∀ n, (Instr.trapSetFault n).rowMask = 0xFFC003FF#32 ∧ (Instr.trapSetInterrupt n).rowMask = 0xFFC003FF#32) ∧
  (∀ i ∈ [Instr.engRunGroup, .engResume, .xltRequest, .xltResolve, .xltResult, .xltPopResult, .trapDeliver],
    i.rowMask = 0xFFFFFFFF#32) ∧
  (∀ i : Instr, i.rowMatch = (i.op.setWidth 32 <<< 24) |||
    (match i with
     | .csrFieldRead _ _ => 0x00C00000#32
     | .csrFieldWrite _ _ => 0x00C00000#32
     | _ => 0#32))

/-- The words that 95_test_vectors writes out decode as it says (T-ENC-1 to T-ENC-11 and the command words of parts 1 and 2):
one per format and family, and the reserved ones refused. -/
def Obligations.DecodeReadsTheSpecsWords : Prop :=
  decode 0x01008000#32 = .ok (.rfRead .int 32) ∧
  decode 0x02001400#32 = .ok (.rfWrite .int 5) ∧
  decode 0x02CC0000#32 = .ok (.rfWrite .csr 0x300) ∧
  decode 0x01807C00#32 = .ok (.rfRead .vec 31) ∧
  decode 0x02400000#32 = .ok (.rfWrite .fp 0) ∧
  decode 0x03000000#32 = .ok (.rfReadDirect .int 0) ∧
  decode 0x04DF0000#32 = .ok (.rfWriteDirect .csr 0x7C0) ∧
  decode 0x10CC0050#32 = .ok (.csrFieldRead 0x300 5) ∧
  decode 0x11CC0070#32 = .ok (.csrFieldWrite 0x300 7) ∧
  decode 0x20000000#32 = .ok .engRunGroup ∧
  decode 0x21000000#32 = .ok .engResume ∧
  decode 0x30000000#32 = .ok .xltRequest ∧
  decode 0x31000000#32 = .ok .xltResolve ∧
  decode 0x32000000#32 = .ok .xltResult ∧
  decode 0x33000000#32 = .ok .xltPopResult ∧
  decode 0x40003400#32 = .ok (.trapSetFault 13) ∧
  decode 0x41001C00#32 = .ok (.trapSetInterrupt 7) ∧
  decode 0x42000000#32 = .ok .trapDeliver ∧
  (∀ cw ∈ [0x00000000#32, 0x05000000#32, 0x02001401#32, 0x10000000#32, 0x20000400#32, 0x01000010#32, 0x41400400#32],
    ∀ i, decode cw ≠ .ok i)

/-! ## The step -/

/-- A command waiting first on the port whose word decodes to `i` makes the step `exec i`, its operands on the buses, the rest
still waiting (30_encoding R70, R71). -/
def Obligations.StepRunsTheDecodedCommand : Prop :=
  ∀ (s : State) (c : Command) (rest : List Input) (i : Instr),
    s.inputs = .command c :: rest → decode c.cw = .ok i →
    step s = exec i { s with inputs := rest, bus := { c.bus with wdata := c.bus.wdata % 2 ^ s.cfg.dw } }

/-- 30_encoding R78: a word that matches no row ends in F_BAD_COMMAND and changes nothing else; a register index above 31 and
a cause outside its enumeration match their rows and are refused by the operation. -/
def Obligations.ReservedWordsAreFatal : Prop :=
  (∀ (s : State) (c : Command) (rest : List Input),
    s.fatal = none → s.inputs = .command c :: rest → (∀ i : Instr, c.cw &&& i.rowMask ≠ i.rowMatch) →
    step s = .next { s with
      inputs := rest
      bus := { c.bus with wdata := c.bus.wdata % 2 ^ s.cfg.dw }
      fatal := some .badCommand
      resp := ⟨true, 9, 0, 0, 0, 0⟩ }) ∧
  (∀ (s : State) (cls : RegClass) (n : Nat), s.fatal = none → cls ≠ .csr → 31 < n → n < 4096 →
    ∀ i ∈ [Instr.rfRead cls n, .rfWrite cls n, .rfReadDirect cls n, .rfWriteDirect cls n],
      encode i &&& i.rowMask = i.rowMatch ∧
      exec i s = .next { s with fatal := some .badRegIndex, resp := ⟨true, 8, 0, 0, 0, 0⟩ }) ∧
  (∀ (s : State) (n : Nat), s.fatal = none → n < 4096 →
    (s.cfg.isFaultCode n = false →
      encode (.trapSetFault n) &&& (Instr.trapSetFault n).rowMask = (Instr.trapSetFault n).rowMatch ∧
      exec (.trapSetFault n) s = .next { s with fatal := some .badCause, resp := ⟨true, 10, 0, 0, 0, 0⟩ }) ∧
    (s.cfg.isIntrCode n = false →
      encode (.trapSetInterrupt n) &&& (Instr.trapSetInterrupt n).rowMask = (Instr.trapSetInterrupt n).rowMatch ∧
      exec (.trapSetInterrupt n) s = .next { s with fatal := some .badCause, resp := ⟨true, 10, 0, 0, 0, 0⟩ }))

/-- The reset input (70_reset R230) puts every piece of the block's state at its reset value, whatever the state was (after
10_state R39); the reset of a configuration that fails the construction checks latches F_BAD_CONFIG (41_csr R111, 42_engine R139).
That the configuration, the waiting inputs, the scripts and the store stay as they are is the model's choice (log entry 8). -/
def Obligations.ResetInputResetsEverything : Prop :=
  ∀ (s : State) (rest : List Input), s.inputs = .reset :: rest →
    ∃ t, step s = .next t ∧
      t.intCell 0 = 0 ∧
      (s.cfg.ok = true → ∀ d ∈ s.cfg.csrTab, t.csr.get d.number = d.reset) ∧
      t.csr.map Prod.fst = s.cfg.csrTab.map CsrDesc.number ∧
      t.pc = BitVec.ofNat 64 (s.cfg.resetPc.toNat % 2 ^ s.cfg.xlen.bits) ∧ t.nextPc = t.pc ∧
      t.priv = .machine ∧ t.virt = false ∧
      t.trap = ⟨none, none, 0, 0, 0⟩ ∧
      t.xp.state = .idle ∧
      t.eng = ⟨some s.cfg.entry, 0, false⟩ ∧
      t.curInst.actions = [] ∧
      t.xlateMode = s.cfg.xlateMode .machine false t.csr ∧
      t.fatal = (if s.cfg.ok then none else some .badConfig) ∧
      t.cfg = s.cfg ∧ t.inputs = rest ∧ t.script = s.script ∧ t.idle = s.idle ∧ t.mem = s.mem

/-! ## Fatals -/

/-- Once a code is latched, every operation answers FATAL with that code and writes nothing else (00_scope R7, T-ENC-12). -/
def Obligations.LatchedFatalAnswersItsCode : Prop :=
  ∀ (s : State) (c : FatalCode), s.fatal = some c →
    ∀ i : Instr, exec i s = .next { s with resp := ⟨true, c.code, 0, 0, 0, 0⟩ }

/-- Only the reset input clears the latch: any other step from a state with a fatal latched leaves everything but the port as
it was (00_scope R7, 10_state R38, 70_reset R230). -/
def Obligations.OnlyResetClearsTheLatch : Prop :=
  ∀ (s t : State) (c : FatalCode), s.fatal = some c → (∀ rest, s.inputs ≠ .reset :: rest) → step s = .next t →
    t = { s with inputs := s.inputs.tail, bus := t.bus, resp := t.resp }

/-- An operation other than the Engine's two that ends in FATAL writes nothing but the latch and its answer (00_scope R7). -/
def Obligations.FatalCommandWritesOnlyTheLatch : Prop :=
  ∀ (s t : State) (i : Instr), isEngineOp i = false → s.fatal = none → exec i s = .next t → t.resp.status = true →
    ∃ c : FatalCode, t = { s with fatal := some c, resp := ⟨true, c.code, 0, 0, 0, 0⟩ }

/-! ## Register File -/

/-- RF.READ and RF.READ_DIRECT answer the register and change nothing (40_regfile R91, R92, R95): the zero of integer
register 0, every integer, floating-point and vector register, and every CSR of the table raw. -/
def Obligations.ReadsAnswerTheRegister : Prop :=
  ∀ s : State, s.fatal = none →
    ∀ op ∈ [Instr.rfRead, Instr.rfReadDirect],
      exec (op .int 0) s = .next { s with resp := ⟨false, 0, 0, 0, 0, 0⟩ } ∧
      (∀ i : Fin 31, exec (op .int (i + 1)) s = .next { s with resp := ⟨false, 0, (s.x[i]).toNat, 0, 0, 0⟩ }) ∧
      (∀ i : Fin 32, exec (op .fp i) s = .next { s with resp := ⟨false, 0, s.f[i], 0, 0, 0⟩ }) ∧
      (∀ i : Fin 32, exec (op .vec i) s = .next { s with resp := ⟨false, 0, s.v[i], 0, 0, 0⟩ }) ∧
      (∀ (n : Nat) (d : CsrDesc), s.cfg.desc n = some d →
        exec (op .csr n) s = .next { s with resp := ⟨false, 0, (s.csr.get n).toNat, 0, 0, 0⟩ })

/-- 10_state R21: every read of integer register 0 answers zero, every write to it on either path is OK and changes nothing;
`f[0]`, `v[0]` and the CSR numbered 0, where the table has it, are ordinary cells. -/
def Obligations.ZeroRegisterGuard : Prop :=
  ∀ s : State, s.fatal = none →
    (∀ op ∈ [Instr.rfRead, Instr.rfReadDirect],
      exec (op .int 0) s = .next { s with resp := ⟨false, 0, 0, 0, 0, 0⟩ }) ∧
    (∀ op ∈ [Instr.rfWrite, Instr.rfWriteDirect],
      exec (op .int 0) s = .next { s with resp := ⟨false, 0, 0, 0, 0, 0⟩ } ∧
      (∃ t r, exec (op .fp 0) s = .next t ∧ exec (.rfRead .fp 0) t = .next r ∧
        r.resp.rdata = s.bus.wdata % 2 ^ s.cfg.flen) ∧
      (∃ t r, exec (op .vec 0) s = .next t ∧ exec (.rfRead .vec 0) t = .next r ∧
        r.resp.rdata = s.bus.wdata % 2 ^ s.cfg.vlen)) ∧
    (∀ d, s.cfg.desc 0 = some d →
      ∃ t r, exec (.rfWriteDirect .csr 0) s = .next t ∧ exec (.rfRead .csr 0) t = .next r ∧
        r.resp.rdata = s.bus.wdata % 2 ^ s.cfg.xlen.bits)

/-- RF.WRITE and RF.WRITE_DIRECT store the low XLEN, FLEN or VLEN bits of `wdata` in the one register named and change nothing
else (40_regfile R90, R93, R97). -/
def Obligations.WritesStoreTheLowBits : Prop :=
  ∀ s : State, s.fatal = none →
    ∀ op ∈ [Instr.rfWrite, Instr.rfWriteDirect],
      (∀ i : Fin 31, exec (op .int (i + 1)) s = .next { s with
        x := s.x.set i (BitVec.ofNat 64 (s.bus.wdata % 2 ^ s.cfg.xlen.bits)), resp := ⟨false, 0, 0, 0, 0, 0⟩ }) ∧
      (∀ i : Fin 32, exec (op .fp i) s = .next { s with
        f := s.f.set i (s.bus.wdata % 2 ^ s.cfg.flen), resp := ⟨false, 0, 0, 0, 0, 0⟩ }) ∧
      (∀ i : Fin 32, exec (op .vec i) s = .next { s with
        v := s.v.set i (s.bus.wdata % 2 ^ s.cfg.vlen), resp := ⟨false, 0, 0, 0, 0, 0⟩ })

/-- RF.WRITE_DIRECT of a CSR stores every bit, those the mask protects too, in that CSR alone (40_regfile R96, R97). -/
def Obligations.DirectCsrWriteBypassesTheMask : Prop :=
  ∀ (s : State) (n : Nat) (d : CsrDesc), s.fatal = none → s.cfg.desc n = some d →
    ∃ t, exec (.rfWriteDirect .csr n) s = .next t ∧ t.resp = ⟨false, 0, 0, 0, 0, 0⟩ ∧
      t.csr.get n = BitVec.ofNat 64 (s.bus.wdata % 2 ^ s.cfg.xlen.bits) ∧ OtherCsrsKept s t n ∧ SameButCsr s t

/-! ## CSR Registry -/

/-- 41_csr R112: the masked write, in the document's two branches, and its frame (40_regfile R94). -/
def Obligations.MaskedCsrWrite : Prop :=
  ∀ (s : State) (n : Nat) (d : CsrDesc) (v : Word), s.fatal = none → s.inv = true → s.cfg.desc n = some d →
    v = BitVec.ofNat 64 (s.bus.wdata % 2 ^ s.cfg.xlen.bits) →
    ∃ t, exec (.rfWrite .csr n) s = .next t ∧ t.resp = ⟨false, 0, 0, 0, 0, 0⟩ ∧
      t.csr.get n =
        (if d.mask = BitVec.ofNat 64 (2 ^ s.cfg.xlen.bits - 1) then v
         else (s.csr.get n &&& ~~~d.mask) ||| (v &&& d.mask)) ∧
      (s.csr.get n &&& ~~~d.mask) ||| (v &&& d.mask) = t.csr.get n ∧
      OtherCsrsKept s t n ∧ SameButCsr s t

/-- 41_csr R114: what a read answers after a masked write; two writes compose and the first is lost; a write repeated changes
nothing; writing back what a read gave changes nothing. -/
def Obligations.MaskedWriteLaws : Prop :=
  ∀ (s : State) (n : Nat) (d : CsrDesc) (a b : Wide), s.fatal = none → s.inv = true → s.cfg.desc n = some d →
    ∃ t r u w,
      exec (.rfWrite .csr n) { s with bus := { s.bus with wdata := a } } = .next t ∧
      exec (.rfRead .csr n) t = .next r ∧
      r.resp.rdata = ((s.csr.get n &&& ~~~d.mask) |||
        (BitVec.ofNat 64 (a % 2 ^ s.cfg.xlen.bits) &&& d.mask)).toNat ∧
      (d.mask = BitVec.ofNat 64 (2 ^ s.cfg.xlen.bits - 1) → r.resp.rdata = a % 2 ^ s.cfg.xlen.bits) ∧
      exec (.rfWrite .csr n) { t with bus := { t.bus with wdata := b } } = .next u ∧
      u.csr.get n = (s.csr.get n &&& ~~~d.mask) ||| (BitVec.ofNat 64 (b % 2 ^ s.cfg.xlen.bits) &&& d.mask) ∧
      (a = b → u.csr.get n = t.csr.get n) ∧
      exec (.rfWrite .csr n) { s with bus := { s.bus with wdata := (s.csr.get n).toNat } } = .next w ∧
      w.csr.get n = s.csr.get n

/-- CSR.FIELD_READ answers the bits low to high of the raw CSR and changes nothing (41_csr R116, R117). -/
def Obligations.FieldReadAnswersItsBits : Prop :=
  ∀ (s : State) (n fid : Nat) (d : CsrDesc) (f : CsrField), s.fatal = none →
    s.cfg.desc n = some d → d.fields[fid]? = some f →
    exec (.csrFieldRead n fid) s =
      .next { s with resp := ⟨false, 0, (s.csr.get n).toNat / 2 ^ f.low % 2 ^ (f.high - f.low + 1), 0, 0, 0⟩ }

/-- CSR.FIELD_WRITE changes exactly the bits that are in the field and writable, to the value's bits counted from the field's
low end; the value is cut to the field (41_csr R118, R119, 90_conflicts C2). -/
def Obligations.FieldWriteChangesItsWritableBits : Prop :=
  ∀ (s : State) (n fid : Nat) (d : CsrDesc) (f : CsrField), s.fatal = none → s.cfg.ok = true →
    s.cfg.desc n = some d → d.fields[fid]? = some f →
    ∃ t, exec (.csrFieldWrite n fid) s = .next t ∧ t.resp = ⟨false, 0, 0, 0, 0, 0⟩ ∧
      (∀ k, (t.csr.get n).getLsbD k =
        if f.low ≤ k ∧ k ≤ f.high ∧ d.mask.getLsbD k = true then s.bus.wdata.testBit (k - f.low)
        else (s.csr.get n).getLsbD k) ∧
      OtherCsrsKept s t n ∧ SameButCsr s t

/-- 41_csr R120: the field round trip. In general the read-back mixes old and new bits by the mask; it gives the value cut to
the field exactly when every bit of the field is writable; bits outside the field never change. -/
def Obligations.FieldRoundTrip : Prop :=
  ∀ (s : State) (n fid : Nat) (d : CsrDesc) (f : CsrField), s.fatal = none → s.cfg.ok = true →
    s.cfg.desc n = some d → d.fields[fid]? = some f →
    (∃ t r, exec (.csrFieldWrite n fid) s = .next t ∧ exec (.csrFieldRead n fid) t = .next r ∧
      r.resp.rdata =
        ((((s.csr.get n >>> f.low) &&& ~~~(d.mask >>> f.low)) |||
          (BitVec.ofNat 64 (s.bus.wdata % 2 ^ (f.high - f.low + 1)) &&& (d.mask >>> f.low))) &&&
          BitVec.ofNat 64 (2 ^ (f.high - f.low + 1) - 1)).toNat ∧
      ((∀ k, f.low ≤ k → k ≤ f.high → d.mask.getLsbD k = true) →
        r.resp.rdata = s.bus.wdata % 2 ^ (f.high - f.low + 1)) ∧
      (∀ k, (k < f.low ∨ f.high < k) → (t.csr.get n).getLsbD k = (s.csr.get n).getLsbD k)) ∧
    (∀ k, f.low ≤ k → k ≤ f.high → d.mask.getLsbD k = false →
      ∃ (a : Wide) (t r : State), exec (.csrFieldWrite n fid) { s with bus := { s.bus with wdata := a } } = .next t ∧
        exec (.csrFieldRead n fid) t = .next r ∧ r.resp.rdata ≠ a % 2 ^ (f.high - f.low + 1))

/-- 41_csr R122: a CSR number outside the table is F_UNKNOWN_CSR for each of the six operations that name one, a field id
outside the descriptor F_UNKNOWN_FIELD, and neither changes anything but the latch. -/
def Obligations.LookupMissesAreFatal : Prop :=
  ∀ s : State, s.fatal = none →
    (∀ n, s.cfg.desc n = none →
      ∀ i ∈ [Instr.rfRead .csr n, .rfWrite .csr n, .rfReadDirect .csr n, .rfWriteDirect .csr n],
        exec i s = .next { s with fatal := some .unknownCsr, resp := ⟨true, 1, 0, 0, 0, 0⟩ }) ∧
    (∀ n fid, s.cfg.desc n = none →
      ∀ i ∈ [Instr.csrFieldRead n fid, .csrFieldWrite n fid],
        exec i s = .next { s with fatal := some .unknownCsr, resp := ⟨true, 1, 0, 0, 0, 0⟩ }) ∧
    (∀ n fid d, s.cfg.desc n = some d → d.fields.length ≤ fid →
      ∀ i ∈ [Instr.csrFieldRead n fid, .csrFieldWrite n fid],
        exec i s = .next { s with fatal := some .unknownField, resp := ⟨true, 2, 0, 0, 0, 0⟩ })

/-! ## Translation Port -/

/-- The port's state machine (43_xlate R161), every state under every operation; what each transition stores and answers is
that of R162, R164, R167 and R169. That a transition keeps the data cells its rule does not list, in states in which 10_state R32
calls them unspecified, is the model's reading (DEDUCED, log entry 29). -/
def Obligations.TranslationPortMachine : Prop :=
  ∀ s : State, s.fatal = none →
    (s.xp.state = .idle →
      exec .xltRequest s = .next { s with
        xp := ⟨.requested, s.bus.arg0, BitVec.ofNat 8 s.bus.arg1.toNat, s.xp.paddr, s.xp.misalign⟩
        resp := ⟨false, 0, 0, 0, 0, 0⟩ } ∧
      exec .xltResolve s = .next { s with fatal := some .xltBadResolve, resp := ⟨true, 12, 0, 0, 0, 0⟩ } ∧
      exec .xltResult s = .next { s with fatal := some .xltNoResult, resp := ⟨true, 6, 0, 0, 0, 0⟩ } ∧
      exec .xltPopResult s = .next { s with fatal := some .xltNoResult, resp := ⟨true, 6, 0, 0, 0, 0⟩ }) ∧
    (s.xp.state = .requested →
      exec .xltRequest s = .next { s with fatal := some .xltBusy, resp := ⟨true, 5, 0, 0, 0, 0⟩ } ∧
      exec .xltResolve s = .next { s with
        xp := ⟨.resolved, s.xp.vaddr, s.xp.size, s.bus.arg0, s.bus.arg1⟩, resp := ⟨false, 0, 0, 0, 0, 0⟩ } ∧
      exec .xltResult s = .next { s with fatal := some .xltNoResult, resp := ⟨true, 6, 0, 0, 0, 0⟩ } ∧
      exec .xltPopResult s = .next { s with fatal := some .xltNoResult, resp := ⟨true, 6, 0, 0, 0, 0⟩ }) ∧
    (s.xp.state = .resolved →
      exec .xltRequest s = .next { s with fatal := some .xltBusy, resp := ⟨true, 5, 0, 0, 0, 0⟩ } ∧
      exec .xltResolve s = .next { s with fatal := some .xltBadResolve, resp := ⟨true, 12, 0, 0, 0, 0⟩ } ∧
      exec .xltResult s = .next { s with resp := ⟨false, 0, 0, s.xp.paddr, s.xp.vaddr, s.xp.misalign⟩ } ∧
      exec .xltPopResult s = .next { s with
        xp := { s.xp with state := .idle }
        resp := ⟨false, 0, 0, s.xp.paddr, s.xp.vaddr, s.xp.misalign⟩ })

/-- 43_xlate R170: request, resolve, pop returns the triple once and ends IDLE; a further pop is F_XLT_NO_RESULT. -/
def Obligations.PopReturnsTheResultOnce : Prop :=
  ∀ (s : State) (va pa mi sz : Word), s.fatal = none → s.xp.state = .idle →
    ∃ t u w, exec .xltRequest { s with bus := { s.bus with arg0 := va, arg1 := sz } } = .next t ∧
      exec .xltResolve { t with bus := { t.bus with arg0 := pa, arg1 := mi } } = .next u ∧
      exec .xltPopResult u = .next w ∧ w.resp = ⟨false, 0, 0, pa, va, mi⟩ ∧ w.xp.state = .idle ∧ w.fatal = none ∧
      exec .xltPopResult w = .next { w with fatal := some .xltNoResult, resp := ⟨true, 6, 0, 0, 0, 0⟩ }

/-! ## Exception/Interrupt Unit -/

/-- TRAP.SET_FAULT (after 44_trap_ops R181) on an empty slot records the cause and the low XLEN bits of its three operands, and
nothing else; on a full slot, or with a code outside the enumeration, it is fatal. -/
def Obligations.SetFaultRecordsTheCause : Prop :=
  ∀ (s : State) (c : Nat), s.fatal = none →
    (s.cfg.isFaultCode c = true → s.trap.pendFault = none → s.trap.pendIntr = none →
      exec (.trapSetFault c) s = .next { s with
        trap := ⟨some c, none, BitVec.ofNat 64 (s.bus.arg0.toNat % 2 ^ s.cfg.xlen.bits),
          BitVec.ofNat 64 (s.bus.arg1.toNat % 2 ^ s.cfg.xlen.bits),
          BitVec.ofNat 64 (s.bus.arg2.toNat % 2 ^ s.cfg.xlen.bits)⟩
        resp := ⟨false, 0, 0, 0, 0, 0⟩ }) ∧
    (s.cfg.isFaultCode c = false →
      exec (.trapSetFault c) s = .next { s with fatal := some .badCause, resp := ⟨true, 10, 0, 0, 0, 0⟩ }) ∧
    (s.cfg.isFaultCode c = true → s.trap.pendIntr ≠ none →
      exec (.trapSetFault c) s = .next { s with fatal := some .bothPending, resp := ⟨true, 3, 0, 0, 0, 0⟩ }) ∧
    (s.cfg.isFaultCode c = true → s.trap.pendIntr = none → s.trap.pendFault ≠ none →
      exec (.trapSetFault c) s = .next { s with fatal := some .slotOccupied, resp := ⟨true, 11, 0, 0, 0, 0⟩ })

/-- TRAP.SET_INTERRUPT (after 44_trap_ops R183) on an empty slot records the cause and zeroes the latch; otherwise it is fatal. -/
def Obligations.SetInterruptRecordsTheCause : Prop :=
  ∀ (s : State) (c : Nat), s.fatal = none →
    (s.cfg.isIntrCode c = true → s.trap.pendFault = none → s.trap.pendIntr = none →
      exec (.trapSetInterrupt c) s = .next { s with
        trap := ⟨none, some c, 0, 0, 0⟩, resp := ⟨false, 0, 0, 0, 0, 0⟩ }) ∧
    (s.cfg.isIntrCode c = false →
      exec (.trapSetInterrupt c) s = .next { s with fatal := some .badCause, resp := ⟨true, 10, 0, 0, 0, 0⟩ }) ∧
    (s.cfg.isIntrCode c = true → s.trap.pendFault ≠ none →
      exec (.trapSetInterrupt c) s = .next { s with fatal := some .bothPending, resp := ⟨true, 3, 0, 0, 0, 0⟩ }) ∧
    (s.cfg.isIntrCode c = true → s.trap.pendFault = none → s.trap.pendIntr ≠ none →
      exec (.trapSetInterrupt c) s = .next { s with fatal := some .slotOccupied, resp := ⟨true, 11, 0, 0, 0, 0⟩ })

/-- TRAP.DELIVER (after 44_trap_ops R185) with neither or both causes pending is fatal and changes nothing else. -/
def Obligations.DeliverNeedsExactlyOneCause : Prop :=
  ∀ s : State, s.fatal = none →
    (s.trap.pendFault = none → s.trap.pendIntr = none →
      exec .trapDeliver s = .next { s with fatal := some .nonePending, resp := ⟨true, 4, 0, 0, 0, 0⟩ }) ∧
    (s.trap.pendFault ≠ none → s.trap.pendIntr ≠ none →
      exec .trapDeliver s = .next { s with fatal := some .bothPending, resp := ⟨true, 3, 0, 0, 0, 0⟩ })

/-- 10_state R26, 60_exceptions R207: a table that lacks a CSR delivery names makes delivery end in F_UNKNOWN_CSR with no other
change; that the names of both levels are looked up first is the model's choice (log entry 14). -/
def Obligations.DeliverNeedsEveryNamedCsr : Prop :=
  ∀ (s : State) (isIntr : Bool) (c : Nat) (nm : CsrName), s.fatal = none → PendingOnly s isIntr c →
    (nm ∈ [CsrName.medeleg, .mideleg, .mtvec, .mepc, .mcause, .mtval, .stvec, .sepc, .scause, .stval, .mstatus] ∨
      (s.cfg.xlen = .rv32 ∧ nm = .mstatush)) →
    s.cfg.descNamed nm = none →
    exec .trapDeliver s = .next { s with fatal := some .unknownCsr, resp := ⟨true, 1, 0, 0, 0, 0⟩ }

/-- The delivery sequence to MACHINE (60_exceptions R194, R197, R200 to R204, R206, R208 to R210) on the default table, at both
widths: every value written, and that nothing else changes. -/
def Obligations.DeliveryToMachine : Prop :=
  ∀ (s : State) (isIntr : Bool) (c : Nat), TrapReady s → PendingOnly s isIntr c → c < 32 →
    (s.csr.get (if isIntr then 0x303 else 0x302)).getLsbD c = false →
    ∃ t, exec .trapDeliver s = .next t ∧
      t.nextPc = s.csr.get 0x305 &&& 0xFFFFFFFFFFFFFFFE#64 ∧
      t.csr.get 0x341 = s.pc ∧
      t.csr.get 0x342 = BitVec.ofNat 64 (c + (if isIntr then 2 ^ (s.cfg.xlen.bits - 1) else 0)) ∧
      t.csr.get 0x343 =
        (if isIntr then 0
         else match s.cfg.faultClass c with
          | .fetch => BitVec.ofNat 64 ((s.trap.tiVaddr.toNat + s.trap.tiMisalign.toNat) % 2 ^ s.cfg.xlen.bits)
          | .loadStore => s.trap.tiVaddr
          | .illegal => s.trap.tiOpcode
          | .zero => 0) ∧
      (∀ k, (t.csr.get 0x300).getLsbD k =
        if k = 7 then (s.csr.get 0x300).getLsbD 3
        else if k = 3 then false
        else if k = 11 then decide (s.priv ≠ .user)
        else if k = 12 then decide (s.priv = .machine)
        else if s.cfg.xlen = .rv64 ∧ (k = 38 ∨ k = 39) then false
        else (s.csr.get 0x300).getLsbD k) ∧
      (s.cfg.xlen = .rv32 → ∀ k, (t.csr.get 0x310).getLsbD k =
        if k = 6 ∨ k = 7 then false else (s.csr.get 0x310).getLsbD k) ∧
      (∀ n, n ∉ [0x300, 0x341, 0x342, 0x343] → (s.cfg.xlen = .rv32 → n ≠ 0x310) → t.csr.get n = s.csr.get n) ∧
      t.priv = .machine ∧ t.virt = false ∧ t.xlateMode = s.cfg.xlateMode .machine false t.csr ∧
      t.trap = ⟨none, none, 0, 0, 0⟩ ∧ t.resp = ⟨false, 0, 0, 0, 0, 0⟩ ∧
      t = { s with nextPc := t.nextPc, csr := t.csr, priv := t.priv, virt := t.virt, xlateMode := t.xlateMode,
                   trap := t.trap, resp := t.resp }

/-- The delivery sequence to SUPERVISOR (60_exceptions R194, R197, R200 to R203, R205, R208 to R210) on the default table, at
both widths: every value written, and that nothing else changes; `spp` gets the low bit of the encoding. -/
def Obligations.DeliveryToSupervisor : Prop :=
  ∀ (s : State) (isIntr : Bool) (c : Nat), TrapReady s → PendingOnly s isIntr c → c < 32 →
    (s.csr.get (if isIntr then 0x303 else 0x302)).getLsbD c = true →
    ∃ t, exec .trapDeliver s = .next t ∧
      t.nextPc = s.csr.get 0x105 &&& 0xFFFFFFFFFFFFFFFE#64 ∧
      t.csr.get 0x141 = s.pc ∧
      t.csr.get 0x142 = BitVec.ofNat 64 (c + (if isIntr then 2 ^ (s.cfg.xlen.bits - 1) else 0)) ∧
      t.csr.get 0x143 =
        (if isIntr then 0
         else match s.cfg.faultClass c with
          | .fetch => BitVec.ofNat 64 ((s.trap.tiVaddr.toNat + s.trap.tiMisalign.toNat) % 2 ^ s.cfg.xlen.bits)
          | .loadStore => s.trap.tiVaddr
          | .illegal => s.trap.tiOpcode
          | .zero => 0) ∧
      (∀ k, (t.csr.get 0x300).getLsbD k =
        if k = 5 then (s.csr.get 0x300).getLsbD 1
        else if k = 1 then false
        else if k = 8 then decide (s.priv ≠ .user)
        else (s.csr.get 0x300).getLsbD k) ∧
      (∀ n, n ∉ [0x300, 0x141, 0x142, 0x143] → t.csr.get n = s.csr.get n) ∧
      t.priv = .supervisor ∧ t.virt = false ∧ t.xlateMode = s.cfg.xlateMode .supervisor false t.csr ∧
      t.trap = ⟨none, none, 0, 0, 0⟩ ∧ t.resp = ⟨false, 0, 0, 0, 0, 0⟩ ∧
      t = { s with nextPc := t.nextPc, csr := t.csr, priv := t.priv, virt := t.virt, xlateMode := t.xlateMode,
                   trap := t.trap, resp := t.resp }

/-- 60_exceptions R195, R196: the delegation bit of the cause, in MIDELEG or MEDELEG of whatever table, decides the target, and
the current privilege does not. -/
def Obligations.DelegationBitDecidesTheTarget : Prop :=
  ∀ (s t : State) (isIntr : Bool) (c : Nat) (d : CsrDesc), s.fatal = none → PendingOnly s isIntr c →
    s.cfg.descNamed (if isIntr then .mideleg else .medeleg) = some d →
    exec .trapDeliver s = .next t → t.resp.status = false →
    t.priv = (if (s.csr.get d.number).getLsbD c then .supervisor else .machine)

/-- 60_exceptions R198, R199 (the codes are R190's): the trap value that each fault code, and an interrupt, leaves in the
TVAL CSR of the target, in the default table. -/
def Obligations.TrapValueByCause : Prop :=
  ∀ (s : State) (c : Nat), TrapReady s → s.cfg.faultCodes = Reference.faultCodes →
    (PendingOnly s false c →
      ∃ t, exec .trapDeliver s = .next t ∧ t.resp.status = false ∧
        (∀ tval : Word, tval = t.csr.get (if (s.csr.get 0x302).getLsbD c then 0x143 else 0x343) →
          (c ∈ [0, 1, 12] →
            tval = BitVec.ofNat 64 ((s.trap.tiVaddr.toNat + s.trap.tiMisalign.toNat) % 2 ^ s.cfg.xlen.bits)) ∧
          (c ∈ [4, 5, 6, 7, 13, 15] → tval = s.trap.tiVaddr) ∧
          (c = 2 → tval = s.trap.tiOpcode) ∧
          (c ∈ [3, 8, 9, 10, 11, 18, 19] → tval = 0))) ∧
    (PendingOnly s true c →
      ∃ t, exec .trapDeliver s = .next t ∧ t.resp.status = false ∧
        t.csr.get (if (s.csr.get 0x303).getLsbD c then 0x143 else 0x343) = 0)

/-- 60_exceptions R200: after any delivery `next_pc` is the target's TVEC with bit 0 cleared and every other bit kept, in
whatever table and for whatever cause; `pc` itself has not changed. -/
def Obligations.TrapEntryClearsOnlyBitZero : Prop :=
  ∀ (s t : State) (d : CsrDesc), s.fatal = none → exec .trapDeliver s = .next t → t.resp.status = false →
    s.cfg.descNamed (if t.priv = .supervisor then .stvec else .mtvec) = some d →
    t.nextPc.getLsbD 0 = false ∧ (∀ k, k ≠ 0 → t.nextPc.getLsbD k = (s.csr.get d.number).getLsbD k) ∧ t.pc = s.pc

/-- Delivery writes through the write masks (60_exceptions R207): a bit that a descriptor makes read-only is not changed by a
trap, in any table that passes the construction check. -/
def Obligations.DeliveryKeepsReadOnlyBits : Prop :=
  ∀ (s t : State) (d : CsrDesc) (k : Nat), s.cfg.ok = true → d ∈ s.cfg.csrTab → d.mask.getLsbD k = false →
    exec .trapDeliver s = .next t → (t.csr.get d.number).getLsbD k = (s.csr.get d.number).getLsbD k

/-! ## Engine -/

/-- A group whose Actions all continue runs each once, in order, and follows its static link; the answer names the group that
ran, the next one, and whether the chain is over (42_engine R136, R138, R141, R145, R147). -/
def Obligations.GroupRunsInOrderToItsLink : Prop :=
  ∀ (i : Instr) (s s0 t : State) (g k : Nat) (grp : Group) (as : List Action),
    EngineStarts i s s0 g k grp as → runThrough s0 as = some t →
    exec i s = .next { t with
      eng := { s0.eng with next := grp.next }
      resp := ⟨false, 0, 0, BitVec.ofNat 64 g, BitVec.ofNat 64 (grp.next.getD 0),
        match grp.next with
        | none => 4
        | some n => if s.cfg.isFetchGroup n then 1 else 0⟩ }

/-- A transfer ends the run at the Action that asks for it: the Actions after it are abandoned; the target is the next group if
GRAPH has it, and F_BAD_GROUP if not (42_engine R136, R137, R141). That the effects of the Actions before stand behind that
F_BAD_GROUP, and after ENG.RESUME paused = 0 and cursor 0, is the model's choice (DEDUCED, log entry 15). -/
def Obligations.TransferAbandonsTheRest : Prop :=
  ∀ (i : Instr) (s s0 t u : State) (g k n : Nat) (grp : Group) (before after : List Action) (a : Action),
    EngineStarts i s s0 g k grp (before ++ a :: after) → runThrough s0 before = some t →
    invoke a t = .ok u (.transfer n) →
    (n < s.cfg.graph.length →
      exec i s = .next { u with
        eng := { s0.eng with next := some n }
        resp := ⟨false, 0, 0, BitVec.ofNat 64 g, BitVec.ofNat 64 n, if s.cfg.isFetchGroup n then 1 else 0⟩ }) ∧
    (s.cfg.graph.length ≤ n →
      exec i s = .next { u with fatal := some .badGroup, resp := ⟨true, 13, 0, 0, 0, 0⟩ })

/-- A pause keeps the group as the next one and the number of the Action after the pausing one (42_engine R136, R146). -/
def Obligations.PauseKeepsTheNextAction : Prop :=
  ∀ (i : Instr) (s s0 t u : State) (g k : Nat) (grp : Group) (before after : List Action) (a : Action),
    EngineStarts i s s0 g k grp (before ++ a :: after) → runThrough s0 before = some t →
    invoke a t = .ok u .pause →
    exec i s = .next { u with
      eng := ⟨some g, k + before.length + 1, true⟩
      resp := ⟨false, 0, 0, BitVec.ofNat 64 g, BitVec.ofNat 64 g, 2⟩ }

/-- A fatal inside a group stops the run and latches its code; what the Actions before it did stands, and so does what the failing
Action did before the operation that was fatal (42_engine R141), which itself changes nothing but its answer on the internal port
(00_scope R7); `eng_next` keeps the group. That the failing Action does nothing further is the model's choice (log entry 30), and
so is that paused = 0 and cursor 0 stand behind a fatal of ENG.RESUME (log entry 15). -/
def Obligations.FatalInAGroupKeepsEarlierEffects : Prop :=
  ∀ (i : Instr) (s s0 t : State) (g k : Nat) (grp : Group) (before after : List Action) (a : Action),
    EngineStarts i s s0 g k grp (before ++ a :: after) → runThrough s0 before = some t →
    (∀ (u : State) (c : FatalCode), invoke a t = .fatal u c →
      exec i s = .next { u with fatal := some c, resp := ⟨true, c.code, 0, 0, 0, 0⟩ } ∧ u.eng = s0.eng) ∧
    (∀ (e : ExtAction) (done rest : List ActionOp) (o : ActionOp) (w u : State) (c : FatalCode),
      a.body = .external e → t.mmuOf e = none → t.nextRun.ops = done ++ o :: rest → runOps t.dropRun done = .ok w →
      runOp w o = .fatal u c →
      exec i s = .next { w with
        iresp := ⟨true, c.code, 0, 0, 0, 0⟩, fatal := some c, resp := ⟨true, c.code, 0, 0, 0, 0⟩ } ∧ w.eng = s0.eng)

/-- When ENG.RUN_GROUP and ENG.RESUME are refused: the hart paused, not paused, no group to run (42_engine R141, R147). -/
def Obligations.EngineRefusals : Prop :=
  ∀ s : State, s.fatal = none →
    (s.eng.paused = true →
      exec .engRunGroup s = .next { s with fatal := some .isPaused, resp := ⟨true, 14, 0, 0, 0, 0⟩ }) ∧
    (s.eng.paused = false → s.eng.next = none →
      exec .engRunGroup s = .next { s with fatal := some .badGroup, resp := ⟨true, 13, 0, 0, 0, 0⟩ }) ∧
    (s.eng.paused = false →
      exec .engResume s = .next { s with fatal := some .notPaused, resp := ⟨true, 15, 0, 0, 0, 0⟩ })

/-- Instruction assembly (42_engine R148, R149): the registered list, with A_MMU after a COMPUTE_ADDR Action of a pair; the
built-in `illegal` for an unregistered UNIMP (its tag is log entry 21); the missing-handler fatal; the port renewed; the
fall-through `next_pc`. That the renewed port keeps its data cells, which 10_state R32 calls unspecified, is the model's reading
(DEDUCED, log entry 29). -/
def Obligations.AssembleBuildsTheGroup : Prop :=
  ∀ (s : State) (tag : Tag),
    (∀ l, s.cfg.handlers.lookup s.curInst.mnemonic = some l →
      invoke ⟨tag, .assemble⟩ s = .ok { s with
        curInst := { s.curInst with
          actions :=
            match l with
            | [a, e] => if a.tag = .computeAddr then [a, ⟨.translate, .external .aMmu⟩, e] else [a, e]
            | l => l }
        xp := { s.xp with state := .idle }
        nextPc := BitVec.ofNat 64 ((s.pc.toNat + s.curInst.size) % 2 ^ s.cfg.xlen.bits) } .continue) ∧
    (s.cfg.handlers.lookup s.curInst.mnemonic = none → s.curInst.mnemonic = .unimp →
      ∃ illegalTag, invoke ⟨tag, .assemble⟩ s = .ok { s with
        curInst := { s.curInst with actions := [⟨illegalTag, .illegal⟩] }
        xp := { s.xp with state := .idle }
        nextPc := BitVec.ofNat 64 ((s.pc.toNat + s.curInst.size) % 2 ^ s.cfg.xlen.bits) } .continue) ∧
    (s.cfg.handlers.lookup s.curInst.mnemonic = none → s.curInst.mnemonic ≠ .unimp →
      invoke ⟨tag, .assemble⟩ s = .fatal s .missingHandler)

/-- The built-in `illegal` (after 42_engine R156) raises ILLEGAL_INST with the raw opcode and transfers to the exception group. -/
def Obligations.IllegalRaisesTheFault : Prop :=
  ∀ (s : State) (tag : Tag), s.cfg.isFaultCode 2 = true → s.trap.pendFault = none → s.trap.pendIntr = none →
    invoke ⟨tag, .illegal⟩ s = .ok { s with
      trap := ⟨some 2, none, 0, 0, BitVec.ofNat 64 s.curInst.opcode.toNat⟩
      iresp := ⟨false, 0, 0, 0, 0, 0⟩ } (.transfer s.cfg.exception)

/-- The finish group of the reference graph moves `next_pc` into `pc`, changes no register, CSR or mode, and retires
(42_engine R143, R145, R154). -/
def Obligations.FinishGroupCommitsThePc : Prop :=
  ∀ s : State, s.fatal = none → s.cfg.graph = Reference.graph → s.eng.next = some 2 → s.eng.paused = false →
    exec .engRunGroup s = .next { s with
      pc := s.nextPc, eng := { s.eng with next := some 0 }, resp := ⟨false, 0, 0, 2, 0, 1⟩ }

/-- The exception group of the reference graph does what TRAP.DELIVER does, then moves `next_pc` into `pc` and retires
(42_engine R143, R154, R155); where TRAP.DELIVER is fatal, so is the run. -/
def Obligations.ExceptionGroupDeliversThenCommits : Prop :=
  ∀ s t : State, s.fatal = none → s.cfg.graph = Reference.graph → s.eng.next = some 3 → s.eng.paused = false →
    exec .trapDeliver s = .next t →
    (t.fatal = none →
      exec .engRunGroup s = .next { t with
        pc := t.nextPc, eng := { s.eng with next := some 0 }, iresp := ⟨false, 0, 0, 0, 0, 0⟩
        resp := ⟨false, 0, 0, 3, 0, 1⟩ }) ∧
    (∀ c, t.fatal = some c → exec .engRunGroup s = .next { t with iresp := ⟨true, c.code, 0, 0, 0, 0⟩ })

/-- An operation issued by an Action on the internal port does what the same operation does on the command port with the same
operands, but for where it answers; a reserved word is F_BAD_COMMAND there too (30_encoding R70, R78). -/
def Obligations.InternalPortMeansTheSame : Prop :=
  (∀ (s t : State) (cw : CmdWord) (i : Instr) (b : Bus), decode cw = .ok i → isEngineOp i = false → s.fatal = none →
    exec i { s with bus := b } = .next t →
    (t.fatal = none → issue cw b s = .ok { t with bus := s.bus, resp := s.resp, iresp := t.resp }) ∧
    (∀ c, t.fatal = some c → issue cw b s = .fatal { s with iresp := t.resp } c)) ∧
  (∀ (s : State) (cw : CmdWord) (b : Bus), (∀ i, decode cw ≠ .ok i) →
    issue cw b s = .fatal { s with iresp := ⟨true, 9, 0, 0, 0, 0⟩ } .badCommand)

/-- The model's one fault: a run in which an external Action issues ENG.RUN_GROUP or ENG.RESUME, which 42_engine R142 and R153
forbid, stops, wherever in its script the Action issues it and however far the run has come (the model's choice, log entry 12). -/
def Obligations.EngineOperationInAnActionStops : Prop :=
  (∀ (s : State) (cw : CmdWord) (b : Bus) (i : Instr), decode cw = .ok i → isEngineOp i = true →
    issue cw b s = .fault .engineNested) ∧
  (∀ (i : Instr) (s s0 t : State) (g k : Nat) (grp : Group) (before after : List Action) (a : Action),
    EngineStarts i s s0 g k grp (before ++ a :: after) → runThrough s0 before = some t →
    (invoke a t = .fault .engineNested → exec i s = .fault .engineNested) ∧
    (∀ (e : ExtAction) (done rest : List ActionOp) (w : State) (cw : CmdWord) (j : Instr) (wdata arg0 arg1 arg2 : Source),
      a.body = .external e → t.mmuOf e = none → t.nextRun.ops = done ++ .issue cw wdata arg0 arg1 arg2 :: rest →
      runOps t.dropRun done = .ok w → decode cw = .ok j → isEngineOp j = true →
      exec i s = .fault .engineNested))

/-- Whatever an external Action does, it writes neither `pc`, the Engine's cells, the latch, the configuration, the command
port, nor the action list of the instruction's group; one that is a script answers what its script answers (42_engine R153;
scripts are log entry 10, the MMU as a function log entry 31). -/
def Obligations.ExternalActionFrame : Prop :=
  ∀ (s t : State) (tag : Tag) (e : ExtAction) (ct : ControlTransfer), invoke ⟨tag, .external e⟩ s = .ok t ct →
    (s.mmuOf e = none → ct = s.nextRun.ct) ∧ t.curInst.actions = s.curInst.actions ∧
    t = { s with
      x := t.x, f := t.f, v := t.v, csr := t.csr, nextPc := t.nextPc, priv := t.priv, virt := t.virt, trap := t.trap
      xp := t.xp, curInst := t.curInst, xlateMode := t.xlateMode, iresp := t.iresp
      script := if s.mmuOf e = none then s.script.tail else s.script
      mem := t.mem, memData := t.memData }

/-- Conforming front-end Actions write no register, no CSR and neither `pc` nor `next_pc`, and only the decoder writes the
instruction record; a conforming A_MMU writes neither, and never changes the request (42_engine R150 to R152, 43_xlate
R165). -/
def Obligations.FrontEndAndMmuFrame : Prop :=
  ∀ (s t : State) (raw : BitVec 32) (tag : Tag) (e : ExtAction) (ct : ControlTransfer), s.nextConforms raw e = true →
    invoke ⟨tag, .external e⟩ s = .ok t ct →
    ((e = .aFetch ∨ e = .aFtrans) →
      t = { s with trap := t.trap, iresp := t.iresp, script := t.script, memData := t.memData }) ∧
    (e = .aDecode →
      t = { s with trap := t.trap, curInst := t.curInst, iresp := t.iresp, script := t.script, memData := t.memData }) ∧
    (e = .aMmu →
      t.xp.vaddr = s.xp.vaddr ∧ t.xp.size = s.xp.size ∧
      t = { s with trap := t.trap, xp := t.xp, iresp := t.iresp, script := t.script, mem := t.mem
                   memData := t.memData })

/-- A conforming external Action that starts with an empty slot leaves a cause pending exactly when it transfers to the
exception group, and transfers to no other group (42_engine R153, 70_reset R240, 90_conflicts C9). -/
def Obligations.CausePendingIffTransfer : Prop :=
  ∀ (s t : State) (raw : BitVec 32) (tag : Tag) (e : ExtAction) (ct : ControlTransfer), s.nextConforms raw e = true →
    s.trap.pendFault = none → s.trap.pendIntr = none → invoke ⟨tag, .external e⟩ s = .ok t ct →
    ((t.trap.pendFault ≠ none ∨ t.trap.pendIntr ≠ none) ↔ ct = .transfer s.cfg.exception) ∧
    (∀ g, ct = .transfer g → g = s.cfg.exception)

/-- The run of a group changes no CSR of its own accord: with no `deliver_trap` in the group and no CSR write in the scripts,
the CSR file is the same afterwards, so no counter advances (10_state R37, 60_exceptions R222, Scenario D). -/
def Obligations.NoHiddenCsrWrites : Prop :=
  ∀ (i : Instr) (s s0 t : State) (g k : Nat) (grp : Group) (as : List Action),
    EngineStarts i s s0 g k grp as → (∀ a ∈ as, a.body ≠ .deliverTrap) →
    s.scriptsAll (issuesOnly fun j => !mayWriteCsr j) = true → exec i s = .next t → t.csr = s.csr

/-- Memory changes only by an external Action's MemWrite (20_memory R50): with none in the scripts, a group's run leaves the
store as it was. -/
def Obligations.RunsTouchMemoryOnlyByMemWrite : Prop :=
  ∀ (i : Instr) (s t : State), s.scriptsAll (fun o => !writesMem o) = true → exec i s = .next t → t.mem = s.mem

/-- No operation stops the model, but a run in which an external Action issues an Engine operation (log entry 12): with none
in the scripts every operation answers a next state. -/
def Obligations.OperationsAlwaysAnswer : Prop :=
  ∀ (i : Instr) (s : State), s.scriptsAll noEngine = true → ∃ t, exec i s = .next t

/-! ## Whole machine -/

/-- The invariant is kept by every step: cells of their widths, one CSR cell per descriptor, at most one pending cause, a
latch that is zero unless a fault is pending, an Engine whose next group exists and whose cursor is 0 unless paused, a
store in canonical form (10_state R20 to R33, 44_trap_ops R184). -/
def Obligations.EveryStepKeepsTheInvariant : Prop :=
  ∀ s t : State, s.inv = true → step s = .next t → t.inv = true

/-- The invariant holds after reset, in every configuration and with whatever waits outside, if the store is in canonical
form; and so at State.reset (10_state R39). -/
def Obligations.ResetMeetsTheInvariant : Prop :=
  State.reset.inv = true ∧
  ∀ (c : Config) (inputs : List Input) (script : List ActionRun) (idle : ActionRun) (mem : Memory) (md : Wide),
    mem.wf = true → (State.resetOf c inputs script idle mem md).inv = true

/-- The configuration is fixed: no step changes it (10_state R25, 42_engine R138). -/
def Obligations.ConfigurationIsFixed : Prop :=
  ∀ s t : State, step s = .next t → t.cfg = s.cfg

/-- Each family writes its own unit and nothing else: the Register File and CSR operations the register file (40_regfile R94),
the Translation Port's the port, the setting operations the slot, TRAP.DELIVER what 44_trap_ops R185 lists; none of them
`pc`, the Engine, the instruction record or memory (10_state R27, 20_memory R50). -/
def Obligations.EachFamilyWritesItsOwnUnit : Prop :=
  ∀ s t : State,
    (∀ c n, ∀ i ∈ [Instr.rfWrite c n, .rfWriteDirect c n], exec i s = .next t →
      t = { s with x := t.x, f := t.f, v := t.v, csr := t.csr, fatal := t.fatal, resp := t.resp }) ∧
    (∀ n k, exec (.csrFieldWrite n k) s = .next t → t = { s with csr := t.csr, fatal := t.fatal, resp := t.resp }) ∧
    (∀ c n k, ∀ i ∈ [Instr.rfRead c n, .rfReadDirect c n, .csrFieldRead n k], exec i s = .next t →
      t = { s with fatal := t.fatal, resp := t.resp }) ∧
    (∀ i ∈ [Instr.xltRequest, .xltResolve, .xltResult, .xltPopResult], exec i s = .next t →
      t = { s with xp := t.xp, fatal := t.fatal, resp := t.resp }) ∧
    (∀ c, ∀ i ∈ [Instr.trapSetFault c, .trapSetInterrupt c], exec i s = .next t →
      t = { s with trap := t.trap, fatal := t.fatal, resp := t.resp }) ∧
    (exec .trapDeliver s = .next t →
      t = { s with nextPc := t.nextPc, csr := t.csr, priv := t.priv, virt := t.virt, xlateMode := t.xlateMode
                   trap := t.trap, fatal := t.fatal, resp := t.resp })

/-- The default configuration passes the construction checks at both widths, every CSR that delivery names is in it, and the
MSTATUSH row and the gva and mpv fields are where 10_state R26 puts them: bits 38 and 39 of MSTATUS on RV64, bits 6 and 7 of
MSTATUSH on RV32 (41_csr R111, 42_engine R139). -/
def Obligations.DefaultConfigurationIsSound : Prop :=
  (∀ x : XLen, (Reference.config x).ok = true ∧
    ((Reference.config x).desc 0x310).isSome = decide (x = .rv32) ∧
    ((Reference.config x).desc 0x300).map (fun d => d.fields.length) = some (if x = .rv64 then 8 else 6) ∧
    (∀ nm ∈ [CsrName.medeleg, .mideleg, .mtvec, .mepc, .mcause, .mtval, .stvec, .sepc, .scause, .stval, .mstatus],
      ((Reference.config x).descNamed nm).isSome = true)) ∧
  (∃ d, (Reference.config .rv64).desc 0x300 = some d ∧ (Reference.config .rv64).descNamed .mstatus = some d ∧
    d.fieldNamed .gva = some ⟨.gva, 38, 38⟩ ∧ d.fieldNamed .mpv = some ⟨.mpv, 39, 39⟩) ∧
  (∃ d, (Reference.config .rv32).desc 0x310 = some d ∧ (Reference.config .rv32).descNamed .mstatush = some d ∧
    d.fieldNamed .gva = some ⟨.gva, 6, 6⟩ ∧ d.fieldNamed .mpv = some ⟨.mpv, 7, 7⟩)

/-! ## The external store -/

/-- MemWrite then MemRead through an external Action: the value cut to the access's bits comes back, little-endian bytes stand in
the cells of the access, every other byte is as it was, the canonical form is kept, and the read changes nothing but the value
read (20_memory R51, R53; the store in the model is log entry 16, the wrap at the top entry 18). -/
def Obligations.StoreReadsBackWhatWasWritten : Prop :=
  ∀ (s : State) (addr v : Source) (n : MemSize), s.mem.wf = true →
    ∃ t, runOp s (.memWrite addr n v) = .ok t ∧ t = { s with mem := t.mem } ∧ t.mem.wf = true ∧
      t.mem.read (s.sourceWord addr).toNat n.bytes = s.sourceValue v % 2 ^ (8 * n.bytes) ∧
      (∀ k, k < n.bytes → (t.mem.byte (((s.sourceWord addr).toNat + k) % 2 ^ 64)).toNat =
        s.sourceValue v / 256 ^ k % 256) ∧
      (∀ b, b ∉ Memory.span (s.sourceWord addr).toNat n.bytes → t.mem.byte b = s.mem.byte b) ∧
      runOp t (.memRead addr n) = .ok { t with memData := s.sourceValue v % 2 ^ (8 * n.bytes) }

/-! ## Beside the above -/

/-- A table that has every CSR delivery names but lacks one of the fields it names makes delivery end in F_UNKNOWN_FIELD with no
other change (44_trap_ops R185, 60_exceptions R207); that the fields of both levels are looked up first is the model's choice (log
entry 14). -/
def Obligations.DeliverNeedsEveryNamedField : Prop :=
  ∀ (s : State) (isIntr : Bool) (c : Nat) (d : CsrDesc) (f : FieldName), s.fatal = none → PendingOnly s isIntr c →
    (∀ nm ∈ [CsrName.medeleg, .mideleg, .mtvec, .mepc, .mcause, .mtval, .stvec, .sepc, .scause, .stval, .mstatus],
      s.cfg.descNamed nm ≠ none) →
    (s.cfg.xlen = .rv32 → s.cfg.descNamed .mstatush ≠ none) →
    ((f ∈ [FieldName.mie, .mpie, .mpp, .sie, .spie, .spp] ∧ s.cfg.descNamed .mstatus = some d) ∨
      (f ∈ [FieldName.mpv, .gva] ∧ s.cfg.descNamed (if s.cfg.xlen = .rv64 then .mstatus else .mstatush) = some d)) →
    d.fieldNamed f = none →
    exec .trapDeliver s = .next { s with fatal := some .unknownField, resp := ⟨true, 2, 0, 0, 0, 0⟩ }

/-- A conforming decoder either continues, the record holding the raw bits and nothing raised, or raises ILLEGAL_INST with the raw
bits as opcode and transfers to the exception group (42_engine R151, 10_state R34). -/
def Obligations.DecoderDecodesOrRaises : Prop :=
  ∀ (s t : State) (raw : BitVec 32) (tag : Tag) (ct : ControlTransfer), s.nextConforms raw .aDecode = true →
    invoke ⟨tag, .external .aDecode⟩ s = .ok t ct →
    (ct = .continue ∧ t.curInst.opcode = raw ∧ t.trap = s.trap) ∨
    (ct = .transfer s.cfg.exception ∧ t.trap.pendFault = some 2 ∧
      t.trap.tiOpcode = BitVec.ofNat 64 (raw.toNat % 2 ^ s.cfg.xlen.bits) ∧
      (t.curInst = s.curInst ∨ t.curInst.opcode = raw))

/-- A conforming A_MMU that is a script (log entry 10) resolves a request and continues, or raises an MMU's cause with the request's
address, leaves the port REQUESTED and transfers to the exception group; with no request it does nothing and continues (42_engine
R152, 43_xlate R165, 20_memory R59). -/
def Obligations.ConformingMmuResolvesOrRaises : Prop :=
  ∀ (s t : State) (raw : BitVec 32) (tag : Tag) (ct : ControlTransfer), s.mmuOf .aMmu = none →
    s.nextConforms raw .aMmu = true → invoke ⟨tag, .external .aMmu⟩ s = .ok t ct →
    (s.xp.state = .idle → ct = .continue ∧ t = { s with script := s.script.tail }) ∧
    (s.xp.state = .requested →
      (ct = .continue ∧ t.trap = s.trap ∧ t.xp = ⟨.resolved, s.xp.vaddr, s.xp.size, t.xp.paddr, t.xp.misalign⟩) ∨
      (ct = .transfer s.cfg.exception ∧ t.xp = s.xp ∧
        ∃ c, mayRaise .aMmu c = true ∧ t.trap.pendFault = some c ∧
          t.trap.tiVaddr = BitVec.ofNat 64 (s.xp.vaddr.toNat % 2 ^ s.cfg.xlen.bits)))

/-- The MMU as a function (43_xlate R165): its answer to the request, the privilege, the virtual flag, the translation mode, the
instruction's record and the memory is what A_MMU does, a resolution and Continue, or a raised cause with the request's address
and the transfer; with no request it does nothing (42_engine R152, 20_memory R59). The record in place of the access type, and
that a resolved request is left alone, are the model's reading (log entry 31). -/
def Obligations.MmuFunctionServesTheRequest : Prop :=
  ∀ (s : State) (tag : Tag) (m : MmuFunction), s.cfg.mmu = some m →
    (s.xp.state ≠ .requested → invoke ⟨tag, .external .aMmu⟩ s = .ok s .continue) ∧
    (s.xp.state = .requested →
      (∀ paddr misalign,
        mmuAnswer m ⟨s.xp.vaddr, s.xp.size, s.priv, s.virt, s.xlateMode, s.curInst.mnemonic, s.curInst.operands, s.mem⟩ =
          .resolve paddr misalign →
        invoke ⟨tag, .external .aMmu⟩ s = .ok { s with
          xp := ⟨.resolved, s.xp.vaddr, s.xp.size, paddr, misalign⟩, iresp := ⟨false, 0, 0, 0, 0, 0⟩ } .continue) ∧
      (∀ c,
        mmuAnswer m ⟨s.xp.vaddr, s.xp.size, s.priv, s.virt, s.xlateMode, s.curInst.mnemonic, s.curInst.operands, s.mem⟩ =
          .raise c →
        s.cfg.isFaultCode c = true → s.trap.pendFault = none → s.trap.pendIntr = none →
        invoke ⟨tag, .external .aMmu⟩ s = .ok { s with
          trap := ⟨some c, none, BitVec.ofNat 64 (s.xp.vaddr.toNat % 2 ^ s.cfg.xlen.bits), 0, 0⟩
          iresp := ⟨false, 0, 0, 0, 0, 0⟩ } (.transfer s.cfg.exception)))
end

