-- ==== Sys2Proof/Laws/Bits.lean ====
section
/-!
SUPPORT. The bit arithmetic of Machine/Bits.lean, bit by bit and over the natural numbers, and which operations keep a value
within XLEN bits.
-/

namespace Sys2Proof.Machine

theorem xlen_bits_le (x : XLen) : x.bits ≤ 64 := by cases x <;> decide

theorem xlen_bits_pos (x : XLen) : 0 < x.bits := by cases x <;> decide

theorem getLsbD_ones (w k : Nat) : (ones w).getLsbD k = (decide (k < 64) && decide (k < w)) := by
  simp only [ones, BitVec.getLsbD_ofNat, Nat.testBit_two_pow_sub_one]

theorem getLsbD_trunc (x : XLen) (v : Word) (k : Nat) :
    (trunc x v).getLsbD k = (v.getLsbD k && decide (k < x.bits)) := by
  have hx := xlen_bits_le x
  simp only [trunc, BitVec.getLsbD_and, getLsbD_ones]
  by_cases h : k < x.bits
  · simp [h, show k < 64 by omega]
  · simp [h]

theorem trunc_toNat (x : XLen) (v : Word) : (trunc x v).toNat = v.toNat % 2 ^ x.bits := by
  apply Nat.eq_of_testBit_eq
  intro k
  have h := getLsbD_trunc x v k
  rw [BitVec.getLsbD, BitVec.getLsbD] at h
  rw [h, Nat.testBit_mod_two_pow, Bool.and_comm]

theorem trunc_eq_ofNat (x : XLen) (v : Word) : trunc x v = BitVec.ofNat 64 (v.toNat % 2 ^ x.bits) := by
  apply BitVec.eq_of_toNat_eq
  rw [trunc_toNat, BitVec.toNat_ofNat, Nat.mod_eq_of_lt (a := v.toNat % 2 ^ x.bits)]
  exact lt_of_le_of_lt (Nat.mod_le _ _) v.isLt

/-- The low XLEN bits of a bus value, over the natural numbers (40_regfile R90). -/
theorem wordOf_eq_ofNat (x : XLen) (n : Wide) : wordOf x n = BitVec.ofNat 64 (n % 2 ^ x.bits) := by
  rw [wordOf, trunc_eq_ofNat, BitVec.toNat_ofNat, Nat.mod_mod_of_dvd _ (pow_dvd_pow 2 (xlen_bits_le x))]

theorem wordOf_toNat (x : XLen) (n : Wide) : (wordOf x n).toNat = n % 2 ^ x.bits := by
  rw [wordOf, trunc_toNat, BitVec.toNat_ofNat, Nat.mod_mod_of_dvd _ (pow_dvd_pow 2 (xlen_bits_le x))]

/-! ### Values within XLEN bits -/

theorem fits_iff (x : XLen) (w : Word) : fits x w = true ↔ ∀ k, x.bits ≤ k → w.getLsbD k = false := by
  simp only [fits, beq_iff_eq]
  constructor
  · intro h k hk
    rw [← h, getLsbD_trunc]
    simp [show ¬ k < x.bits by omega]
  · intro h
    apply BitVec.eq_of_getLsbD_eq
    intro k _
    rw [getLsbD_trunc]
    by_cases hk : k < x.bits
    · simp [hk]
    · simp [h k (by omega)]

@[simp] theorem fits_trunc (x : XLen) (w : Word) : fits x (trunc x w) = true := by
  rw [fits_iff]
  intro k hk
  rw [getLsbD_trunc]
  simp [show ¬ k < x.bits by omega]

@[simp] theorem fits_wordOf (x : XLen) (n : Wide) : fits x (wordOf x n) = true := fits_trunc _ _

@[simp] theorem fits_zero (x : XLen) : fits x 0#64 = true := by cases x <;> decide

theorem trunc_of_fits {x : XLen} {w : Word} (h : fits x w = true) : trunc x w = w := by
  simpa [fits] using h

theorem fits_maskedMerge {x : XLen} {m old v : Word} (h : fits x old = true) (h' : fits x v = true) :
    fits x (maskedMerge m old v) = true := by
  rw [fits_iff] at *
  intro k hk
  simp [maskedMerge, h k hk, h' k hk]

theorem fits_clearBit0 {x : XLen} {v : Word} (h : fits x v = true) : fits x (clearBit0 v) = true := by
  rw [fits_iff] at *
  intro k hk
  simp [clearBit0, h k hk]

/-! ### Fields, bit by bit -/

theorem getLsbD_maskedMerge (m old v : Word) (k : Nat) :
    (maskedMerge m old v).getLsbD k = if m.getLsbD k then v.getLsbD k else old.getLsbD k := by
  unfold maskedMerge
  by_cases hk : k < 64
  · simp only [BitVec.getLsbD_or, BitVec.getLsbD_and, BitVec.getLsbD_not, hk]
    cases m.getLsbD k <;> simp
  · rw [BitVec.getLsbD_of_ge _ _ (by omega), BitVec.getLsbD_of_ge v _ (by omega),
      BitVec.getLsbD_of_ge old _ (by omega)]
    simp

/-- Bit k of a field written: the value's bit counted from the low end, or the old bit outside the field (41_csr R118). -/
theorem getLsbD_fieldInsert (low high : Nat) (raw x : Word) (k : Nat) (hk : k < 64) (hle : low ≤ high) :
    (fieldInsert low high raw x).getLsbD k =
      if low ≤ k ∧ k ≤ high then x.getLsbD (k - low) else raw.getLsbD k := by
  simp only [fieldInsert, fieldMask, fieldWidth, BitVec.getLsbD_or, BitVec.getLsbD_and, BitVec.getLsbD_not,
    BitVec.getLsbD_shiftLeft, getLsbD_ones, hk]
  by_cases h1 : k < low
  · simp [h1, show ¬ (low ≤ k ∧ k ≤ high) by omega]
  · by_cases h2 : k ≤ high
    · simp [h1, show low ≤ k ∧ k ≤ high by omega, show k - low < 64 by omega,
        show k - low < high - low + 1 by omega]
    · simp [h1, show ¬ (low ≤ k ∧ k ≤ high) by omega, show ¬ k - low < high - low + 1 by omega]

/-- A field read is the bits low to high of the raw value, over the natural numbers (41_csr R116). -/
theorem fieldExtract_toNat (low high : Nat) (raw : Word) :
    (fieldExtract low high raw).toNat = raw.toNat / 2 ^ low % 2 ^ (high - low + 1) := by
  apply Nat.eq_of_testBit_eq
  intro k
  rw [← Nat.shiftRight_eq_div_pow, Nat.testBit_mod_two_pow, Nat.testBit_shiftRight]
  show (fieldExtract low high raw).getLsbD k = _
  simp only [fieldExtract, fieldWidth, BitVec.getLsbD_and, BitVec.getLsbD_ushiftRight, getLsbD_ones]
  by_cases h : k < 64
  · simp [h, BitVec.getLsbD, Bool.and_comm]
  · have : raw.toNat.testBit (low + k) = false := by
      have := BitVec.getLsbD_of_ge raw (low + k) (by omega)
      simpa [BitVec.getLsbD] using this
    simp [h, this]

theorem fits_fieldInsert {x : XLen} {low high : Nat} {raw v : Word} (hf : low ≤ high ∧ high < x.bits)
    (h : fits x raw = true) : fits x (fieldInsert low high raw v) = true := by
  rw [fits_iff] at *
  intro k hk
  by_cases hk64 : k < 64
  · rw [getLsbD_fieldInsert _ _ _ _ _ hk64 hf.1, if_neg (by omega), h k hk]
  · exact BitVec.getLsbD_of_ge _ _ (by omega)

theorem getLsbD_clearBit0 (v : Word) (k : Nat) :
    (clearBit0 v).getLsbD k = (decide (k ≠ 0) && v.getLsbD k) := by
  unfold clearBit0
  by_cases hk : k < 64
  · by_cases h0 : k = 0
    · subst h0; simp
    · simp only [BitVec.getLsbD_and, BitVec.getLsbD_not, BitVec.getLsbD_one, hk]
      simp [h0]
  · simp [BitVec.getLsbD_of_ge v k (by omega)]

end Sys2Proof.Machine
end

