-- ==== Sys2Proof/Laws/State.lean ====
section
/-!
SUPPORT. One lemma per field per named update of State, true by unfolding the update once; later proofs rewrite with these
and never unfold a record update.
-/

namespace Sys2Proof.Machine

section
variable (s : State)

/-! `respond` -/
@[simp] theorem State.respond_cfg (r : Response) : (s.respond r).cfg = s.cfg := rfl
@[simp] theorem State.respond_x (r : Response) : (s.respond r).x = s.x := rfl
@[simp] theorem State.respond_f (r : Response) : (s.respond r).f = s.f := rfl
@[simp] theorem State.respond_v (r : Response) : (s.respond r).v = s.v := rfl
@[simp] theorem State.respond_csr (r : Response) : (s.respond r).csr = s.csr := rfl
@[simp] theorem State.respond_pc (r : Response) : (s.respond r).pc = s.pc := rfl
@[simp] theorem State.respond_nextPc (r : Response) : (s.respond r).nextPc = s.nextPc := rfl
@[simp] theorem State.respond_priv (r : Response) : (s.respond r).priv = s.priv := rfl
@[simp] theorem State.respond_virt (r : Response) : (s.respond r).virt = s.virt := rfl
@[simp] theorem State.respond_trap (r : Response) : (s.respond r).trap = s.trap := rfl
@[simp] theorem State.respond_xp (r : Response) : (s.respond r).xp = s.xp := rfl
@[simp] theorem State.respond_eng (r : Response) : (s.respond r).eng = s.eng := rfl
@[simp] theorem State.respond_curInst (r : Response) : (s.respond r).curInst = s.curInst := rfl
@[simp] theorem State.respond_xlateMode (r : Response) : (s.respond r).xlateMode = s.xlateMode := rfl
@[simp] theorem State.respond_fatal (r : Response) : (s.respond r).fatal = s.fatal := rfl
@[simp] theorem State.respond_bus (r : Response) : (s.respond r).bus = s.bus := rfl
@[simp] theorem State.respond_resp (r : Response) : (s.respond r).resp = r := rfl
@[simp] theorem State.respond_iresp (r : Response) : (s.respond r).iresp = s.iresp := rfl
@[simp] theorem State.respond_inputs (r : Response) : (s.respond r).inputs = s.inputs := rfl
@[simp] theorem State.respond_script (r : Response) : (s.respond r).script = s.script := rfl
@[simp] theorem State.respond_idle (r : Response) : (s.respond r).idle = s.idle := rfl
@[simp] theorem State.respond_mem (r : Response) : (s.respond r).mem = s.mem := rfl
@[simp] theorem State.respond_memData (r : Response) : (s.respond r).memData = s.memData := rfl

/-! `latch` -/
@[simp] theorem State.latch_cfg (c : FatalCode) : (s.latch c).cfg = s.cfg := rfl
@[simp] theorem State.latch_x (c : FatalCode) : (s.latch c).x = s.x := rfl
@[simp] theorem State.latch_f (c : FatalCode) : (s.latch c).f = s.f := rfl
@[simp] theorem State.latch_v (c : FatalCode) : (s.latch c).v = s.v := rfl
@[simp] theorem State.latch_csr (c : FatalCode) : (s.latch c).csr = s.csr := rfl
@[simp] theorem State.latch_pc (c : FatalCode) : (s.latch c).pc = s.pc := rfl
@[simp] theorem State.latch_nextPc (c : FatalCode) : (s.latch c).nextPc = s.nextPc := rfl
@[simp] theorem State.latch_priv (c : FatalCode) : (s.latch c).priv = s.priv := rfl
@[simp] theorem State.latch_virt (c : FatalCode) : (s.latch c).virt = s.virt := rfl
@[simp] theorem State.latch_trap (c : FatalCode) : (s.latch c).trap = s.trap := rfl
@[simp] theorem State.latch_xp (c : FatalCode) : (s.latch c).xp = s.xp := rfl
@[simp] theorem State.latch_eng (c : FatalCode) : (s.latch c).eng = s.eng := rfl
@[simp] theorem State.latch_curInst (c : FatalCode) : (s.latch c).curInst = s.curInst := rfl
@[simp] theorem State.latch_xlateMode (c : FatalCode) : (s.latch c).xlateMode = s.xlateMode := rfl
@[simp] theorem State.latch_fatal (c : FatalCode) : (s.latch c).fatal = some c := rfl
@[simp] theorem State.latch_bus (c : FatalCode) : (s.latch c).bus = s.bus := rfl
@[simp] theorem State.latch_resp (c : FatalCode) : (s.latch c).resp = Response.ofFatal c := rfl
@[simp] theorem State.latch_iresp (c : FatalCode) : (s.latch c).iresp = s.iresp := rfl
@[simp] theorem State.latch_inputs (c : FatalCode) : (s.latch c).inputs = s.inputs := rfl
@[simp] theorem State.latch_script (c : FatalCode) : (s.latch c).script = s.script := rfl
@[simp] theorem State.latch_idle (c : FatalCode) : (s.latch c).idle = s.idle := rfl
@[simp] theorem State.latch_mem (c : FatalCode) : (s.latch c).mem = s.mem := rfl
@[simp] theorem State.latch_memData (c : FatalCode) : (s.latch c).memData = s.memData := rfl

/-! `refuse` -/
@[simp] theorem State.refuse_cfg (c : FatalCode) : (s.refuse c).cfg = s.cfg := rfl
@[simp] theorem State.refuse_x (c : FatalCode) : (s.refuse c).x = s.x := rfl
@[simp] theorem State.refuse_f (c : FatalCode) : (s.refuse c).f = s.f := rfl
@[simp] theorem State.refuse_v (c : FatalCode) : (s.refuse c).v = s.v := rfl
@[simp] theorem State.refuse_csr (c : FatalCode) : (s.refuse c).csr = s.csr := rfl
@[simp] theorem State.refuse_pc (c : FatalCode) : (s.refuse c).pc = s.pc := rfl
@[simp] theorem State.refuse_nextPc (c : FatalCode) : (s.refuse c).nextPc = s.nextPc := rfl
@[simp] theorem State.refuse_priv (c : FatalCode) : (s.refuse c).priv = s.priv := rfl
@[simp] theorem State.refuse_virt (c : FatalCode) : (s.refuse c).virt = s.virt := rfl
@[simp] theorem State.refuse_trap (c : FatalCode) : (s.refuse c).trap = s.trap := rfl
@[simp] theorem State.refuse_xp (c : FatalCode) : (s.refuse c).xp = s.xp := rfl
@[simp] theorem State.refuse_eng (c : FatalCode) : (s.refuse c).eng = s.eng := rfl
@[simp] theorem State.refuse_curInst (c : FatalCode) : (s.refuse c).curInst = s.curInst := rfl
@[simp] theorem State.refuse_xlateMode (c : FatalCode) : (s.refuse c).xlateMode = s.xlateMode := rfl
@[simp] theorem State.refuse_fatal (c : FatalCode) : (s.refuse c).fatal = s.fatal := rfl
@[simp] theorem State.refuse_bus (c : FatalCode) : (s.refuse c).bus = s.bus := rfl
@[simp] theorem State.refuse_resp (c : FatalCode) : (s.refuse c).resp = Response.ofFatal c := rfl
@[simp] theorem State.refuse_iresp (c : FatalCode) : (s.refuse c).iresp = s.iresp := rfl
@[simp] theorem State.refuse_inputs (c : FatalCode) : (s.refuse c).inputs = s.inputs := rfl
@[simp] theorem State.refuse_script (c : FatalCode) : (s.refuse c).script = s.script := rfl
@[simp] theorem State.refuse_idle (c : FatalCode) : (s.refuse c).idle = s.idle := rfl
@[simp] theorem State.refuse_mem (c : FatalCode) : (s.refuse c).mem = s.mem := rfl
@[simp] theorem State.refuse_memData (c : FatalCode) : (s.refuse c).memData = s.memData := rfl

/-! `accept` -/
@[simp] theorem State.accept_cfg (c : Command) (rest : List Input) : (s.accept c rest).cfg = s.cfg := rfl
@[simp] theorem State.accept_x (c : Command) (rest : List Input) : (s.accept c rest).x = s.x := rfl
@[simp] theorem State.accept_f (c : Command) (rest : List Input) : (s.accept c rest).f = s.f := rfl
@[simp] theorem State.accept_v (c : Command) (rest : List Input) : (s.accept c rest).v = s.v := rfl
@[simp] theorem State.accept_csr (c : Command) (rest : List Input) : (s.accept c rest).csr = s.csr := rfl
@[simp] theorem State.accept_pc (c : Command) (rest : List Input) : (s.accept c rest).pc = s.pc := rfl
@[simp] theorem State.accept_nextPc (c : Command) (rest : List Input) : (s.accept c rest).nextPc = s.nextPc := rfl
@[simp] theorem State.accept_priv (c : Command) (rest : List Input) : (s.accept c rest).priv = s.priv := rfl
@[simp] theorem State.accept_virt (c : Command) (rest : List Input) : (s.accept c rest).virt = s.virt := rfl
@[simp] theorem State.accept_trap (c : Command) (rest : List Input) : (s.accept c rest).trap = s.trap := rfl
@[simp] theorem State.accept_xp (c : Command) (rest : List Input) : (s.accept c rest).xp = s.xp := rfl
@[simp] theorem State.accept_eng (c : Command) (rest : List Input) : (s.accept c rest).eng = s.eng := rfl
@[simp] theorem State.accept_curInst (c : Command) (rest : List Input) : (s.accept c rest).curInst = s.curInst := rfl
@[simp] theorem State.accept_xlateMode (c : Command) (rest : List Input) : (s.accept c rest).xlateMode = s.xlateMode := rfl
@[simp] theorem State.accept_fatal (c : Command) (rest : List Input) : (s.accept c rest).fatal = s.fatal := rfl
@[simp] theorem State.accept_bus (c : Command) (rest : List Input) : (s.accept c rest).bus = latchBus s.cfg c.bus := rfl
@[simp] theorem State.accept_resp (c : Command) (rest : List Input) : (s.accept c rest).resp = s.resp := rfl
@[simp] theorem State.accept_iresp (c : Command) (rest : List Input) : (s.accept c rest).iresp = s.iresp := rfl
@[simp] theorem State.accept_inputs (c : Command) (rest : List Input) : (s.accept c rest).inputs = rest := rfl
@[simp] theorem State.accept_script (c : Command) (rest : List Input) : (s.accept c rest).script = s.script := rfl
@[simp] theorem State.accept_idle (c : Command) (rest : List Input) : (s.accept c rest).idle = s.idle := rfl
@[simp] theorem State.accept_mem (c : Command) (rest : List Input) : (s.accept c rest).mem = s.mem := rfl
@[simp] theorem State.accept_memData (c : Command) (rest : List Input) : (s.accept c rest).memData = s.memData := rfl

/-! `setXp` -/
@[simp] theorem State.setXp_cfg (p : XltPort) : (s.setXp p).cfg = s.cfg := rfl
@[simp] theorem State.setXp_x (p : XltPort) : (s.setXp p).x = s.x := rfl
@[simp] theorem State.setXp_f (p : XltPort) : (s.setXp p).f = s.f := rfl
@[simp] theorem State.setXp_v (p : XltPort) : (s.setXp p).v = s.v := rfl
@[simp] theorem State.setXp_csr (p : XltPort) : (s.setXp p).csr = s.csr := rfl
@[simp] theorem State.setXp_pc (p : XltPort) : (s.setXp p).pc = s.pc := rfl
@[simp] theorem State.setXp_nextPc (p : XltPort) : (s.setXp p).nextPc = s.nextPc := rfl
@[simp] theorem State.setXp_priv (p : XltPort) : (s.setXp p).priv = s.priv := rfl
@[simp] theorem State.setXp_virt (p : XltPort) : (s.setXp p).virt = s.virt := rfl
@[simp] theorem State.setXp_trap (p : XltPort) : (s.setXp p).trap = s.trap := rfl
@[simp] theorem State.setXp_xp (p : XltPort) : (s.setXp p).xp = p := rfl
@[simp] theorem State.setXp_eng (p : XltPort) : (s.setXp p).eng = s.eng := rfl
@[simp] theorem State.setXp_curInst (p : XltPort) : (s.setXp p).curInst = s.curInst := rfl
@[simp] theorem State.setXp_xlateMode (p : XltPort) : (s.setXp p).xlateMode = s.xlateMode := rfl
@[simp] theorem State.setXp_fatal (p : XltPort) : (s.setXp p).fatal = s.fatal := rfl
@[simp] theorem State.setXp_bus (p : XltPort) : (s.setXp p).bus = s.bus := rfl
@[simp] theorem State.setXp_resp (p : XltPort) : (s.setXp p).resp = s.resp := rfl
@[simp] theorem State.setXp_iresp (p : XltPort) : (s.setXp p).iresp = s.iresp := rfl
@[simp] theorem State.setXp_inputs (p : XltPort) : (s.setXp p).inputs = s.inputs := rfl
@[simp] theorem State.setXp_script (p : XltPort) : (s.setXp p).script = s.script := rfl
@[simp] theorem State.setXp_idle (p : XltPort) : (s.setXp p).idle = s.idle := rfl
@[simp] theorem State.setXp_mem (p : XltPort) : (s.setXp p).mem = s.mem := rfl
@[simp] theorem State.setXp_memData (p : XltPort) : (s.setXp p).memData = s.memData := rfl

/-! `setTrap` -/
@[simp] theorem State.setTrap_cfg (u : TrapUnit) : (s.setTrap u).cfg = s.cfg := rfl
@[simp] theorem State.setTrap_x (u : TrapUnit) : (s.setTrap u).x = s.x := rfl
@[simp] theorem State.setTrap_f (u : TrapUnit) : (s.setTrap u).f = s.f := rfl
@[simp] theorem State.setTrap_v (u : TrapUnit) : (s.setTrap u).v = s.v := rfl
@[simp] theorem State.setTrap_csr (u : TrapUnit) : (s.setTrap u).csr = s.csr := rfl
@[simp] theorem State.setTrap_pc (u : TrapUnit) : (s.setTrap u).pc = s.pc := rfl
@[simp] theorem State.setTrap_nextPc (u : TrapUnit) : (s.setTrap u).nextPc = s.nextPc := rfl
@[simp] theorem State.setTrap_priv (u : TrapUnit) : (s.setTrap u).priv = s.priv := rfl
@[simp] theorem State.setTrap_virt (u : TrapUnit) : (s.setTrap u).virt = s.virt := rfl
@[simp] theorem State.setTrap_trap (u : TrapUnit) : (s.setTrap u).trap = u := rfl
@[simp] theorem State.setTrap_xp (u : TrapUnit) : (s.setTrap u).xp = s.xp := rfl
@[simp] theorem State.setTrap_eng (u : TrapUnit) : (s.setTrap u).eng = s.eng := rfl
@[simp] theorem State.setTrap_curInst (u : TrapUnit) : (s.setTrap u).curInst = s.curInst := rfl
@[simp] theorem State.setTrap_xlateMode (u : TrapUnit) : (s.setTrap u).xlateMode = s.xlateMode := rfl
@[simp] theorem State.setTrap_fatal (u : TrapUnit) : (s.setTrap u).fatal = s.fatal := rfl
@[simp] theorem State.setTrap_bus (u : TrapUnit) : (s.setTrap u).bus = s.bus := rfl
@[simp] theorem State.setTrap_resp (u : TrapUnit) : (s.setTrap u).resp = s.resp := rfl
@[simp] theorem State.setTrap_iresp (u : TrapUnit) : (s.setTrap u).iresp = s.iresp := rfl
@[simp] theorem State.setTrap_inputs (u : TrapUnit) : (s.setTrap u).inputs = s.inputs := rfl
@[simp] theorem State.setTrap_script (u : TrapUnit) : (s.setTrap u).script = s.script := rfl
@[simp] theorem State.setTrap_idle (u : TrapUnit) : (s.setTrap u).idle = s.idle := rfl
@[simp] theorem State.setTrap_mem (u : TrapUnit) : (s.setTrap u).mem = s.mem := rfl
@[simp] theorem State.setTrap_memData (u : TrapUnit) : (s.setTrap u).memData = s.memData := rfl

/-! `setNextPc` -/
@[simp] theorem State.setNextPc_cfg (w : Word) : (s.setNextPc w).cfg = s.cfg := rfl
@[simp] theorem State.setNextPc_x (w : Word) : (s.setNextPc w).x = s.x := rfl
@[simp] theorem State.setNextPc_f (w : Word) : (s.setNextPc w).f = s.f := rfl
@[simp] theorem State.setNextPc_v (w : Word) : (s.setNextPc w).v = s.v := rfl
@[simp] theorem State.setNextPc_csr (w : Word) : (s.setNextPc w).csr = s.csr := rfl
@[simp] theorem State.setNextPc_pc (w : Word) : (s.setNextPc w).pc = s.pc := rfl
@[simp] theorem State.setNextPc_nextPc (w : Word) : (s.setNextPc w).nextPc = w := rfl
@[simp] theorem State.setNextPc_priv (w : Word) : (s.setNextPc w).priv = s.priv := rfl
@[simp] theorem State.setNextPc_virt (w : Word) : (s.setNextPc w).virt = s.virt := rfl
@[simp] theorem State.setNextPc_trap (w : Word) : (s.setNextPc w).trap = s.trap := rfl
@[simp] theorem State.setNextPc_xp (w : Word) : (s.setNextPc w).xp = s.xp := rfl
@[simp] theorem State.setNextPc_eng (w : Word) : (s.setNextPc w).eng = s.eng := rfl
@[simp] theorem State.setNextPc_curInst (w : Word) : (s.setNextPc w).curInst = s.curInst := rfl
@[simp] theorem State.setNextPc_xlateMode (w : Word) : (s.setNextPc w).xlateMode = s.xlateMode := rfl
@[simp] theorem State.setNextPc_fatal (w : Word) : (s.setNextPc w).fatal = s.fatal := rfl
@[simp] theorem State.setNextPc_bus (w : Word) : (s.setNextPc w).bus = s.bus := rfl
@[simp] theorem State.setNextPc_resp (w : Word) : (s.setNextPc w).resp = s.resp := rfl
@[simp] theorem State.setNextPc_iresp (w : Word) : (s.setNextPc w).iresp = s.iresp := rfl
@[simp] theorem State.setNextPc_inputs (w : Word) : (s.setNextPc w).inputs = s.inputs := rfl
@[simp] theorem State.setNextPc_script (w : Word) : (s.setNextPc w).script = s.script := rfl
@[simp] theorem State.setNextPc_idle (w : Word) : (s.setNextPc w).idle = s.idle := rfl
@[simp] theorem State.setNextPc_mem (w : Word) : (s.setNextPc w).mem = s.mem := rfl
@[simp] theorem State.setNextPc_memData (w : Word) : (s.setNextPc w).memData = s.memData := rfl

/-! `setEng` -/
@[simp] theorem State.setEng_cfg (e : Engine) : (s.setEng e).cfg = s.cfg := rfl
@[simp] theorem State.setEng_x (e : Engine) : (s.setEng e).x = s.x := rfl
@[simp] theorem State.setEng_f (e : Engine) : (s.setEng e).f = s.f := rfl
@[simp] theorem State.setEng_v (e : Engine) : (s.setEng e).v = s.v := rfl
@[simp] theorem State.setEng_csr (e : Engine) : (s.setEng e).csr = s.csr := rfl
@[simp] theorem State.setEng_pc (e : Engine) : (s.setEng e).pc = s.pc := rfl
@[simp] theorem State.setEng_nextPc (e : Engine) : (s.setEng e).nextPc = s.nextPc := rfl
@[simp] theorem State.setEng_priv (e : Engine) : (s.setEng e).priv = s.priv := rfl
@[simp] theorem State.setEng_virt (e : Engine) : (s.setEng e).virt = s.virt := rfl
@[simp] theorem State.setEng_trap (e : Engine) : (s.setEng e).trap = s.trap := rfl
@[simp] theorem State.setEng_xp (e : Engine) : (s.setEng e).xp = s.xp := rfl
@[simp] theorem State.setEng_eng (e : Engine) : (s.setEng e).eng = e := rfl
@[simp] theorem State.setEng_curInst (e : Engine) : (s.setEng e).curInst = s.curInst := rfl
@[simp] theorem State.setEng_xlateMode (e : Engine) : (s.setEng e).xlateMode = s.xlateMode := rfl
@[simp] theorem State.setEng_fatal (e : Engine) : (s.setEng e).fatal = s.fatal := rfl
@[simp] theorem State.setEng_bus (e : Engine) : (s.setEng e).bus = s.bus := rfl
@[simp] theorem State.setEng_resp (e : Engine) : (s.setEng e).resp = s.resp := rfl
@[simp] theorem State.setEng_iresp (e : Engine) : (s.setEng e).iresp = s.iresp := rfl
@[simp] theorem State.setEng_inputs (e : Engine) : (s.setEng e).inputs = s.inputs := rfl
@[simp] theorem State.setEng_script (e : Engine) : (s.setEng e).script = s.script := rfl
@[simp] theorem State.setEng_idle (e : Engine) : (s.setEng e).idle = s.idle := rfl
@[simp] theorem State.setEng_mem (e : Engine) : (s.setEng e).mem = s.mem := rfl
@[simp] theorem State.setEng_memData (e : Engine) : (s.setEng e).memData = s.memData := rfl

/-! `csrStore` -/
@[simp] theorem State.csrStore_cfg (d : CsrDesc) (w : Word) : (s.csrStore d w).cfg = s.cfg := rfl
@[simp] theorem State.csrStore_x (d : CsrDesc) (w : Word) : (s.csrStore d w).x = s.x := rfl
@[simp] theorem State.csrStore_f (d : CsrDesc) (w : Word) : (s.csrStore d w).f = s.f := rfl
@[simp] theorem State.csrStore_v (d : CsrDesc) (w : Word) : (s.csrStore d w).v = s.v := rfl
@[simp] theorem State.csrStore_csr (d : CsrDesc) (w : Word) : (s.csrStore d w).csr = s.csr.set d.number w := rfl
@[simp] theorem State.csrStore_pc (d : CsrDesc) (w : Word) : (s.csrStore d w).pc = s.pc := rfl
@[simp] theorem State.csrStore_nextPc (d : CsrDesc) (w : Word) : (s.csrStore d w).nextPc = s.nextPc := rfl
@[simp] theorem State.csrStore_priv (d : CsrDesc) (w : Word) : (s.csrStore d w).priv = s.priv := rfl
@[simp] theorem State.csrStore_virt (d : CsrDesc) (w : Word) : (s.csrStore d w).virt = s.virt := rfl
@[simp] theorem State.csrStore_trap (d : CsrDesc) (w : Word) : (s.csrStore d w).trap = s.trap := rfl
@[simp] theorem State.csrStore_xp (d : CsrDesc) (w : Word) : (s.csrStore d w).xp = s.xp := rfl
@[simp] theorem State.csrStore_eng (d : CsrDesc) (w : Word) : (s.csrStore d w).eng = s.eng := rfl
@[simp] theorem State.csrStore_curInst (d : CsrDesc) (w : Word) : (s.csrStore d w).curInst = s.curInst := rfl
@[simp] theorem State.csrStore_xlateMode (d : CsrDesc) (w : Word) : (s.csrStore d w).xlateMode = s.xlateMode := rfl
@[simp] theorem State.csrStore_fatal (d : CsrDesc) (w : Word) : (s.csrStore d w).fatal = s.fatal := rfl
@[simp] theorem State.csrStore_bus (d : CsrDesc) (w : Word) : (s.csrStore d w).bus = s.bus := rfl
@[simp] theorem State.csrStore_resp (d : CsrDesc) (w : Word) : (s.csrStore d w).resp = s.resp := rfl
@[simp] theorem State.csrStore_iresp (d : CsrDesc) (w : Word) : (s.csrStore d w).iresp = s.iresp := rfl
@[simp] theorem State.csrStore_inputs (d : CsrDesc) (w : Word) : (s.csrStore d w).inputs = s.inputs := rfl
@[simp] theorem State.csrStore_script (d : CsrDesc) (w : Word) : (s.csrStore d w).script = s.script := rfl
@[simp] theorem State.csrStore_idle (d : CsrDesc) (w : Word) : (s.csrStore d w).idle = s.idle := rfl
@[simp] theorem State.csrStore_mem (d : CsrDesc) (w : Word) : (s.csrStore d w).mem = s.mem := rfl
@[simp] theorem State.csrStore_memData (d : CsrDesc) (w : Word) : (s.csrStore d w).memData = s.memData := rfl

/-! `setFpCell` -/
@[simp] theorem State.setFpCell_cfg (i : Nat) (w : Wide) : (s.setFpCell i w).cfg = s.cfg := rfl
@[simp] theorem State.setFpCell_x (i : Nat) (w : Wide) : (s.setFpCell i w).x = s.x := rfl
@[simp] theorem State.setFpCell_f (i : Nat) (w : Wide) : (s.setFpCell i w).f = s.f.setIfInBounds i w := rfl
@[simp] theorem State.setFpCell_v (i : Nat) (w : Wide) : (s.setFpCell i w).v = s.v := rfl
@[simp] theorem State.setFpCell_csr (i : Nat) (w : Wide) : (s.setFpCell i w).csr = s.csr := rfl
@[simp] theorem State.setFpCell_pc (i : Nat) (w : Wide) : (s.setFpCell i w).pc = s.pc := rfl
@[simp] theorem State.setFpCell_nextPc (i : Nat) (w : Wide) : (s.setFpCell i w).nextPc = s.nextPc := rfl
@[simp] theorem State.setFpCell_priv (i : Nat) (w : Wide) : (s.setFpCell i w).priv = s.priv := rfl
@[simp] theorem State.setFpCell_virt (i : Nat) (w : Wide) : (s.setFpCell i w).virt = s.virt := rfl
@[simp] theorem State.setFpCell_trap (i : Nat) (w : Wide) : (s.setFpCell i w).trap = s.trap := rfl
@[simp] theorem State.setFpCell_xp (i : Nat) (w : Wide) : (s.setFpCell i w).xp = s.xp := rfl
@[simp] theorem State.setFpCell_eng (i : Nat) (w : Wide) : (s.setFpCell i w).eng = s.eng := rfl
@[simp] theorem State.setFpCell_curInst (i : Nat) (w : Wide) : (s.setFpCell i w).curInst = s.curInst := rfl
@[simp] theorem State.setFpCell_xlateMode (i : Nat) (w : Wide) : (s.setFpCell i w).xlateMode = s.xlateMode := rfl
@[simp] theorem State.setFpCell_fatal (i : Nat) (w : Wide) : (s.setFpCell i w).fatal = s.fatal := rfl
@[simp] theorem State.setFpCell_bus (i : Nat) (w : Wide) : (s.setFpCell i w).bus = s.bus := rfl
@[simp] theorem State.setFpCell_resp (i : Nat) (w : Wide) : (s.setFpCell i w).resp = s.resp := rfl
@[simp] theorem State.setFpCell_iresp (i : Nat) (w : Wide) : (s.setFpCell i w).iresp = s.iresp := rfl
@[simp] theorem State.setFpCell_inputs (i : Nat) (w : Wide) : (s.setFpCell i w).inputs = s.inputs := rfl
@[simp] theorem State.setFpCell_script (i : Nat) (w : Wide) : (s.setFpCell i w).script = s.script := rfl
@[simp] theorem State.setFpCell_idle (i : Nat) (w : Wide) : (s.setFpCell i w).idle = s.idle := rfl
@[simp] theorem State.setFpCell_mem (i : Nat) (w : Wide) : (s.setFpCell i w).mem = s.mem := rfl
@[simp] theorem State.setFpCell_memData (i : Nat) (w : Wide) : (s.setFpCell i w).memData = s.memData := rfl

/-! `setVecCell` -/
@[simp] theorem State.setVecCell_cfg (i : Nat) (w : Wide) : (s.setVecCell i w).cfg = s.cfg := rfl
@[simp] theorem State.setVecCell_x (i : Nat) (w : Wide) : (s.setVecCell i w).x = s.x := rfl
@[simp] theorem State.setVecCell_f (i : Nat) (w : Wide) : (s.setVecCell i w).f = s.f := rfl
@[simp] theorem State.setVecCell_v (i : Nat) (w : Wide) : (s.setVecCell i w).v = s.v.setIfInBounds i w := rfl
@[simp] theorem State.setVecCell_csr (i : Nat) (w : Wide) : (s.setVecCell i w).csr = s.csr := rfl
@[simp] theorem State.setVecCell_pc (i : Nat) (w : Wide) : (s.setVecCell i w).pc = s.pc := rfl
@[simp] theorem State.setVecCell_nextPc (i : Nat) (w : Wide) : (s.setVecCell i w).nextPc = s.nextPc := rfl
@[simp] theorem State.setVecCell_priv (i : Nat) (w : Wide) : (s.setVecCell i w).priv = s.priv := rfl
@[simp] theorem State.setVecCell_virt (i : Nat) (w : Wide) : (s.setVecCell i w).virt = s.virt := rfl
@[simp] theorem State.setVecCell_trap (i : Nat) (w : Wide) : (s.setVecCell i w).trap = s.trap := rfl
@[simp] theorem State.setVecCell_xp (i : Nat) (w : Wide) : (s.setVecCell i w).xp = s.xp := rfl
@[simp] theorem State.setVecCell_eng (i : Nat) (w : Wide) : (s.setVecCell i w).eng = s.eng := rfl
@[simp] theorem State.setVecCell_curInst (i : Nat) (w : Wide) : (s.setVecCell i w).curInst = s.curInst := rfl
@[simp] theorem State.setVecCell_xlateMode (i : Nat) (w : Wide) : (s.setVecCell i w).xlateMode = s.xlateMode := rfl
@[simp] theorem State.setVecCell_fatal (i : Nat) (w : Wide) : (s.setVecCell i w).fatal = s.fatal := rfl
@[simp] theorem State.setVecCell_bus (i : Nat) (w : Wide) : (s.setVecCell i w).bus = s.bus := rfl
@[simp] theorem State.setVecCell_resp (i : Nat) (w : Wide) : (s.setVecCell i w).resp = s.resp := rfl
@[simp] theorem State.setVecCell_iresp (i : Nat) (w : Wide) : (s.setVecCell i w).iresp = s.iresp := rfl
@[simp] theorem State.setVecCell_inputs (i : Nat) (w : Wide) : (s.setVecCell i w).inputs = s.inputs := rfl
@[simp] theorem State.setVecCell_script (i : Nat) (w : Wide) : (s.setVecCell i w).script = s.script := rfl
@[simp] theorem State.setVecCell_idle (i : Nat) (w : Wide) : (s.setVecCell i w).idle = s.idle := rfl
@[simp] theorem State.setVecCell_mem (i : Nat) (w : Wide) : (s.setVecCell i w).mem = s.mem := rfl
@[simp] theorem State.setVecCell_memData (i : Nat) (w : Wide) : (s.setVecCell i w).memData = s.memData := rfl

/-! `dropRun` -/
@[simp] theorem State.dropRun_cfg : (s.dropRun).cfg = s.cfg := rfl
@[simp] theorem State.dropRun_x : (s.dropRun).x = s.x := rfl
@[simp] theorem State.dropRun_f : (s.dropRun).f = s.f := rfl
@[simp] theorem State.dropRun_v : (s.dropRun).v = s.v := rfl
@[simp] theorem State.dropRun_csr : (s.dropRun).csr = s.csr := rfl
@[simp] theorem State.dropRun_pc : (s.dropRun).pc = s.pc := rfl
@[simp] theorem State.dropRun_nextPc : (s.dropRun).nextPc = s.nextPc := rfl
@[simp] theorem State.dropRun_priv : (s.dropRun).priv = s.priv := rfl
@[simp] theorem State.dropRun_virt : (s.dropRun).virt = s.virt := rfl
@[simp] theorem State.dropRun_trap : (s.dropRun).trap = s.trap := rfl
@[simp] theorem State.dropRun_xp : (s.dropRun).xp = s.xp := rfl
@[simp] theorem State.dropRun_eng : (s.dropRun).eng = s.eng := rfl
@[simp] theorem State.dropRun_curInst : (s.dropRun).curInst = s.curInst := rfl
@[simp] theorem State.dropRun_xlateMode : (s.dropRun).xlateMode = s.xlateMode := rfl
@[simp] theorem State.dropRun_fatal : (s.dropRun).fatal = s.fatal := rfl
@[simp] theorem State.dropRun_bus : (s.dropRun).bus = s.bus := rfl
@[simp] theorem State.dropRun_resp : (s.dropRun).resp = s.resp := rfl
@[simp] theorem State.dropRun_iresp : (s.dropRun).iresp = s.iresp := rfl
@[simp] theorem State.dropRun_inputs : (s.dropRun).inputs = s.inputs := rfl
@[simp] theorem State.dropRun_script : (s.dropRun).script = s.script.tail := rfl
@[simp] theorem State.dropRun_idle : (s.dropRun).idle = s.idle := rfl
@[simp] theorem State.dropRun_mem : (s.dropRun).mem = s.mem := rfl
@[simp] theorem State.dropRun_memData : (s.dropRun).memData = s.memData := rfl

/-! `switchTo` -/
@[simp] theorem State.switchTo_cfg (p : Priv) : (s.switchTo p).cfg = s.cfg := rfl
@[simp] theorem State.switchTo_x (p : Priv) : (s.switchTo p).x = s.x := rfl
@[simp] theorem State.switchTo_f (p : Priv) : (s.switchTo p).f = s.f := rfl
@[simp] theorem State.switchTo_v (p : Priv) : (s.switchTo p).v = s.v := rfl
@[simp] theorem State.switchTo_csr (p : Priv) : (s.switchTo p).csr = s.csr := rfl
@[simp] theorem State.switchTo_pc (p : Priv) : (s.switchTo p).pc = s.pc := rfl
@[simp] theorem State.switchTo_nextPc (p : Priv) : (s.switchTo p).nextPc = s.nextPc := rfl
@[simp] theorem State.switchTo_priv (p : Priv) : (s.switchTo p).priv = p := rfl
@[simp] theorem State.switchTo_virt (p : Priv) : (s.switchTo p).virt = false := rfl
@[simp] theorem State.switchTo_trap (p : Priv) : (s.switchTo p).trap = s.trap := rfl
@[simp] theorem State.switchTo_xp (p : Priv) : (s.switchTo p).xp = s.xp := rfl
@[simp] theorem State.switchTo_eng (p : Priv) : (s.switchTo p).eng = s.eng := rfl
@[simp] theorem State.switchTo_curInst (p : Priv) : (s.switchTo p).curInst = s.curInst := rfl
@[simp] theorem State.switchTo_xlateMode (p : Priv) : (s.switchTo p).xlateMode = s.cfg.xlateMode p false s.csr := rfl
@[simp] theorem State.switchTo_fatal (p : Priv) : (s.switchTo p).fatal = s.fatal := rfl
@[simp] theorem State.switchTo_bus (p : Priv) : (s.switchTo p).bus = s.bus := rfl
@[simp] theorem State.switchTo_resp (p : Priv) : (s.switchTo p).resp = s.resp := rfl
@[simp] theorem State.switchTo_iresp (p : Priv) : (s.switchTo p).iresp = s.iresp := rfl
@[simp] theorem State.switchTo_inputs (p : Priv) : (s.switchTo p).inputs = s.inputs := rfl
@[simp] theorem State.switchTo_script (p : Priv) : (s.switchTo p).script = s.script := rfl
@[simp] theorem State.switchTo_idle (p : Priv) : (s.switchTo p).idle = s.idle := rfl
@[simp] theorem State.switchTo_mem (p : Priv) : (s.switchTo p).mem = s.mem := rfl
@[simp] theorem State.switchTo_memData (p : Priv) : (s.switchTo p).memData = s.memData := rfl

/-! `setIntCell`, which register 0 discards -/
@[simp] theorem State.setIntCell_cfg (i : Nat) (w : Word) : (s.setIntCell i w).cfg = s.cfg := by
  unfold State.setIntCell; split <;> rfl
theorem State.setIntCell_x (i : Nat) (w : Word) :
    (s.setIntCell i w).x = if i = 0 then s.x else s.x.setIfInBounds (i - 1) w := by
  unfold State.setIntCell; split <;> rfl
@[simp] theorem State.setIntCell_f (i : Nat) (w : Word) : (s.setIntCell i w).f = s.f := by
  unfold State.setIntCell; split <;> rfl
@[simp] theorem State.setIntCell_v (i : Nat) (w : Word) : (s.setIntCell i w).v = s.v := by
  unfold State.setIntCell; split <;> rfl
@[simp] theorem State.setIntCell_csr (i : Nat) (w : Word) : (s.setIntCell i w).csr = s.csr := by
  unfold State.setIntCell; split <;> rfl
@[simp] theorem State.setIntCell_pc (i : Nat) (w : Word) : (s.setIntCell i w).pc = s.pc := by
  unfold State.setIntCell; split <;> rfl
@[simp] theorem State.setIntCell_nextPc (i : Nat) (w : Word) : (s.setIntCell i w).nextPc = s.nextPc := by
  unfold State.setIntCell; split <;> rfl
@[simp] theorem State.setIntCell_priv (i : Nat) (w : Word) : (s.setIntCell i w).priv = s.priv := by
  unfold State.setIntCell; split <;> rfl
@[simp] theorem State.setIntCell_virt (i : Nat) (w : Word) : (s.setIntCell i w).virt = s.virt := by
  unfold State.setIntCell; split <;> rfl
@[simp] theorem State.setIntCell_trap (i : Nat) (w : Word) : (s.setIntCell i w).trap = s.trap := by
  unfold State.setIntCell; split <;> rfl
@[simp] theorem State.setIntCell_xp (i : Nat) (w : Word) : (s.setIntCell i w).xp = s.xp := by
  unfold State.setIntCell; split <;> rfl
@[simp] theorem State.setIntCell_eng (i : Nat) (w : Word) : (s.setIntCell i w).eng = s.eng := by
  unfold State.setIntCell; split <;> rfl
@[simp] theorem State.setIntCell_curInst (i : Nat) (w : Word) : (s.setIntCell i w).curInst = s.curInst := by
  unfold State.setIntCell; split <;> rfl
@[simp] theorem State.setIntCell_xlateMode (i : Nat) (w : Word) : (s.setIntCell i w).xlateMode = s.xlateMode := by
  unfold State.setIntCell; split <;> rfl
@[simp] theorem State.setIntCell_fatal (i : Nat) (w : Word) : (s.setIntCell i w).fatal = s.fatal := by
  unfold State.setIntCell; split <;> rfl
@[simp] theorem State.setIntCell_bus (i : Nat) (w : Word) : (s.setIntCell i w).bus = s.bus := by
  unfold State.setIntCell; split <;> rfl
@[simp] theorem State.setIntCell_resp (i : Nat) (w : Word) : (s.setIntCell i w).resp = s.resp := by
  unfold State.setIntCell; split <;> rfl
@[simp] theorem State.setIntCell_iresp (i : Nat) (w : Word) : (s.setIntCell i w).iresp = s.iresp := by
  unfold State.setIntCell; split <;> rfl
@[simp] theorem State.setIntCell_inputs (i : Nat) (w : Word) : (s.setIntCell i w).inputs = s.inputs := by
  unfold State.setIntCell; split <;> rfl
@[simp] theorem State.setIntCell_script (i : Nat) (w : Word) : (s.setIntCell i w).script = s.script := by
  unfold State.setIntCell; split <;> rfl
@[simp] theorem State.setIntCell_idle (i : Nat) (w : Word) : (s.setIntCell i w).idle = s.idle := by
  unfold State.setIntCell; split <;> rfl
@[simp] theorem State.setIntCell_mem (i : Nat) (w : Word) : (s.setIntCell i w).mem = s.mem := by
  unfold State.setIntCell; split <;> rfl
@[simp] theorem State.setIntCell_memData (i : Nat) (w : Word) : (s.setIntCell i w).memData = s.memData := by
  unfold State.setIntCell; split <;> rfl

/-! `csrWrite` and `fieldWrite`, which write the CSR file alone -/
@[simp] theorem State.csrWrite_cfg (d : CsrDesc) (w : Word) : (s.csrWrite d w).cfg = s.cfg := rfl
@[simp] theorem State.fieldWrite_cfg (d : CsrDesc) (f : CsrField) (w : Word) : (s.fieldWrite d f w).cfg = s.cfg := rfl
@[simp] theorem State.csrWrite_x (d : CsrDesc) (w : Word) : (s.csrWrite d w).x = s.x := rfl
@[simp] theorem State.fieldWrite_x (d : CsrDesc) (f : CsrField) (w : Word) : (s.fieldWrite d f w).x = s.x := rfl
@[simp] theorem State.csrWrite_f (d : CsrDesc) (w : Word) : (s.csrWrite d w).f = s.f := rfl
@[simp] theorem State.fieldWrite_f (d : CsrDesc) (f : CsrField) (w : Word) : (s.fieldWrite d f w).f = s.f := rfl
@[simp] theorem State.csrWrite_v (d : CsrDesc) (w : Word) : (s.csrWrite d w).v = s.v := rfl
@[simp] theorem State.fieldWrite_v (d : CsrDesc) (f : CsrField) (w : Word) : (s.fieldWrite d f w).v = s.v := rfl
theorem State.csrWrite_csr (d : CsrDesc) (w : Word) :
    (s.csrWrite d w).csr = s.csr.set d.number (maskedMerge d.mask (s.csr.get d.number) w) := rfl
theorem State.fieldWrite_csr (d : CsrDesc) (f : CsrField) (w : Word) :
    (s.fieldWrite d f w).csr = s.csr.set d.number
      (maskedMerge d.mask (s.csr.get d.number) (fieldInsert f.low f.high (s.csr.get d.number) w)) := rfl
@[simp] theorem State.csrWrite_pc (d : CsrDesc) (w : Word) : (s.csrWrite d w).pc = s.pc := rfl
@[simp] theorem State.fieldWrite_pc (d : CsrDesc) (f : CsrField) (w : Word) : (s.fieldWrite d f w).pc = s.pc := rfl
@[simp] theorem State.csrWrite_nextPc (d : CsrDesc) (w : Word) : (s.csrWrite d w).nextPc = s.nextPc := rfl
@[simp] theorem State.fieldWrite_nextPc (d : CsrDesc) (f : CsrField) (w : Word) : (s.fieldWrite d f w).nextPc = s.nextPc := rfl
@[simp] theorem State.csrWrite_priv (d : CsrDesc) (w : Word) : (s.csrWrite d w).priv = s.priv := rfl
@[simp] theorem State.fieldWrite_priv (d : CsrDesc) (f : CsrField) (w : Word) : (s.fieldWrite d f w).priv = s.priv := rfl
@[simp] theorem State.csrWrite_virt (d : CsrDesc) (w : Word) : (s.csrWrite d w).virt = s.virt := rfl
@[simp] theorem State.fieldWrite_virt (d : CsrDesc) (f : CsrField) (w : Word) : (s.fieldWrite d f w).virt = s.virt := rfl
@[simp] theorem State.csrWrite_trap (d : CsrDesc) (w : Word) : (s.csrWrite d w).trap = s.trap := rfl
@[simp] theorem State.fieldWrite_trap (d : CsrDesc) (f : CsrField) (w : Word) : (s.fieldWrite d f w).trap = s.trap := rfl
@[simp] theorem State.csrWrite_xp (d : CsrDesc) (w : Word) : (s.csrWrite d w).xp = s.xp := rfl
@[simp] theorem State.fieldWrite_xp (d : CsrDesc) (f : CsrField) (w : Word) : (s.fieldWrite d f w).xp = s.xp := rfl
@[simp] theorem State.csrWrite_eng (d : CsrDesc) (w : Word) : (s.csrWrite d w).eng = s.eng := rfl
@[simp] theorem State.fieldWrite_eng (d : CsrDesc) (f : CsrField) (w : Word) : (s.fieldWrite d f w).eng = s.eng := rfl
@[simp] theorem State.csrWrite_curInst (d : CsrDesc) (w : Word) : (s.csrWrite d w).curInst = s.curInst := rfl
@[simp] theorem State.fieldWrite_curInst (d : CsrDesc) (f : CsrField) (w : Word) : (s.fieldWrite d f w).curInst = s.curInst := rfl
@[simp] theorem State.csrWrite_xlateMode (d : CsrDesc) (w : Word) : (s.csrWrite d w).xlateMode = s.xlateMode := rfl
@[simp] theorem State.fieldWrite_xlateMode (d : CsrDesc) (f : CsrField) (w : Word) : (s.fieldWrite d f w).xlateMode = s.xlateMode := rfl
@[simp] theorem State.csrWrite_fatal (d : CsrDesc) (w : Word) : (s.csrWrite d w).fatal = s.fatal := rfl
@[simp] theorem State.fieldWrite_fatal (d : CsrDesc) (f : CsrField) (w : Word) : (s.fieldWrite d f w).fatal = s.fatal := rfl
@[simp] theorem State.csrWrite_bus (d : CsrDesc) (w : Word) : (s.csrWrite d w).bus = s.bus := rfl
@[simp] theorem State.fieldWrite_bus (d : CsrDesc) (f : CsrField) (w : Word) : (s.fieldWrite d f w).bus = s.bus := rfl
@[simp] theorem State.csrWrite_resp (d : CsrDesc) (w : Word) : (s.csrWrite d w).resp = s.resp := rfl
@[simp] theorem State.fieldWrite_resp (d : CsrDesc) (f : CsrField) (w : Word) : (s.fieldWrite d f w).resp = s.resp := rfl
@[simp] theorem State.csrWrite_iresp (d : CsrDesc) (w : Word) : (s.csrWrite d w).iresp = s.iresp := rfl
@[simp] theorem State.fieldWrite_iresp (d : CsrDesc) (f : CsrField) (w : Word) : (s.fieldWrite d f w).iresp = s.iresp := rfl
@[simp] theorem State.csrWrite_inputs (d : CsrDesc) (w : Word) : (s.csrWrite d w).inputs = s.inputs := rfl
@[simp] theorem State.fieldWrite_inputs (d : CsrDesc) (f : CsrField) (w : Word) : (s.fieldWrite d f w).inputs = s.inputs := rfl
@[simp] theorem State.csrWrite_script (d : CsrDesc) (w : Word) : (s.csrWrite d w).script = s.script := rfl
@[simp] theorem State.fieldWrite_script (d : CsrDesc) (f : CsrField) (w : Word) : (s.fieldWrite d f w).script = s.script := rfl
@[simp] theorem State.csrWrite_idle (d : CsrDesc) (w : Word) : (s.csrWrite d w).idle = s.idle := rfl
@[simp] theorem State.fieldWrite_idle (d : CsrDesc) (f : CsrField) (w : Word) : (s.fieldWrite d f w).idle = s.idle := rfl
@[simp] theorem State.csrWrite_mem (d : CsrDesc) (w : Word) : (s.csrWrite d w).mem = s.mem := rfl
@[simp] theorem State.fieldWrite_mem (d : CsrDesc) (f : CsrField) (w : Word) : (s.fieldWrite d f w).mem = s.mem := rfl
@[simp] theorem State.csrWrite_memData (d : CsrDesc) (w : Word) : (s.csrWrite d w).memData = s.memData := rfl
@[simp] theorem State.fieldWrite_memData (d : CsrDesc) (f : CsrField) (w : Word) : (s.fieldWrite d f w).memData = s.memData := rfl

end

end Sys2Proof.Machine
end

