-- ==== Sys2Proof/Laws/Csr.lean ====
section
/-!
SUPPORT. The CSR file as a map, descriptors found by number and by name, and what the construction check gives.
-/

namespace Sys2Proof.Machine

/-! ### The CSR file -/

@[simp] theorem CsrFile.get_set_same (r : CsrFile) (n : Nat) (w : Word) :
    CsrFile.get (CsrFile.set r n w) n = w := by
  induction r with
  | nil => simp [CsrFile.set, CsrFile.get]
  | cons c r ih =>
    obtain ⟨k, v⟩ := c
    by_cases h : k = n <;> simp [CsrFile.set, CsrFile.get, h, ih]

theorem CsrFile.get_set_other (r : CsrFile) {n m : Nat} (w : Word) (h : m ≠ n) :
    CsrFile.get (CsrFile.set r n w) m = CsrFile.get r m := by
  induction r with
  | nil => simp [CsrFile.set, CsrFile.get, Ne.symm h]
  | cons c r ih =>
    obtain ⟨k, v⟩ := c
    by_cases hk : k = n
    · subst hk; simp [CsrFile.set, CsrFile.get, Ne.symm h]
    · simp [CsrFile.set, CsrFile.get, hk, ih]

theorem CsrFile.get_set (r : CsrFile) (n m : Nat) (w : Word) :
    CsrFile.get (CsrFile.set r n w) m = if m = n then w else CsrFile.get r m := by
  by_cases h : m = n
  · subst h; simp
  · simp [h, CsrFile.get_set_other r w h]

/-- Writing a cell that is there keeps the list of cells. -/
theorem CsrFile.keys_set {r : CsrFile} {n : Nat} (w : Word) (h : n ∈ r.map Prod.fst) :
    (CsrFile.set r n w).map Prod.fst = r.map Prod.fst := by
  induction r with
  | nil => simp at h
  | cons c r ih =>
    obtain ⟨k, v⟩ := c
    by_cases hk : k = n
    · simp [CsrFile.set, hk]
    · have : n ∈ r.map Prod.fst := by
        have h2 := h
        simp only [List.map_cons, List.mem_cons] at h2
        exact h2.resolve_left (fun e => hk e.symm)
      simp [CsrFile.set, hk, ih this]

/-- A property of every stored value is kept by storing a value that has it. -/
theorem CsrFile.all_set {r : CsrFile} {p : Word → Bool} {n : Nat} {w : Word} (h : r.all (fun c => p c.2) = true)
    (hw : p w = true) : (CsrFile.set r n w).all (fun c => p c.2) = true := by
  induction r with
  | nil => simp [CsrFile.set, hw]
  | cons c r ih =>
    obtain ⟨k, v⟩ := c
    simp only [List.all_cons, Bool.and_eq_true] at h
    by_cases hk : k = n
    · simp [CsrFile.set, hk, hw, h.2]
    · simp [CsrFile.set, hk, h.1, ih h.2]

theorem CsrFile.get_of_all {r : CsrFile} {p : Word → Bool} (n : Nat) (h : r.all (fun c => p c.2) = true)
    (h0 : p 0#64 = true) : p (CsrFile.get r n) = true := by
  induction r with
  | nil => exact h0
  | cons c r ih =>
    obtain ⟨k, v⟩ := c
    simp only [List.all_cons, Bool.and_eq_true] at h
    by_cases hk : k = n
    · simpa [CsrFile.get, hk] using h.1
    · simpa [CsrFile.get, hk] using ih h.2

end Sys2Proof.Machine

namespace Sys2Proof

/-! ### Descriptors -/

theorem Config.desc_number {c : Config} {n : Nat} {d : CsrDesc} (h : c.desc n = some d) : d.number = n := by
  simpa using List.find?_some h

theorem Config.desc_mem {c : Config} {n : Nat} {d : CsrDesc} (h : c.desc n = some d) : d ∈ c.csrTab :=
  List.mem_of_find?_eq_some h

theorem Config.descNamed_mem {c : Config} {nm : CsrName} {d : CsrDesc} (h : c.descNamed nm = some d) :
    d ∈ c.csrTab :=
  List.mem_of_find?_eq_some h

theorem CsrDesc.fieldNamed_mem {d : CsrDesc} {nm : FieldName} {f : CsrField} (h : d.fieldNamed nm = some f) :
    f ∈ d.fields :=
  List.mem_of_find?_eq_some h

/-! ### What the construction check gives (41_csr R111) -/

theorem noRepeats_iff {α : Type} [DecidableEq α] (l : List α) : noRepeats l = true ↔ l.Nodup := by
  induction l with
  | nil => simp [noRepeats]
  | cons a l ih => simp [noRepeats, ih]

theorem Config.ok_csrTab {c : Config} (h : c.ok = true) : c.csrTabOk = true := by
  simp only [Config.ok, Bool.and_eq_true] at h; exact h.1

theorem Config.ok_graph {c : Config} (h : c.ok = true) : c.graphOk = true := by
  simp only [Config.ok, Bool.and_eq_true] at h; exact h.2

/-- Every descriptor of a checked table passes its own check. -/
theorem Config.desc_ok {c : Config} {d : CsrDesc} (h : c.ok = true) (hd : d ∈ c.csrTab) :
    d.ok c.xlen = true := by
  have := Config.ok_csrTab h
  simp only [Config.csrTabOk, Bool.and_eq_true, List.all_eq_true] at this
  exact this.2 d hd

/-- Every field of a checked table lies within XLEN bits. -/
theorem Config.field_range {c : Config} {d : CsrDesc} {f : CsrField} (h : c.ok = true) (hd : d ∈ c.csrTab)
    (hf : f ∈ d.fields) : f.low ≤ f.high ∧ f.high < c.xlen.bits := by
  have := Config.desc_ok h hd
  simp only [CsrDesc.ok, Bool.and_eq_true, List.all_eq_true] at this
  have := this.1.1.2 f hf
  simpa [CsrField.ok] using this

/-- Two descriptors of a checked table with one number are one descriptor. -/
theorem Config.desc_unique {c : Config} {d e : CsrDesc} (h : c.ok = true) (hd : d ∈ c.csrTab) (he : e ∈ c.csrTab)
    (hn : d.number = e.number) : d = e := by
  have := Config.ok_csrTab h
  simp only [Config.csrTabOk, Bool.and_eq_true, noRepeats_iff] at this
  exact List.inj_on_of_nodup_map this.1 hd he hn

/-- A `next` link of a checked graph names a group (42_engine R139). -/
theorem Config.link_lt {c : Config} {g t : Nat} {grp : Group} (h : c.ok = true) (hg : c.graph[g]? = some grp)
    (ht : grp.next = some t) : t < c.graph.length := by
  have := Config.ok_graph h
  simp only [Config.graphOk, Bool.and_eq_true, List.all_eq_true] at this
  have := this.1.1.1 grp (List.mem_of_getElem? hg)
  simpa [Group.linkOk, ht] using this

theorem Config.entry_lt {c : Config} (h : c.ok = true) : c.entry < c.graph.length := by
  have := Config.ok_graph h
  simp only [Config.graphOk, Bool.and_eq_true, decide_eq_true_eq] at this
  exact this.1.1.2

theorem Config.findField_mem {c : Config} {n fid : Nat} {p : CsrDesc × CsrField} (h : c.findField n fid = .ok p) :
    p.1 ∈ c.csrTab ∧ p.2 ∈ p.1.fields ∧ p.1.number = n := by
  unfold Config.findField at h
  split at h
  · cases h
  · rename_i d hd
    split at h
    · cases h
    · rename_i f hf
      cases h
      exact ⟨Config.desc_mem hd, List.mem_of_getElem? hf, Config.desc_number hd⟩

end Sys2Proof
end

