-- ==== Sys2Proof/Laws/Mem.lean ====
section
/-!
SUPPORT. The external store: a byte read after a byte stored, the canonical form kept by every write, and what a write of
several bytes leaves alone (20_memory R51, R53; log entries 16 to 18).
-/

namespace Sys2Proof.Machine

theorem Memory.byte_setByte_same (m : Memory) (k : Nat) (v : Byte) (h : Memory.wf m = true) :
    (m.setByte k v).byte k = v := by
  have key : ∀ (j : Nat) (m : Memory), Memory.risingFrom j m = true → (m.setByte k v).byte k = v := by
    intro j m
    induction m generalizing j with
    | nil =>
      intro _
      by_cases hv : v = Memory.blank <;> simp [Memory.setByte, Memory.byte, hv]
    | cons c m ih =>
      obtain ⟨a, b⟩ := c
      intro hr
      simp only [Memory.risingFrom, Bool.and_eq_true, decide_eq_true_eq] at hr
      have above : ∀ (i : Nat) (l : Memory), Memory.risingFrom i l = true → k < i → l.byte k = Memory.blank := by
        intro i l
        induction l generalizing i with
        | nil => intros; rfl
        | cons d l il =>
          obtain ⟨e, w⟩ := d
          intro hl hk
          simp only [Memory.risingFrom, Bool.and_eq_true, decide_eq_true_eq] at hl
          rw [Memory.byte, if_neg (by omega), il (e + 1) hl.2 (by omega)]
      by_cases h1 : k < a
      · by_cases hv : v = Memory.blank
        · simp only [Memory.setByte, h1, hv, if_true, Memory.byte]
          rw [if_neg (by omega), above (a + 1) m hr.2 (by omega)]
        · simp [Memory.setByte, Memory.byte, h1, hv]
      · by_cases h2 : a = k
        · subst h2
          by_cases hv : v = Memory.blank
          · simpa [Memory.setByte, hv] using above (a + 1) m hr.2 (by omega)
          · simp [Memory.setByte, Memory.byte, hv]
        · simp only [Memory.setByte, h1, h2, if_false, Memory.byte]
          exact ih (a + 1) hr.2
  simp only [Memory.wf, Bool.and_eq_true] at h
  exact key 0 m h.1

theorem Memory.byte_setByte_other (m : Memory) {k j : Nat} (v : Byte) (h : j ≠ k) :
    (m.setByte k v).byte j = m.byte j := by
  induction m with
  | nil => by_cases hv : v = Memory.blank <;> simp [Memory.setByte, Memory.byte, hv, Ne.symm h]
  | cons c m ih =>
    obtain ⟨a, b⟩ := c
    by_cases h1 : k < a
    · by_cases hv : v = Memory.blank <;> simp [Memory.setByte, Memory.byte, h1, hv, Ne.symm h]
    · by_cases h2 : a = k
      · subst h2
        by_cases hv : v = Memory.blank <;> simp [Memory.setByte, Memory.byte, hv, Ne.symm h]
      · simp [Memory.setByte, Memory.byte, h1, h2, ih]

/-! ### The canonical form -/

theorem Memory.risingFrom_mono {i j : Nat} {m : Memory} (h : i ≤ j) (hm : Memory.risingFrom j m = true) :
    Memory.risingFrom i m = true := by
  cases m with
  | nil => rfl
  | cons c m =>
    obtain ⟨a, b⟩ := c
    simp only [Memory.risingFrom, Bool.and_eq_true, decide_eq_true_eq] at hm ⊢
    exact ⟨⟨by omega, hm.1.2⟩, hm.2⟩

theorem Memory.risingFrom_setByte {j k : Nat} {m : Memory} (v : Byte) (hj : j ≤ k)
    (hm : Memory.risingFrom j m = true) : Memory.risingFrom j (m.setByte k v) = true := by
  induction m generalizing j with
  | nil => by_cases hv : v = Memory.blank <;> simp [Memory.setByte, Memory.risingFrom, hv, hj]
  | cons c m ih =>
    obtain ⟨a, b⟩ := c
    have hm' := hm
    simp only [Memory.risingFrom, Bool.and_eq_true, decide_eq_true_eq] at hm'
    by_cases h1 : k < a
    · by_cases hv : v = Memory.blank
      · simpa [Memory.setByte, h1, hv] using hm
      · simp only [Memory.setByte, h1, hv, if_true, if_false, Memory.risingFrom, Bool.and_eq_true, decide_eq_true_eq]
        exact ⟨⟨hj, hv⟩, ⟨by omega, hm'.1.2⟩, hm'.2⟩
    · by_cases h2 : a = k
      · subst h2
        by_cases hv : v = Memory.blank
        · simpa [Memory.setByte, hv] using Memory.risingFrom_mono (show j ≤ a + 1 by omega) hm'.2
        · simp [Memory.setByte, Memory.risingFrom, hv, hj, hm'.2]
      · simp only [Memory.setByte, h1, h2, if_false, Memory.risingFrom, Bool.and_eq_true, decide_eq_true_eq]
        exact ⟨hm'.1, ih (by omega) hm'.2⟩

theorem Memory.all_setByte {p : Host.Cell → Bool} {m : Memory} {k : Nat} {v : Byte} (hm : m.all p = true)
    (hp : p (k, v) = true) : (m.setByte k v).all p = true := by
  induction m with
  | nil => by_cases hv : v = Memory.blank <;> simp [Memory.setByte, hv, hp]
  | cons c m ih =>
    obtain ⟨a, b⟩ := c
    have hm' := hm
    simp only [List.all_cons, Bool.and_eq_true] at hm'
    by_cases h1 : k < a
    · by_cases hv : v = Memory.blank
      · simpa [Memory.setByte, h1, hv] using hm'
      · simp only [Memory.setByte, h1, hv, if_true, if_false, List.all_cons, Bool.and_eq_true]
        exact ⟨hp, hm'.1, hm'.2⟩
    · by_cases h2 : a = k
      · subst h2
        by_cases hv : v = Memory.blank
        · simpa [Memory.setByte, hv] using hm'.2
        · simp only [Memory.setByte, hv, lt_irrefl, if_true, if_false, List.all_cons, Bool.and_eq_true]
          exact ⟨hp, hm'.2⟩
      · simp only [Memory.setByte, h1, h2, if_false, List.all_cons, Bool.and_eq_true]
        exact ⟨hm'.1, ih hm'.2⟩

/-- Storing a byte keeps the canonical form. -/
theorem Memory.wf_setByte {m : Memory} {k : Nat} {v : Byte} (hm : m.wf = true) (hk : k < 2 ^ 64) :
    (m.setByte k v).wf = true := by
  simp only [Memory.wf, Bool.and_eq_true] at hm ⊢
  exact ⟨Memory.risingFrom_setByte v (Nat.zero_le k) hm.1, Memory.all_setByte hm.2 (by simpa using hk)⟩

theorem Memory.nextAddr_lt (a : Nat) : Memory.nextAddr a < 2 ^ 64 := Nat.mod_lt _ (by norm_num)

/-- A write of any number of bytes keeps the canonical form. -/
theorem Memory.wf_write {m : Memory} {a n : Nat} {v : Wide} (hm : m.wf = true) (ha : a < 2 ^ 64) :
    (m.write a n v).wf = true := by
  induction n generalizing m a v with
  | zero => exact hm
  | succ n ih => exact ih (Memory.wf_setByte hm ha) (Memory.nextAddr_lt a)

/-- A byte outside the written ones reads as before. -/
theorem Memory.byte_write_other {m : Memory} {a n : Nat} {v : Wide} {b : Nat} (hb : b ∉ Memory.span a n) :
    (m.write a n v).byte b = m.byte b := by
  induction n generalizing m a v with
  | zero => rfl
  | succ n ih =>
    simp only [Memory.span, List.mem_cons, not_or] at hb
    rw [Memory.write, ih hb.2, Memory.byte_setByte_other _ _ hb.1]

/-! ### The addresses of an access -/

/-- Byte number `k` of an access at `a` (20_memory R53; the wrap is log entry 18). -/
theorem Memory.mem_span {a n b : Nat} (ha : a < 2 ^ 64) :
    b ∈ Memory.span a n ↔ ∃ k, k < n ∧ b = (a + k) % 2 ^ 64 := by
  induction n generalizing a with
  | zero => simp [Memory.span]
  | succ n ih =>
    rw [Memory.span, List.mem_cons, ih (Memory.nextAddr_lt a), Memory.nextAddr]
    constructor
    · rintro (rfl | ⟨k, hk, rfl⟩)
      · exact ⟨0, by omega, by rw [Nat.add_zero, Nat.mod_eq_of_lt ha]⟩
      · exact ⟨k + 1, by omega, by rw [Nat.mod_add_mod]; congr 1; omega⟩
    · rintro ⟨k, hk, rfl⟩
      cases k with
      | zero => exact .inl (by rw [Nat.add_zero, Nat.mod_eq_of_lt ha])
      | succ k => exact .inr ⟨k, by omega, by rw [Nat.mod_add_mod]; congr 1; omega⟩

/-- Byte number `k` of a value written lies at `a + k` (20_memory R53). -/
theorem Memory.byte_write {m : Memory} {a n k : Nat} {v : Wide} (hm : m.wf = true) (ha : a < 2 ^ 64) (hk : k < n)
    (hn : n ≤ 2 ^ 64) : ((m.write a n v).byte ((a + k) % 2 ^ 64)).toNat = v / 256 ^ k % 256 := by
  induction n generalizing m a v k with
  | zero => omega
  | succ n ih =>
    cases k with
    | zero =>
      have hout : a ∉ Memory.span (Memory.nextAddr a) n := by
        rw [Memory.mem_span (Memory.nextAddr_lt a)]
        rintro ⟨j, hj, e⟩
        simp only [Memory.nextAddr, Nat.mod_add_mod] at e
        omega
      have ha0 : (a + 0) % 2 ^ 64 = a := Nat.mod_eq_of_lt ha
      rw [ha0, Memory.write, Memory.byte_write_other hout, Memory.byte_setByte_same _ _ _ hm]
      simp
    | succ k =>
      have := ih (m := m.setByte a (BitVec.ofNat 8 v)) (a := Memory.nextAddr a) (v := v / 256) (k := k)
        (Memory.wf_setByte hm ha) (Memory.nextAddr_lt a) (by omega) (by omega)
      have hk1 : (Memory.nextAddr a + k) % 2 ^ 64 = (a + (k + 1)) % 2 ^ 64 := by
        rw [Memory.nextAddr, Nat.mod_add_mod, show a + 1 + k = a + (k + 1) by omega]
      rw [hk1] at this
      rw [Memory.write, this, Nat.div_div_eq_div_mul, pow_succ', Nat.mul_comm]

/-- A read is the sum of its bytes, so two stores that agree on them read alike. -/
theorem Memory.read_eq_mod {m : Memory} {a n : Nat} {v : Wide}
    (h : ∀ k, k < n → (m.byte ((a + k) % 2 ^ 64)).toNat = v / 256 ^ k % 256) (ha : a < 2 ^ 64) :
    m.read a n = v % 256 ^ n := by
  induction n generalizing a v with
  | zero => simp [Memory.read, Nat.mod_one]
  | succ n ih =>
    have h0 := h 0 (by omega)
    rw [Nat.add_zero, Nat.mod_eq_of_lt ha] at h0
    have hs := ih (a := Memory.nextAddr a) (v := v / 256) (fun k hk => by
      have := h (k + 1) (by omega)
      rw [Memory.nextAddr, Nat.mod_add_mod, show a + 1 + k = a + (k + 1) by omega, this, Nat.div_div_eq_div_mul,
        pow_succ', Nat.mul_comm]) (Memory.nextAddr_lt a)
    rw [Memory.read, h0, hs, pow_succ', Nat.mod_mul]
    simp

/-- Reading back what was written (20_memory R51). -/
theorem Memory.read_write {m : Memory} {a n : Nat} {v : Wide} (hm : m.wf = true) (ha : a < 2 ^ 64) (hn : n ≤ 2 ^ 64) :
    (m.write a n v).read a n = v % 256 ^ n :=
  Memory.read_eq_mod (fun _ hk => Memory.byte_write hm ha hk hn) ha

end Sys2Proof.Machine
end

