-- ==== Sys2Proof/Laws/Ops.lean ====
section
/-!
SUPPORT. What each shared operation can do: one lemma saying what it leaves alone, one saying that it keeps the cells'
widths and the slot in order. Provers cite these and never unfold the operation.
-/

namespace Sys2Proof.Machine

/-! ### A command -/

/-- A command ends in one of three next states, never in a fault or a refusal. -/
theorem command_cases {s t : State} {op : State → OpResult} (h : command s op = .next t) :
    (∃ c, s.fatal = some c ∧ t = s.refuse c) ∨
    (∃ u r, s.fatal = none ∧ op s = .ok u r ∧ t = u.respond r) ∨
    (∃ c, s.fatal = none ∧ op s = .fatal c ∧ t = s.latch c) := by
  unfold command at h
  split at h
  · rename_i c hc; cases h; exact .inl ⟨c, hc, rfl⟩
  · rename_i hn
    split at h
    · rename_i u r ho; cases h; exact .inr (.inl ⟨u, r, hn, ho, rfl⟩)
    · rename_i c ho; cases h; exact .inr (.inr ⟨c, hn, ho, rfl⟩)

theorem command_answers (s : State) (op : State → OpResult) : ∃ t, command s op = .next t := by
  unfold command
  split
  · exact ⟨_, rfl⟩
  · split <;> exact ⟨_, rfl⟩

theorem command_latched {s : State} {c : FatalCode} (h : s.fatal = some c) (op : State → OpResult) :
    command s op = .next (s.refuse c) := by
  simp only [command, h]

theorem command_of_ok {s u : State} {op : State → OpResult} {r : Response} (h : s.fatal = none) (ho : op s = .ok u r) :
    command s op = .next (u.respond r) := by
  simp only [command, h, ho]

theorem command_of_fatal {s : State} {op : State → OpResult} {c : FatalCode} (h : s.fatal = none)
    (ho : op s = .fatal c) : command s op = .next (s.latch c) := by
  simp only [command, h, ho]

/-! ### What the operations leave alone -/

/-- A register read finds a value or the fatal of the case table (40_regfile R91). -/
theorem readReg_eq (s : State) (cls : RegClass) (idx : Nat) :
    opRead cls idx s = (match s.readReg cls idx with
      | .error c => .fatal c
      | .ok v => .ok s (Response.ofData v)) := rfl

theorem opRead_ok {s t : State} {cls : RegClass} {idx : Nat} {r : Response} (h : opRead cls idx s = .ok t r) : t = s := by
  unfold opRead at h
  split at h
  · cases h
  · cases h; rfl

theorem State.setIntCell_frame (s : State) (i : Nat) (w : Word) : s.setIntCell i w = { s with x := (s.setIntCell i w).x } := by
  unfold State.setIntCell
  split <;> rfl

/-- A register write changes the register file alone (40_regfile R94). -/
theorem writeReg_frame {s t : State} {store : State → CsrDesc → Word → State} {cls : RegClass} {idx : Nat} {w : Wide}
    (hst : ∀ d v, store s d v = { s with csr := (store s d v).csr }) (h : s.writeReg store cls idx w = .ok t) :
    t = { s with x := t.x, f := t.f, v := t.v, csr := t.csr } := by
  cases cls with
  | int =>
    simp only [State.writeReg] at h
    split at h
    · cases h
    · cases h; rw [State.setIntCell_frame]
  | fp =>
    simp only [State.writeReg] at h
    split at h
    · cases h
    · cases h; rfl
  | vec =>
    simp only [State.writeReg] at h
    split at h
    · cases h
    · cases h; rfl
  | csr =>
    simp only [State.writeReg] at h
    split at h
    · cases h
    · cases h; rw [hst]

theorem opWrite_ok {s t : State} {cls : RegClass} {idx : Nat} {b : Bus} {r : Response}
    (h : opWrite cls idx b s = .ok t r) : t = { s with x := t.x, f := t.f, v := t.v, csr := t.csr } := by
  unfold opWrite at h
  split at h
  · cases h
  · rename_i u hu; cases h; exact writeReg_frame (fun _ _ => rfl) hu

theorem opWriteDirect_ok {s t : State} {cls : RegClass} {idx : Nat} {b : Bus} {r : Response}
    (h : opWriteDirect cls idx b s = .ok t r) : t = { s with x := t.x, f := t.f, v := t.v, csr := t.csr } := by
  unfold opWriteDirect at h
  split at h
  · cases h
  · rename_i u hu; cases h; exact writeReg_frame (fun _ _ => rfl) hu

theorem opFieldRead_ok {s t : State} {idx fid : Nat} {r : Response} (h : opFieldRead idx fid s = .ok t r) : t = s := by
  unfold opFieldRead at h
  split at h
  · cases h
  · cases h; rfl

theorem opFieldWrite_ok {s t : State} {idx fid : Nat} {b : Bus} {r : Response} (h : opFieldWrite idx fid b s = .ok t r) :
    t = { s with csr := t.csr } := by
  unfold opFieldWrite at h
  split at h
  · cases h
  · cases h; rfl

theorem opRequest_ok {s t : State} {b : Bus} {r : Response} (h : opRequest b s = .ok t r) :
    s.xp.state = .idle ∧ r = Response.ok ∧
      t = { s with xp := { s.xp with state := .requested, vaddr := b.arg0, size := b.arg1.setWidth 8 } } := by
  unfold opRequest at h
  split at h
  · rename_i hx; cases h; exact ⟨hx, rfl, rfl⟩
  · cases h
  · cases h

theorem opResolve_ok {s t : State} {b : Bus} {r : Response} (h : opResolve b s = .ok t r) :
    s.xp.state = .requested ∧ r = Response.ok ∧
      t = { s with xp := { s.xp with state := .resolved, paddr := b.arg0, misalign := b.arg1 } } := by
  unfold opResolve at h
  split at h
  · cases h
  · rename_i hx; cases h; exact ⟨hx, rfl, rfl⟩
  · cases h

theorem opResult_ok {s t : State} {r : Response} (h : opResult s = .ok t r) :
    s.xp.state = .resolved ∧ r = s.xp.triple ∧ t = s := by
  unfold opResult at h
  split at h
  · cases h
  · cases h
  · rename_i hx; cases h; exact ⟨hx, rfl, rfl⟩

theorem opPopResult_ok {s t : State} {r : Response} (h : opPopResult s = .ok t r) :
    s.xp.state = .resolved ∧ r = s.xp.triple ∧ t = { s with xp := { s.xp with state := .idle } } := by
  unfold opPopResult at h
  split at h
  · cases h
  · cases h
  · rename_i hx; cases h; exact ⟨hx, rfl, rfl⟩

theorem opSetFault_ok {s t : State} {c : Nat} {b : Bus} {r : Response} (h : opSetFault c b s = .ok t r) :
    s.cfg.isFaultCode c = true ∧ s.trap.pendFault = none ∧ s.trap.pendIntr = none ∧ r = Response.ok ∧
      t = { s with trap := ⟨some c, none, trunc s.cfg.xlen b.arg0, trunc s.cfg.xlen b.arg1,
                            trunc s.cfg.xlen b.arg2⟩ } := by
  unfold opSetFault at h
  split at h
  · cases h
  · rename_i h1
    split at h
    · cases h
    · rename_i h2
      split at h
      · cases h
      · rename_i h3
        have hi : s.trap.pendIntr = none := by simpa using h2
        cases h
        refine ⟨by simpa using h1, by simpa using h3, hi, rfl, ?_⟩
        simp only [State.setTrap, hi]

theorem opSetInterrupt_ok {s t : State} {c : Nat} {r : Response} (h : opSetInterrupt c s = .ok t r) :
    s.cfg.isIntrCode c = true ∧ s.trap.pendFault = none ∧ s.trap.pendIntr = none ∧ r = Response.ok ∧
      t = { s with trap := ⟨none, some c, 0, 0, 0⟩ } := by
  unfold opSetInterrupt at h
  split at h
  · cases h
  · rename_i h1
    split at h
    · cases h
    · rename_i h2
      split at h
      · cases h
      · rename_i h3
        cases h
        exact ⟨by simpa using h1, by simpa using h2, by simpa using h3, rfl, rfl⟩

/-! ### Delivery -/

theorem State.csrWrite_frame (s : State) (d : CsrDesc) (v : Word) :
    s.csrWrite d v = { s with csr := s.csr.set d.number (maskedMerge d.mask (s.csr.get d.number) v) } := rfl

/-- `t` differs from `s` in the CSR file alone. -/
def OnlyCsr (s t : State) : Prop := t = { s with csr := t.csr }

theorem OnlyCsr.refl (s : State) : OnlyCsr s s := rfl

theorem OnlyCsr.trans {s t u : State} (h : OnlyCsr s t) (h' : OnlyCsr t u) : OnlyCsr s u := by
  unfold OnlyCsr at *
  rw [h'] ; rw [h]

theorem OnlyCsr.csrWrite {s t : State} (h : OnlyCsr s t) (d : CsrDesc) (v : Word) : OnlyCsr s (t.csrWrite d v) :=
  h.trans rfl

theorem OnlyCsr.fieldWrite {s t : State} (h : OnlyCsr s t) (d : CsrDesc) (f : CsrField) (x : Word) :
    OnlyCsr s (t.fieldWrite d f x) :=
  h.csrWrite d _

theorem OnlyCsr.machineStatus {s u : State} (h : OnlyCsr s u) (t : TrapNames) : OnlyCsr s (u.machineStatus t) :=
  ((((h.fieldWrite _ _ _).fieldWrite _ _ _).fieldWrite _ _ _).fieldWrite _ _ _).fieldWrite _ _ _

theorem OnlyCsr.supervisorStatus {s u : State} (h : OnlyCsr s u) (t : TrapNames) : OnlyCsr s (u.supervisorStatus t) :=
  ((h.fieldWrite _ _ _).fieldWrite _ _ _).fieldWrite _ _ _

theorem State.recordMachine_onlyCsr (s : State) (t : TrapNames) (isIntr : Bool) (c : Nat) :
    OnlyCsr (s.setNextPc (clearBit0 (s.csr.get t.mtvec.number))) (s.recordMachine t isIntr c) :=
  ((((OnlyCsr.refl _).csrWrite _ _).csrWrite _ _).csrWrite _ _).machineStatus t

theorem State.recordSupervisor_onlyCsr (s : State) (t : TrapNames) (isIntr : Bool) (c : Nat) :
    OnlyCsr (s.setNextPc (clearBit0 (s.csr.get t.stvec.number))) (s.recordSupervisor t isIntr c) :=
  ((((OnlyCsr.refl _).csrWrite _ _).csrWrite _ _).csrWrite _ _).supervisorStatus t

theorem State.recorded_of_onlyCsr {s u : State} {v : Word} (h : OnlyCsr (s.setNextPc v) u) (p : Priv) :
    (u.switchTo p).setTrap TrapUnit.empty =
      { s with nextPc := v, csr := u.csr, priv := p, virt := false, xlateMode := s.cfg.xlateMode p false u.csr
               trap := TrapUnit.empty } := by
  have key : ∀ r, u = { s.setNextPc v with csr := r } → r = u.csr → (u.switchTo p).setTrap TrapUnit.empty =
      { s with nextPc := v, csr := u.csr, priv := p, virt := false, xlateMode := s.cfg.xlateMode p false u.csr
               trap := TrapUnit.empty } := by
    rintro r rfl -
    rfl
  exact key u.csr h rfl

theorem State.deliver_machine {s : State} {t : TrapNames} {isIntr : Bool} {c : Nat}
    (h : s.trapTarget t isIntr c = .machine) :
    s.deliver t isIntr c =
      { s with nextPc := clearBit0 (s.csr.get t.mtvec.number), csr := (s.recordMachine t isIntr c).csr
               priv := .machine, virt := false
               xlateMode := s.cfg.xlateMode .machine false (s.recordMachine t isIntr c).csr
               trap := TrapUnit.empty } := by
  rw [State.deliver, h, if_neg (by decide), State.recorded_of_onlyCsr (State.recordMachine_onlyCsr s t isIntr c)]

theorem State.deliver_supervisor {s : State} {t : TrapNames} {isIntr : Bool} {c : Nat}
    (h : s.trapTarget t isIntr c = .supervisor) :
    s.deliver t isIntr c =
      { s with nextPc := clearBit0 (s.csr.get t.stvec.number), csr := (s.recordSupervisor t isIntr c).csr
               priv := .supervisor, virt := false
               xlateMode := s.cfg.xlateMode .supervisor false (s.recordSupervisor t isIntr c).csr
               trap := TrapUnit.empty } := by
  rw [State.deliver, h, if_pos rfl, State.recorded_of_onlyCsr (State.recordSupervisor_onlyCsr s t isIntr c)]

theorem State.trapTarget_cases (s : State) (t : TrapNames) (isIntr : Bool) (c : Nat) :
    s.trapTarget t isIntr c = .machine ∨ s.trapTarget t isIntr c = .supervisor := by
  unfold State.trapTarget
  generalize (s.csr.get (if isIntr then t.mideleg.number else t.medeleg.number)).getLsbD c = b
  cases b
  · exact .inl rfl
  · exact .inr rfl

/-- What delivery writes, and that it writes nothing else (44_trap_ops R185). -/
theorem State.deliver_frame (s : State) (t : TrapNames) (isIntr : Bool) (c : Nat) :
    s.deliver t isIntr c =
      { s with
        nextPc := clearBit0 (s.csr.get
          (if s.trapTarget t isIntr c = .supervisor then t.stvec.number else t.mtvec.number))
        csr := (s.deliver t isIntr c).csr
        priv := s.trapTarget t isIntr c
        virt := false
        xlateMode := s.cfg.xlateMode (s.trapTarget t isIntr c) false (s.deliver t isIntr c).csr
        trap := TrapUnit.empty } := by
  rcases s.trapTarget_cases t isIntr c with h | h
  · rw [State.deliver_machine h, h]; rfl
  · rw [State.deliver_supervisor h, h]; rfl

theorem opDeliverCause_ok {s u : State} {isIntr : Bool} {c : Nat} {r : Response}
    (h : opDeliverCause isIntr c s = .ok u r) :
    ∃ t, s.cfg.trapNames = .ok t ∧ r = Response.ok ∧ u = s.deliver t isIntr c := by
  unfold opDeliverCause at h
  split at h
  · cases h
  · rename_i t ht; cases h; exact ⟨t, ht, rfl, rfl⟩

/-- A delivery that succeeds had exactly one cause pending and every name at hand. -/
theorem opDeliver_ok {s u : State} {r : Response} (h : opDeliver s = .ok u r) :
    ∃ isIntr c t, PendingOnly s isIntr c ∧ s.cfg.trapNames = .ok t ∧ r = Response.ok ∧ u = s.deliver t isIntr c := by
  unfold opDeliver at h
  split at h
  · cases h
  · cases h
  · rename_i c hf hi
    obtain ⟨t, ht, hr, hu⟩ := opDeliverCause_ok h
    exact ⟨false, c, t, ⟨by simpa using hf, by simpa using hi⟩, ht, hr, hu⟩
  · rename_i c hf hi
    obtain ⟨t, ht, hr, hu⟩ := opDeliverCause_ok h
    exact ⟨true, c, t, ⟨by simpa using hf, by simpa using hi⟩, ht, hr, hu⟩

theorem opDeliver_pending {s : State} {isIntr : Bool} {c : Nat} (h : PendingOnly s isIntr c) :
    opDeliver s = opDeliverCause isIntr c s := by
  obtain ⟨hf, hi⟩ := h
  cases isIntr <;> simp_all [opDeliver]

theorem opDeliver_frame {s u : State} {r : Response} (h : opDeliver s = .ok u r) :
    u = { s with nextPc := u.nextPc, csr := u.csr, priv := u.priv, virt := u.virt, xlateMode := u.xlateMode
                 trap := u.trap } := by
  obtain ⟨_, _, t, _, _, _, rfl⟩ := opDeliver_ok h
  rw [State.deliver_frame]

end Sys2Proof.Machine

namespace Sys2Proof

theorem Config.needCsr_ok {c : Config} {nm : CsrName} {d : CsrDesc} :
    c.needCsr nm = .ok d ↔ c.descNamed nm = some d := by
  unfold Config.needCsr
  cases c.descNamed nm <;> simp

theorem CsrDesc.needField_ok {d : CsrDesc} {nm : FieldName} {f : CsrField} :
    d.needField nm = .ok f ↔ d.fieldNamed nm = some f := by
  unfold CsrDesc.needField
  cases d.fieldNamed nm <;> simp

/-- What the lookups of a delivery find (60_exceptions R207). -/
structure Machine.TrapNames.Found (c : Config) (t : Machine.TrapNames) : Prop where
  medeleg : c.descNamed .medeleg = some t.medeleg
  mideleg : c.descNamed .mideleg = some t.mideleg
  mtvec   : c.descNamed .mtvec = some t.mtvec
  mepc    : c.descNamed .mepc = some t.mepc
  mcause  : c.descNamed .mcause = some t.mcause
  mtval   : c.descNamed .mtval = some t.mtval
  stvec   : c.descNamed .stvec = some t.stvec
  sepc    : c.descNamed .sepc = some t.sepc
  scause  : c.descNamed .scause = some t.scause
  stval   : c.descNamed .stval = some t.stval
  mstatus : c.descNamed .mstatus = some t.mstatus
  sv      : c.descNamed (match c.xlen with
    | .rv64 => .mstatus
    | .rv32 => .mstatush) = some t.sv
  mie     : t.mstatus.fieldNamed .mie = some t.mie
  mpie    : t.mstatus.fieldNamed .mpie = some t.mpie
  mpp     : t.mstatus.fieldNamed .mpp = some t.mpp
  sie     : t.mstatus.fieldNamed .sie = some t.sie
  spie    : t.mstatus.fieldNamed .spie = some t.spie
  spp     : t.mstatus.fieldNamed .spp = some t.spp
  mpv     : t.sv.fieldNamed .mpv = some t.mpv
  gva     : t.sv.fieldNamed .gva = some t.gva

/-- One lookup peeled off a chain of lookups. -/
theorem bind_ok {ε α β : Type} {m : Except ε α} {k : α → Except ε β} {b : β} :
    (m >>= k) = .ok b ↔ ∃ a, m = .ok a ∧ k a = .ok b := by
  cases m <;> simp [bind, Except.bind]

theorem Config.trapNames_ok {c : Config} {t : Machine.TrapNames} (h : c.trapNames = .ok t) : t.Found c := by
  unfold Config.trapNames at h
  simp only [bind_ok, Config.needCsr_ok, CsrDesc.needField_ok] at h
  obtain ⟨_, h1, _, h2, _, h3, _, h4, _, h5, _, h6, _, h7, _, h8, _, h9, _, h10, _, h11, _, h12, _, h13, _, h14, _, h15, _,
    h16, _, h17, _, h18, _, h19, _, h20, h⟩ := h
  cases h
  exact ⟨h1, h2, h3, h4, h5, h6, h7, h8, h9, h10, h11, h12, h13, h14, h15, h16, h17, h18, h19, h20⟩

theorem Config.trapNames_of_found {c : Config} {t : Machine.TrapNames} (h : t.Found c) : c.trapNames = .ok t := by
  unfold Config.trapNames
  simp only [bind_ok, Config.needCsr_ok, CsrDesc.needField_ok]
  exact ⟨_, h.1, _, h.2, _, h.3, _, h.4, _, h.5, _, h.6, _, h.7, _, h.8, _, h.9, _, h.10, _, h.11, _, h.12, _, h.13, _, h.14,
    _, h.15, _, h.16, _, h.17, _, h.18, _, h.19, _, h.20, rfl⟩

end Sys2Proof
end

