-- ==== Sys2Proof/Laws/Keep.lean ====
section
/-!
SUPPORT. What the shared operations keep true: cells of their widths, one CSR cell per descriptor, one pending cause at most,
the store's canonical form. `Good` is the invariant of Safety.lean without the Engine's part, for a checked configuration.
-/

namespace Sys2Proof.Machine

/-- The cells, the CSR file, the slot and the store are in order. -/
structure Good (s : State) : Prop where
  cells : s.cellsFit = true
  csrs  : s.csrCellsOk = true
  slot  : s.slotOk = true
  mem   : s.mem.wf = true

theorem State.inv_iff {s : State} (h : s.cfg.ok = true) : s.inv = true ↔ Good s ∧ s.engOk = true := by
  simp only [State.inv, h, if_true, Bool.and_eq_true]
  constructor
  · rintro ⟨⟨⟨⟨a, b⟩, c⟩, d⟩, e⟩; exact ⟨⟨a, b, c, e⟩, d⟩
  · rintro ⟨⟨a, b, c, e⟩, d⟩; exact ⟨⟨⟨⟨a, b⟩, c⟩, d⟩, e⟩

/-- The invariant of a configuration that fails its checks is the latch (41_csr R111). -/
theorem State.inv_iff_of_bad {s : State} (h : s.cfg.ok = false) : s.inv = true ↔ s.fatal.isSome = true := by
  simp [State.inv, h]

/-- The cells' part, one fact per cell. -/
theorem State.cellsFit_iff (s : State) : s.cellsFit = true ↔
    (s.x.toList.all (fits s.cfg.xlen) = true ∧ s.f.toList.all (fitsWide s.cfg.flen) = true ∧
      s.v.toList.all (fitsWide s.cfg.vlen) = true) ∧ s.csr.all (fun c => fits s.cfg.xlen c.2) = true ∧
      fits s.cfg.xlen s.pc = true ∧ fits s.cfg.xlen s.nextPc = true ∧ fits s.cfg.xlen s.trap.tiVaddr = true ∧
      fits s.cfg.xlen s.trap.tiMisalign = true ∧ fits s.cfg.xlen s.trap.tiOpcode = true := by
  simp only [State.cellsFit, Bool.and_eq_true, and_assoc]

/-- A CSR cell holds XLEN bits. -/
theorem Good.csr_fits {s : State} (h : Good s) (n : Nat) : fits s.cfg.xlen (s.csr.get n) = true :=
  CsrFile.get_of_all (p := fits s.cfg.xlen) n ((State.cellsFit_iff s).1 h.cells).2.1 (fits_zero _)

/-- A descriptor of the table has a cell. -/
theorem Good.has_cell {s : State} (h : Good s) {d : CsrDesc} (hd : d ∈ s.cfg.csrTab) :
    d.number ∈ s.csr.map Prod.fst := by
  have := h.csrs
  simp only [State.csrCellsOk, beq_iff_eq] at this
  rw [this]
  exact List.mem_map_of_mem hd

theorem Good.of_csr {s t : State} (h : Good s) (ht : OnlyCsr s t) (hk : t.csr.map Prod.fst = s.csr.map Prod.fst)
    (ha : t.csr.all (fun c => fits s.cfg.xlen c.2) = true) : Good t := by
  have key : ∀ r : CsrFile, r.map Prod.fst = s.csr.map Prod.fst → r.all (fun c => fits s.cfg.xlen c.2) = true →
      Good { s with csr := r } := by
    intro r hk ha
    have hc := (State.cellsFit_iff s).1 h.cells
    refine ⟨(State.cellsFit_iff _).2 ⟨hc.1, ha, hc.2.2⟩, ?_, h.slot, h.mem⟩
    have := h.csrs
    simp only [State.csrCellsOk, beq_iff_eq] at this ⊢
    rw [hk, this]
  rw [ht]
  exact key _ hk ha

theorem Good.csrStore {s : State} (h : Good s) {d : CsrDesc} (hd : d ∈ s.cfg.csrTab) {w : Word}
    (hw : fits s.cfg.xlen w = true) : Good (s.csrStore d w) :=
  h.of_csr rfl (CsrFile.keys_set w (h.has_cell hd))
    (CsrFile.all_set (p := fits s.cfg.xlen) ((State.cellsFit_iff s).1 h.cells).2.1 hw)

theorem Good.csrWrite {s : State} (h : Good s) {d : CsrDesc} (hd : d ∈ s.cfg.csrTab) {w : Word}
    (hw : fits s.cfg.xlen w = true) : Good (s.csrWrite d w) :=
  h.csrStore hd (fits_maskedMerge (h.csr_fits _) hw)

/-- A field write keeps the file in order, whatever the value: it is cut to the field (41_csr R118). -/
theorem Good.fieldWrite {s : State} (h : Good s) (hc : s.cfg.ok = true) {d : CsrDesc} (hd : d ∈ s.cfg.csrTab)
    {f : CsrField} (hf : f ∈ d.fields) (x : Word) : Good (s.fieldWrite d f x) :=
  h.csrWrite hd (fits_fieldInsert (Config.field_range hc hd hf) (h.csr_fits _))

theorem Good.setNextPc {s : State} (h : Good s) {v : Word} (hv : fits s.cfg.xlen v = true) : Good (s.setNextPc v) := by
  have hc := (State.cellsFit_iff s).1 h.cells
  exact ⟨(State.cellsFit_iff _).2 ⟨hc.1, hc.2.1, hc.2.2.1, hv, hc.2.2.2.2⟩, h.csrs, h.slot, h.mem⟩

/-! ### Registers -/

theorem all_setIfInBounds {α : Type} {n : Nat} {p : α → Bool} {v : Vector α n} {i : Nat} {a : α}
    (h : v.toList.all p = true) (ha : p a = true) : (v.setIfInBounds i a).toList.all p = true := by
  simp only [List.all_eq_true] at *
  intro b hb
  rw [Vector.mem_toList_iff] at hb
  obtain ⟨j, hj, rfl⟩ := Vector.mem_iff_getElem.1 hb
  rw [Vector.getElem_setIfInBounds hj]
  split
  · exact ha
  · exact h _ (by rw [Vector.mem_toList_iff]; exact Vector.getElem_mem hj)

theorem Good.setIntCell {s : State} (h : Good s) (i : Nat) {w : Word} (hw : fits s.cfg.xlen w = true) :
    Good (s.setIntCell i w) := by
  have hc := (State.cellsFit_iff s).1 h.cells
  unfold State.setIntCell
  split
  · exact h
  · exact ⟨(State.cellsFit_iff _).2 ⟨⟨all_setIfInBounds hc.1.1 hw, hc.1.2⟩, hc.2⟩, h.csrs, h.slot, h.mem⟩

theorem fitsWide_truncWide (n : Nat) (v : Wide) : fitsWide n (truncWide n v) = true := by
  unfold fitsWide truncWide
  exact decide_eq_true (Nat.mod_lt v (Nat.two_pow_pos n))

theorem Good.writeReg {s t : State} (h : Good s) {store : State → CsrDesc → Word → State} {cls : RegClass} {idx : Nat}
    {w : Wide} (hst : ∀ d ∈ s.cfg.csrTab, ∀ v, fits s.cfg.xlen v = true → Good (store s d v))
    (ht : s.writeReg store cls idx w = .ok t) : Good t := by
  have hc := (State.cellsFit_iff s).1 h.cells
  cases cls with
  | int =>
    simp only [State.writeReg] at ht
    split at ht
    · cases ht
    · cases ht; exact h.setIntCell _ (fits_wordOf _ _)
  | fp =>
    simp only [State.writeReg] at ht
    split at ht
    · cases ht
    · cases ht
      exact ⟨(State.cellsFit_iff _).2 ⟨⟨hc.1.1, all_setIfInBounds hc.1.2.1 (fitsWide_truncWide _ _), hc.1.2.2⟩, hc.2⟩,
        h.csrs, h.slot, h.mem⟩
  | vec =>
    simp only [State.writeReg] at ht
    split at ht
    · cases ht
    · cases ht
      exact ⟨(State.cellsFit_iff _).2 ⟨⟨hc.1.1, hc.1.2.1, all_setIfInBounds hc.1.2.2 (fitsWide_truncWide _ _)⟩, hc.2⟩,
        h.csrs, h.slot, h.mem⟩
  | csr =>
    simp only [State.writeReg] at ht
    split at ht
    · cases ht
    · rename_i d hd; cases ht; exact hst d (Config.desc_mem hd) _ (fits_wordOf _ _)

theorem Good.opWrite {s t : State} (h : Good s) {cls : RegClass} {idx : Nat} {b : Bus} {r : Response}
    (ht : opWrite cls idx b s = .ok t r) : Good t := by
  unfold Machine.opWrite at ht
  split at ht
  · cases ht
  · rename_i u hu; cases ht; exact h.writeReg (fun d hd v hv => h.csrWrite hd hv) hu

theorem Good.opWriteDirect {s t : State} (h : Good s) {cls : RegClass} {idx : Nat} {b : Bus} {r : Response}
    (ht : opWriteDirect cls idx b s = .ok t r) : Good t := by
  unfold Machine.opWriteDirect at ht
  split at ht
  · cases ht
  · rename_i u hu; cases ht; exact h.writeReg (fun d hd v hv => h.csrStore hd hv) hu

theorem Good.opFieldWrite {s t : State} (h : Good s) (hc : s.cfg.ok = true) {idx fid : Nat} {b : Bus} {r : Response}
    (ht : opFieldWrite idx fid b s = .ok t r) : Good t := by
  unfold Machine.opFieldWrite at ht
  split at ht
  · cases ht
  · rename_i p hp
    cases ht
    obtain ⟨h1, h2, _⟩ := Config.findField_mem hp
    exact h.fieldWrite hc h1 h2 _

/-! ### The port and the slot -/

theorem Good.setXp {s : State} (h : Good s) (p : XltPort) : Good { s with xp := p } :=
  ⟨h.cells, h.csrs, h.slot, h.mem⟩

theorem Good.opSetFault {s t : State} (h : Good s) {c : Nat} {b : Bus} {r : Response}
    (ht : opSetFault c b s = .ok t r) : Good t := by
  obtain ⟨h1, -, -, -, rfl⟩ := opSetFault_ok ht
  have hc := (State.cellsFit_iff s).1 h.cells
  refine ⟨(State.cellsFit_iff _).2 ⟨hc.1, hc.2.1, hc.2.2.1, hc.2.2.2.1, fits_trunc _ _, fits_trunc _ _, fits_trunc _ _⟩,
    h.csrs, ?_, h.mem⟩
  simp [State.slotOk, h1]

theorem Good.opSetInterrupt {s t : State} (h : Good s) {c : Nat} {r : Response}
    (ht : opSetInterrupt c s = .ok t r) : Good t := by
  obtain ⟨h1, -, -, -, rfl⟩ := opSetInterrupt_ok ht
  have hc := (State.cellsFit_iff s).1 h.cells
  refine ⟨(State.cellsFit_iff _).2 ⟨hc.1, hc.2.1, hc.2.2.1, hc.2.2.2.1, fits_zero _, fits_zero _, fits_zero _⟩,
    h.csrs, ?_, h.mem⟩
  simp [State.slotOk, h1]

/-! ### Delivery -/

theorem fits_causeValue {x : XLen} {isIntr : Bool} {c : Nat} : fits x (causeValue x isIntr c) = true := by
  rw [fits_iff]
  intro k hk
  have h1 := (fits_iff x _).1 (fits_wordOf x c) k hk
  have h2 : (intrFlag x).getLsbD k = false := by
    have hp := xlen_bits_pos x
    simp only [intrFlag, BitVec.getLsbD_shiftLeft, BitVec.getLsbD_one]
    by_cases hk64 : k < 64
    · simp [hk64, show k - (x.bits - 1) ≠ 0 by omega]
    · simp [hk64]
  cases isIntr <;> simp [causeValue, h1, h2]

theorem Good.trapValue_fits {s : State} (h : Good s) (isIntr : Bool) (c : Nat) :
    fits s.cfg.xlen (s.trapValue isIntr c) = true := by
  have hc := (State.cellsFit_iff s).1 h.cells
  unfold State.trapValue
  cases isIntr
  · cases s.cfg.faultClass c
    · exact fits_trunc _ _
    · exact hc.2.2.2.2.1
    · exact hc.2.2.2.2.2.2
    · exact fits_zero _
  · exact fits_zero _

theorem Good.machineStatus {s : State} (h : Good s) (hc : s.cfg.ok = true) {t : TrapNames} (ht : t.Found s.cfg) :
    Good (s.machineStatus t) := by
  have hm := Config.descNamed_mem ht.mstatus
  have hv := Config.descNamed_mem ht.sv
  have mem := fun {d : CsrDesc} {nm : FieldName} {f : CsrField} (e : d.fieldNamed nm = some f) =>
    CsrDesc.fieldNamed_mem e
  unfold State.machineStatus
  refine Good.fieldWrite (Good.fieldWrite (Good.fieldWrite (Good.fieldWrite (h.fieldWrite hc hm (mem ht.mpie) _)
    hc hm (mem ht.mpp) _) hc hm (mem ht.mie) _) hc hv (mem ht.mpv) _) hc hv (mem ht.gva) _

theorem Good.supervisorStatus {s : State} (h : Good s) (hc : s.cfg.ok = true) {t : TrapNames} (ht : t.Found s.cfg) :
    Good (s.supervisorStatus t) := by
  have hm := Config.descNamed_mem ht.mstatus
  unfold State.supervisorStatus
  exact Good.fieldWrite (Good.fieldWrite (h.fieldWrite hc hm (CsrDesc.fieldNamed_mem ht.spie) _)
    hc hm (CsrDesc.fieldNamed_mem ht.spp) _) hc hm (CsrDesc.fieldNamed_mem ht.sie) _

theorem Good.record {s : State} (h : Good s) {tvec epc cause tval : CsrDesc} {isIntr : Bool} {c : Nat}
    (he : epc ∈ s.cfg.csrTab) (hcs : cause ∈ s.cfg.csrTab) (htv : tval ∈ s.cfg.csrTab) :
    Good ((((s.setNextPc (clearBit0 (s.csr.get tvec.number))).csrWrite epc s.pc).csrWrite cause
      (causeValue s.cfg.xlen isIntr c)).csrWrite tval (s.trapValue isIntr c)) := by
  have hc := (State.cellsFit_iff s).1 h.cells
  have h0 := h.setNextPc (fits_clearBit0 (h.csr_fits tvec.number))
  have h1 := h0.csrWrite (d := epc) he hc.2.2.1
  have h2 := h1.csrWrite (d := cause) hcs (fits_causeValue (isIntr := isIntr) (c := c))
  exact h2.csrWrite (d := tval) htv (h.trapValue_fits isIntr c)

theorem Good.recordMachine {s : State} (h : Good s) (hc : s.cfg.ok = true) {t : TrapNames} (ht : t.Found s.cfg)
    (isIntr : Bool) (c : Nat) : Good (s.recordMachine t isIntr c) :=
  (h.record (tvec := t.mtvec) (Config.descNamed_mem ht.mepc) (Config.descNamed_mem ht.mcause)
    (Config.descNamed_mem ht.mtval)).machineStatus hc ht

theorem Good.recordSupervisor {s : State} (h : Good s) (hc : s.cfg.ok = true) {t : TrapNames} (ht : t.Found s.cfg)
    (isIntr : Bool) (c : Nat) : Good (s.recordSupervisor t isIntr c) :=
  (h.record (tvec := t.stvec) (Config.descNamed_mem ht.sepc) (Config.descNamed_mem ht.scause)
    (Config.descNamed_mem ht.stval)).supervisorStatus hc ht

theorem Good.switch {s : State} (h : Good s) (p : Priv) : Good ((s.switchTo p).setTrap TrapUnit.empty) := by
  have hc := (State.cellsFit_iff s).1 h.cells
  exact ⟨(State.cellsFit_iff _).2 ⟨hc.1, hc.2.1, hc.2.2.1, hc.2.2.2.1, fits_zero _, fits_zero _, fits_zero _⟩,
    h.csrs, rfl, h.mem⟩

theorem Good.deliver {s : State} (h : Good s) (hc : s.cfg.ok = true) {t : TrapNames} (ht : t.Found s.cfg)
    (isIntr : Bool) (c : Nat) : Good (s.deliver t isIntr c) := by
  unfold State.deliver
  split
  · exact (h.recordSupervisor hc ht isIntr c).switch _
  · exact (h.recordMachine hc ht isIntr c).switch _

theorem Good.opDeliver {s u : State} (h : Good s) (hc : s.cfg.ok = true) {r : Response}
    (hu : opDeliver s = .ok u r) : Good u := by
  obtain ⟨i, c, t, -, ht, -, rfl⟩ := opDeliver_ok hu
  exact h.deliver hc (Config.trapNames_ok ht) i c

end Sys2Proof.Machine
end

