-- ==== Sys2Proof/Laws/Actions.lean ====
section
/-!
SUPPORT. What an Action can do, by induction over what it does: the cells it never touches (42_engine R153), the invariant's
part it keeps, and when it stops the model.
-/

namespace Sys2Proof.Machine

/-! ### The operations of a port -/

/-- The cells that no operation but the Engine's touches: all but the register file, `next_pc`, the privilege, the slot, the
port and the translation mode. -/
structure PortFrame (s t : State) : Prop where
  cfg     : t.cfg = s.cfg
  pc      : t.pc = s.pc
  eng     : t.eng = s.eng
  curInst : t.curInst = s.curInst
  fatal   : t.fatal = s.fatal
  bus     : t.bus = s.bus
  resp    : t.resp = s.resp
  iresp   : t.iresp = s.iresp
  inputs  : t.inputs = s.inputs
  script  : t.script = s.script
  idle    : t.idle = s.idle
  mem     : t.mem = s.mem
  memData : t.memData = s.memData

theorem PortFrame.refl (s : State) : PortFrame s s :=
  ⟨rfl, rfl, rfl, rfl, rfl, rfl, rfl, rfl, rfl, rfl, rfl, rfl, rfl⟩

theorem PortFrame.of_eq {s t : State} (h : t = { s with
    x := t.x, f := t.f, v := t.v, csr := t.csr, nextPc := t.nextPc, priv := t.priv, virt := t.virt
    xlateMode := t.xlateMode, trap := t.trap, xp := t.xp }) : PortFrame s t := by
  constructor <;> rw [h]

/-- What a successful operation of the internal port leaves alone. -/
theorem portOp_frame {i : Instr} {b : Bus} {s t : State} {r : Response} (h : portOp i b s = some (.ok t r)) :
    PortFrame s t := by
  cases i with
  | rfRead c n => rw [opRead_ok (Option.some.inj h)]; exact .refl s
  | rfWrite c n => apply PortFrame.of_eq; rw [opWrite_ok (Option.some.inj h)]
  | rfReadDirect c n => rw [opRead_ok (Option.some.inj h)]; exact .refl s
  | rfWriteDirect c n => apply PortFrame.of_eq; rw [opWriteDirect_ok (Option.some.inj h)]
  | csrFieldRead n k => rw [opFieldRead_ok (Option.some.inj h)]; exact .refl s
  | csrFieldWrite n k => apply PortFrame.of_eq; rw [opFieldWrite_ok (Option.some.inj h)]
  | engRunGroup => cases h
  | engResume => cases h
  | xltRequest => obtain ⟨-, -, rfl⟩ := opRequest_ok (Option.some.inj h); exact .of_eq rfl
  | xltResolve => obtain ⟨-, -, rfl⟩ := opResolve_ok (Option.some.inj h); exact .of_eq rfl
  | xltResult => obtain ⟨-, -, rfl⟩ := opResult_ok (Option.some.inj h); exact .refl _
  | xltPopResult => obtain ⟨-, -, rfl⟩ := opPopResult_ok (Option.some.inj h); exact .of_eq rfl
  | trapSetFault c => obtain ⟨-, -, -, -, rfl⟩ := opSetFault_ok (Option.some.inj h); exact .of_eq rfl
  | trapSetInterrupt c => obtain ⟨-, -, -, -, rfl⟩ := opSetInterrupt_ok (Option.some.inj h); exact .of_eq rfl
  | trapDeliver => apply PortFrame.of_eq; rw [opDeliver_frame (Option.some.inj h)]

theorem Good.portOp {i : Instr} {b : Bus} {s t : State} {r : Response} (hs : Good s) (hc : s.cfg.ok = true)
    (h : portOp i b s = some (.ok t r)) : Good t := by
  cases i with
  | rfRead c n => rw [opRead_ok (Option.some.inj h)]; exact hs
  | rfWrite c n => exact hs.opWrite (Option.some.inj h)
  | rfReadDirect c n => rw [opRead_ok (Option.some.inj h)]; exact hs
  | rfWriteDirect c n => exact hs.opWriteDirect (Option.some.inj h)
  | csrFieldRead n k => rw [opFieldRead_ok (Option.some.inj h)]; exact hs
  | csrFieldWrite n k => exact hs.opFieldWrite hc (Option.some.inj h)
  | engRunGroup => cases h
  | engResume => cases h
  | xltRequest => obtain ⟨-, -, rfl⟩ := opRequest_ok (Option.some.inj h); exact hs.setXp _
  | xltResolve => obtain ⟨-, -, rfl⟩ := opResolve_ok (Option.some.inj h); exact hs.setXp _
  | xltResult => obtain ⟨-, -, rfl⟩ := opResult_ok (Option.some.inj h); exact hs
  | xltPopResult => obtain ⟨-, -, rfl⟩ := opPopResult_ok (Option.some.inj h); exact hs.setXp _
  | trapSetFault c => exact hs.opSetFault (Option.some.inj h)
  | trapSetInterrupt c => exact hs.opSetInterrupt (Option.some.inj h)
  | trapDeliver => exact hs.opDeliver hc (Option.some.inj h)

/-! ### One thing, several things, an invocation -/

/-- The state a stretch of work ends in, where it ends in one. -/
def WorkOut.state? : WorkOut → Option State
  | .ok s => some s
  | .fatal s _ => some s
  | .fault _ => none

/-- The state an Action ends in, where it ends in one. -/
def ActOut.state? : ActOut → Option State
  | .ok s _ => some s
  | .fatal s _ => some s
  | .fault _ => none

@[simp] theorem WorkOut.thenAnswer_state? (w : WorkOut) (ct : ControlTransfer) : (w.thenAnswer ct).state? = w.state? := by
  cases w <;> rfl

/-- The cells that no Action touches, but for `pc`, the action list and the scripts, which have Actions of their own
(42_engine R148, R154; log entry 10). -/
structure WorkFrame (s t : State) : Prop where
  cfg    : t.cfg = s.cfg
  pc     : t.pc = s.pc
  eng    : t.eng = s.eng
  acts   : t.curInst.actions = s.curInst.actions
  fatal  : t.fatal = s.fatal
  bus    : t.bus = s.bus
  resp   : t.resp = s.resp
  inputs : t.inputs = s.inputs
  script : t.script = s.script
  idle   : t.idle = s.idle

theorem WorkFrame.refl (s : State) : WorkFrame s s := ⟨rfl, rfl, rfl, rfl, rfl, rfl, rfl, rfl, rfl, rfl⟩

theorem WorkFrame.trans {s t u : State} (h : WorkFrame s t) (h' : WorkFrame t u) : WorkFrame s u :=
  ⟨h'.1.trans h.1, h'.2.trans h.2, h'.3.trans h.3, h'.4.trans h.4, h'.5.trans h.5, h'.6.trans h.6, h'.7.trans h.7,
    h'.8.trans h.8, h'.9.trans h.9, h'.10.trans h.10⟩

theorem PortFrame.work {s t : State} (h : PortFrame s t) (r : Response) : WorkFrame s { t with iresp := r } :=
  ⟨h.cfg, h.pc, h.eng, by rw [show ({ t with iresp := r } : State).curInst = t.curInst from rfl, h.curInst], h.fatal, h.bus,
    h.resp, h.inputs, h.script, h.idle⟩

/-- What a property of states needs in order to be kept by an answer on the internal port. -/
theorem answer_state {p : State → Prop} {s t : State} {o : OpResult} (h : (answer s o).state? = some t)
    (hok : ∀ u r, o = .ok u r → p { u with iresp := r }) (hfatal : ∀ r, p { s with iresp := r }) : p t := by
  cases o with
  | ok u r => cases h; exact hok u r rfl
  | fatal c => cases h; exact hfatal _

theorem issue_state {p : State → Prop} {s t : State} {cw : CmdWord} {b : Bus} (h : (issue cw b s).state? = some t)
    (hok : ∀ i u r, decode cw = .ok i → portOp i b s = some (.ok u r) → p { u with iresp := r })
    (hfatal : ∀ r, p { s with iresp := r }) : p t := by
  unfold issue at h
  split at h
  · cases h; exact hfatal _
  · rename_i i hi
    split at h
    · cases h
    · rename_i o ho
      exact answer_state h (fun u r e => hok i u r hi (by rw [ho, e])) hfatal

theorem issue_frame {s t : State} {cw : CmdWord} {b : Bus} (h : (issue cw b s).state? = some t) : WorkFrame s t :=
  issue_state h (fun _ _ _ _ ho => (portOp_frame ho).work _) (fun r => (PortFrame.refl s).work r)

theorem runOp_frame {s t : State} {o : ActionOp} (h : (runOp s o).state? = some t) : WorkFrame s t := by
  cases o with
  | issue cw a b c d => exact issue_frame h
  | setNextPc v => cases h; exact ⟨rfl, rfl, rfl, rfl, rfl, rfl, rfl, rfl, rfl, rfl⟩
  | setPriv v => cases h; exact ⟨rfl, rfl, rfl, rfl, rfl, rfl, rfl, rfl, rfl, rfl⟩
  | setVirt v => cases h; exact ⟨rfl, rfl, rfl, rfl, rfl, rfl, rfl, rfl, rfl, rfl⟩
  | setXlateMode v => cases h; exact ⟨rfl, rfl, rfl, rfl, rfl, rfl, rfl, rfl, rfl, rfl⟩
  | setInst a b c d => cases h; exact ⟨rfl, rfl, rfl, rfl, rfl, rfl, rfl, rfl, rfl, rfl⟩
  | memRead a n => cases h; exact ⟨rfl, rfl, rfl, rfl, rfl, rfl, rfl, rfl, rfl, rfl⟩
  | memWrite a n v => cases h; exact ⟨rfl, rfl, rfl, rfl, rfl, rfl, rfl, rfl, rfl, rfl⟩

/-- A relation that every single thing has, and that composes, holds of a whole list of them. -/
theorem runOps_state {p : State → State → Prop} (hrefl : ∀ s, p s s) (htrans : ∀ {s t u}, p s t → p t u → p s u)
    {os : List ActionOp} (hop : ∀ o ∈ os, ∀ s t, (runOp s o).state? = some t → p s t) {s t : State}
    (h : (runOps s os).state? = some t) : p s t := by
  induction os generalizing s with
  | nil => cases h; exact hrefl _
  | cons o os ih =>
    have ho := hop o (List.mem_cons_self ..)
    simp only [runOps] at h
    split at h
    · rename_i u hu
      exact htrans (ho s u (by rw [hu]; rfl)) (ih (fun o' h' => hop o' (List.mem_cons_of_mem _ h')) h)
    · rename_i u c hu; cases h; exact ho s t (by rw [hu]; rfl)
    · cases h

theorem runOps_frame {s t : State} {os : List ActionOp} (h : (runOps s os).state? = some t) : WorkFrame s t :=
  runOps_state WorkFrame.refl WorkFrame.trans (fun _ _ _ _ ho => runOp_frame ho) h

/-- The frame of a scripted Action, scripts dropped by one (42_engine R153). -/
theorem actScript_frame {s t : State} (h : (actScript s).state? = some t) : WorkFrame s.dropRun t := by
  unfold actScript at h
  rw [WorkOut.thenAnswer_state?] at h
  exact runOps_frame h

/-- What the MMU's function does is nothing, or what one of two operations of the internal port does (42_engine R152). -/
theorem actMmu_state {p : State → Prop} {m : MmuFunction} {s t : State} (h : (actMmu m s).state? = some t) (hs : p s)
    (hok : ∀ i b u r, i = .xltResolve ∨ (∃ c, i = .trapSetFault c) → portOp i b s = some (.ok u r) → p { u with iresp := r })
    (hfatal : ∀ r, p { s with iresp := r }) : p t := by
  unfold actMmu at h
  split at h
  · cases h; exact hs
  · unfold mmuServe at h
    split at h
    · rw [WorkOut.thenAnswer_state?] at h
      exact answer_state h (fun u r e => hok .xltResolve _ u r (.inl rfl) (by rw [portOp, e])) hfatal
    · rw [WorkOut.thenAnswer_state?] at h
      exact answer_state h (fun u r e => hok (.trapSetFault _) _ u r (.inr ⟨_, rfl⟩) (by rw [portOp, e])) hfatal
  · cases h; exact hs

/-- The frame of the MMU's function (43_xlate R165). -/
theorem actMmu_frame {m : MmuFunction} {s t : State} (h : (actMmu m s).state? = some t) : WorkFrame s t :=
  actMmu_state h (.refl s) (fun _ _ _ _ _ ho => (portOp_frame ho).work _) (fun r => (PortFrame.refl s).work r)

/-- An external Action is the MMU's function or a script. -/
theorem actExternal_cases (e : ExtAction) (s : State) :
    (∃ m, s.mmuOf e = some m ∧ actExternal e s = actMmu m s) ∨ (s.mmuOf e = none ∧ actExternal e s = actScript s) := by
  unfold actExternal
  split
  · rename_i m h; exact .inl ⟨m, h, rfl⟩
  · rename_i h; exact .inr ⟨h, rfl⟩

/-! ### A script cut in two -/

/-- A list of things done is its first part done, then the rest (42_engine R136). -/
theorem runOps_append {s w : State} {os : List ActionOp} (os' : List ActionOp) (h : runOps s os = .ok w) :
    runOps s (os ++ os') = runOps w os' := by
  induction os generalizing s with
  | nil => cases h; rfl
  | cons o os ih =>
    simp only [runOps, List.cons_append] at h ⊢
    split at h
    · exact ih h
    · cases h
    · cases h

/-- A list of things is done up to one that is fatal, and no further (log entry 30). -/
theorem runOps_fatal {s w u : State} {os os' : List ActionOp} {o : ActionOp} {c : FatalCode} (h : runOps s os = .ok w)
    (ho : runOp w o = .fatal u c) : runOps s (os ++ o :: os') = .fatal u c := by
  rw [runOps_append _ h, runOps, ho]

/-- A list of things is done up to one that stops the model (log entry 12). -/
theorem runOps_fault {s w : State} {os os' : List ActionOp} {o : ActionOp} {r : Fault} (h : runOps s os = .ok w)
    (ho : runOp w o = .fault r) : runOps s (os ++ o :: os') = .fault r := by
  rw [runOps_append _ h, runOps, ho]

/-- A fatal leaves everything but the answer as it was (00_scope R7). -/
theorem runOp_fatal {s t : State} {o : ActionOp} {c : FatalCode} (h : runOp s o = .fatal t c) :
    t = { s with iresp := Response.ofFatal c } := by
  have key : ∀ r : OpResult, answer s r = .fatal t c → t = { s with iresp := Response.ofFatal c } := by
    intro r hr
    cases r with
    | ok u r => cases hr
    | fatal d => cases hr; rfl
  cases o with
  | issue cw a b d e =>
    simp only [runOp, issue] at h
    split at h
    · exact key _ h
    · split at h
      · cases h
      · exact key _ h
  | setNextPc v => cases h
  | setPriv v => cases h
  | setVirt v => cases h
  | setXlateMode v => cases h
  | setInst a b d e => cases h
  | memRead a n => cases h
  | memWrite a n v => cases h

/-- A scripted Action whose script meets a fatal (42_engine R141; log entry 30). -/
theorem actScript_fatal {s w u : State} {os os' : List ActionOp} {o : ActionOp} {c : FatalCode}
    (hs : s.nextRun.ops = os ++ o :: os') (h : runOps s.dropRun os = .ok w) (ho : runOp w o = .fatal u c) :
    actScript s = .fatal u c := by
  rw [actScript, hs, runOps_fatal h ho, WorkOut.thenAnswer]

/-- A scripted Action whose script meets an Engine operation (log entry 12). -/
theorem actScript_fault {s w : State} {os os' : List ActionOp} {o : ActionOp} {r : Fault}
    (hs : s.nextRun.ops = os ++ o :: os') (h : runOps s.dropRun os = .ok w) (ho : runOp w o = .fault r) :
    actScript s = .fault r := by
  rw [actScript, hs, runOps_fault h ho, WorkOut.thenAnswer]

/-! ### The invariant's part -/

theorem Good.iresp {s : State} (h : Good s) (r : Response) : Good { s with iresp := r } :=
  ⟨h.cells, h.csrs, h.slot, h.mem⟩

theorem Good.answer {s t : State} {o : OpResult} (hs : Good s) (hok : ∀ u r, o = .ok u r → Good u)
    (h : (answer s o).state? = some t) : Good t :=
  answer_state h (fun u r e => (hok u r e).iresp r) (fun r => hs.iresp r)

theorem Good.runOp {s t : State} {o : ActionOp} (hs : Good s) (hc : s.cfg.ok = true)
    (h : (runOp s o).state? = some t) : Good t := by
  have hcs := (State.cellsFit_iff s).1 hs.cells
  cases o with
  | issue cw a b c d => exact issue_state h (fun _ _ _ _ ho => (hs.portOp hc ho).iresp _) (fun r => hs.iresp r)
  | setNextPc v => cases h; exact hs.setNextPc (fits_wordOf _ _)
  | setPriv v => cases h; exact ⟨hs.cells, hs.csrs, hs.slot, hs.mem⟩
  | setVirt v => cases h; exact ⟨hs.cells, hs.csrs, hs.slot, hs.mem⟩
  | setXlateMode v => cases h; exact ⟨hs.cells, hs.csrs, hs.slot, hs.mem⟩
  | setInst a b c d => cases h; exact ⟨hs.cells, hs.csrs, hs.slot, hs.mem⟩
  | memRead a n => cases h; exact ⟨hs.cells, hs.csrs, hs.slot, hs.mem⟩
  | memWrite a n v => cases h; exact ⟨hs.cells, hs.csrs, hs.slot, Memory.wf_write hs.mem (BitVec.isLt _)⟩

theorem Good.runOps {s t : State} {os : List ActionOp} (hs : Good s) (hc : s.cfg.ok = true)
    (h : (runOps s os).state? = some t) : Good t :=
  (runOps_state (p := fun s t => Good s → s.cfg.ok = true → Good t ∧ t.cfg = s.cfg) (fun _ h _ => ⟨h, rfl⟩)
    (fun h h' hs hc => by
      obtain ⟨h1, e1⟩ := h hs hc
      obtain ⟨h2, e2⟩ := h' h1 (by rw [e1]; exact hc)
      exact ⟨h2, e2.trans e1⟩)
    (fun o _ s t ho hs hc => ⟨hs.runOp hc ho, (runOp_frame ho).cfg⟩) h hs hc).1

/-- Every Action keeps the cells, the CSR file, the slot and the store in order, whichever way it ends. -/
theorem Good.invoke {s t : State} {a : Action} (hs : Good s) (hc : s.cfg.ok = true)
    (h : (invoke a s).state? = some t) : Good t := by
  have hcs := (State.cellsFit_iff s).1 hs.cells
  unfold Machine.invoke at h
  split at h
  · unfold actAssemble at h
    split at h
    · cases h; exact hs
    · cases h
      exact ⟨(State.cellsFit_iff _).2 ⟨hcs.1, hcs.2.1, hcs.2.2.1, fits_trunc _ _, hcs.2.2.2.2⟩, hs.csrs, hs.slot, hs.mem⟩
  · cases h
    exact ⟨(State.cellsFit_iff _).2 ⟨hcs.1, hcs.2.1, hcs.2.2.2.1, hcs.2.2.2⟩, hs.csrs, hs.slot, hs.mem⟩
  · unfold actDeliverTrap at h
    rw [WorkOut.thenAnswer_state?] at h
    exact hs.answer (fun u r e => hs.opDeliver hc e) h
  · unfold actIllegal at h
    rw [WorkOut.thenAnswer_state?] at h
    exact hs.answer (fun u r e => hs.opSetFault e) h
  · rename_i e _
    rcases actExternal_cases e s with ⟨m, -, he⟩ | ⟨-, he⟩ <;> rw [he] at h
    · exact actMmu_state h hs (fun _ _ _ _ _ ho => (hs.portOp hc ho).iresp _) (fun r => hs.iresp r)
    · unfold actScript at h
      rw [WorkOut.thenAnswer_state?] at h
      exact Good.runOps (s := s.dropRun) ⟨hs.cells, hs.csrs, hs.slot, hs.mem⟩ hc h

/-- No Action touches the configuration, the Engine's cells, the latch, or the command port (42_engine R153). -/
structure ActFrame (s t : State) : Prop where
  cfg    : t.cfg = s.cfg
  eng    : t.eng = s.eng
  fatal  : t.fatal = s.fatal
  bus    : t.bus = s.bus
  resp   : t.resp = s.resp
  inputs : t.inputs = s.inputs
  idle   : t.idle = s.idle

theorem ActFrame.refl (s : State) : ActFrame s s := ⟨rfl, rfl, rfl, rfl, rfl, rfl, rfl⟩

theorem ActFrame.trans {s t u : State} (h : ActFrame s t) (h' : ActFrame t u) : ActFrame s u :=
  ⟨h'.1.trans h.1, h'.2.trans h.2, h'.3.trans h.3, h'.4.trans h.4, h'.5.trans h.5, h'.6.trans h.6, h'.7.trans h.7⟩

theorem WorkFrame.act {s t : State} (h : WorkFrame s t) : ActFrame s t :=
  ⟨h.cfg, h.eng, h.fatal, h.bus, h.resp, h.inputs, h.idle⟩

theorem invoke_frame {s t : State} {a : Action} (h : (invoke a s).state? = some t) : ActFrame s t := by
  unfold invoke at h
  split at h
  · unfold actAssemble at h
    split at h
    · cases h; exact .refl _
    · cases h; exact ⟨rfl, rfl, rfl, rfl, rfl, rfl, rfl⟩
  · cases h; exact ⟨rfl, rfl, rfl, rfl, rfl, rfl, rfl⟩
  · unfold actDeliverTrap at h
    rw [WorkOut.thenAnswer_state?] at h
    refine (answer_state (p := WorkFrame s) h (fun u r e => ?_) (fun r => (PortFrame.refl s).work r)).act
    exact (portOp_frame (i := .trapDeliver) (b := Bus.zero) (by rw [portOp, e])).work r
  · unfold actIllegal at h
    rw [WorkOut.thenAnswer_state?] at h
    refine (answer_state (p := WorkFrame s) h (fun u r e => ?_) (fun r => (PortFrame.refl s).work r)).act
    exact (portOp_frame (i := .trapSetFault FaultCause.illegalInst.code) (b := _) (by rw [portOp, e])).work r
  · rename_i e _
    rcases actExternal_cases e s with ⟨m, -, he⟩ | ⟨-, he⟩ <;> rw [he] at h
    · exact (actMmu_frame h).act
    · have := (actScript_frame h).act
      exact ⟨this.1, this.2, this.3, this.4, this.5, this.6, this.7⟩

/-! ### Where an Action stops the model -/

theorem portOp_none {i : Instr} {b : Bus} {s : State} : portOp i b s = none ↔ isEngineOp i = true := by
  cases i <;> simp [portOp, isEngineOp]

theorem answer_ne_fault (s : State) (o : OpResult) (r : Fault) : answer s o ≠ .fault r := by
  cases o <;> simp [answer]

/-- An Action that issues no Engine operation does not stop the model (log entry 12). -/
theorem runOp_ne_fault {s : State} {o : ActionOp} (h : noEngine o = true) (r : Fault) : runOp s o ≠ .fault r := by
  cases o with
  | issue cw a b c d =>
    simp only [runOp, issue]
    simp only [noEngine, issuesOnly] at h
    split
    · exact answer_ne_fault _ _ _
    · rename_i i hi
      rw [hi] at h
      split
      · rename_i hn
        simp [portOp_none.1 hn] at h
      · exact answer_ne_fault _ _ _
  | setNextPc v => simp [runOp]
  | setPriv v => simp [runOp]
  | setVirt v => simp [runOp]
  | setXlateMode v => simp [runOp]
  | setInst a b c d => simp [runOp]
  | memRead a n => simp [runOp]
  | memWrite a n v => simp [runOp]

theorem runOps_ne_fault {s : State} {os : List ActionOp} (h : os.all noEngine = true) (r : Fault) :
    runOps s os ≠ .fault r := by
  induction os generalizing s with
  | nil => simp [runOps]
  | cons o os ih =>
    simp only [List.all_cons, Bool.and_eq_true] at h
    simp only [runOps]
    split
    · exact ih h.2
    · simp
    · rename_i r' hr; exact absurd hr (runOp_ne_fault h.1 r')

theorem WorkOut.thenAnswer_ne_fault {w : WorkOut} {ct : ControlTransfer} {r : Fault} (h : w ≠ .fault r) :
    w.thenAnswer ct ≠ .fault r := by
  cases w <;> simp_all [WorkOut.thenAnswer]

theorem State.scriptsAll_next {s : State} {p : ActionOp → Bool} (h : s.scriptsAll p = true) :
    s.nextRun.ops.all p = true := by
  simp only [State.scriptsAll, Bool.and_eq_true] at h
  unfold State.nextRun
  split
  · exact h.2
  · rename_i r rs hr
    rw [hr] at h
    simp only [List.all_cons, Bool.and_eq_true] at h
    exact h.1.1

/-- The scripts after an Action are those before it, or those without the first. -/
theorem invoke_scripts {s t : State} {a : Action} (h : (invoke a s).state? = some t) :
    (t.script = s.script ∨ t.script = s.script.tail) ∧ t.idle = s.idle := by
  refine ⟨?_, (invoke_frame h).idle⟩
  unfold invoke at h
  split at h
  · unfold actAssemble at h
    split at h <;> (cases h; exact .inl rfl)
  · cases h; exact .inl rfl
  · unfold actDeliverTrap at h
    rw [WorkOut.thenAnswer_state?] at h
    refine .inl (answer_state (p := WorkFrame s) h (fun u r e => ?_) (fun r => (PortFrame.refl s).work r)).script
    exact (portOp_frame (i := .trapDeliver) (b := Bus.zero) (by rw [portOp, e])).work r
  · unfold actIllegal at h
    rw [WorkOut.thenAnswer_state?] at h
    refine .inl (answer_state (p := WorkFrame s) h (fun u r e => ?_) (fun r => (PortFrame.refl s).work r)).script
    exact (portOp_frame (i := .trapSetFault FaultCause.illegalInst.code) (b := _) (by rw [portOp, e])).work r
  · rename_i e _
    rcases actExternal_cases e s with ⟨m, -, he⟩ | ⟨-, he⟩ <;> rw [he] at h
    · exact .inl (actMmu_frame h).script
    · exact .inr (actScript_frame h).script

theorem State.scriptsAll_invoke {s t : State} {a : Action} {p : ActionOp → Bool} (h : (invoke a s).state? = some t)
    (hs : s.scriptsAll p = true) : t.scriptsAll p = true := by
  obtain ⟨h1, h2⟩ := invoke_scripts h
  simp only [State.scriptsAll, Bool.and_eq_true, List.all_eq_true] at *
  refine ⟨?_, by rw [h2]; exact hs.2⟩
  rcases h1 with h1 | h1 <;> rw [h1]
  · exact hs.1
  · exact fun r hr => hs.1 r (List.mem_of_mem_tail hr)

theorem actMmu_ne_fault (m : MmuFunction) (s : State) (r : Fault) : actMmu m s ≠ .fault r := by
  unfold actMmu
  split
  · simp
  · unfold mmuServe
    split <;> exact WorkOut.thenAnswer_ne_fault (answer_ne_fault _ _ _)
  · simp

theorem invoke_ne_fault {s : State} {a : Action} (h : s.scriptsAll noEngine = true) (r : Fault) :
    invoke a s ≠ .fault r := by
  unfold invoke
  split
  · unfold actAssemble; split <;> simp
  · simp [actCommitPc]
  · exact WorkOut.thenAnswer_ne_fault (answer_ne_fault _ _ _)
  · exact WorkOut.thenAnswer_ne_fault (answer_ne_fault _ _ _)
  · rename_i e _
    rcases actExternal_cases e s with ⟨m, -, he⟩ | ⟨-, he⟩ <;> rw [he]
    · exact actMmu_ne_fault m s r
    · exact WorkOut.thenAnswer_ne_fault (runOps_ne_fault (State.scriptsAll_next h) r)

end Sys2Proof.Machine
end

