-- ==== Sys2Proof/Laws/Engine.lean ====
section
/-!
SUPPORT. The run of a group: what an Engine operation runs, how a run splits at an Action, what a run keeps, and what the
Engine's cells hold after it (42_engine R136, R141, R147).
-/

namespace Sys2Proof.Machine

/-- An operation that is not the Engine's does on the command port what it does on the internal one (30_encoding R70). -/
theorem exec_command {i : Instr} (h : isEngineOp i = false) (s : State) :
    exec i s = command s (fun u => (portOp i s.bus u).getD (.fatal .badCommand)) := by
  cases i <;> first | rfl | cases h

/-- A latched fatal answers every operation (00_scope R7). -/
theorem exec_refused {s : State} {c : FatalCode} (h : s.fatal = some c) (i : Instr) : exec i s = .next (s.refuse c) := by
  by_cases he : isEngineOp i = false
  · rw [exec_command he, command_latched h]
  · cases i <;> simp only [isEngineOp, not_true_eq_false] at he
    · simp only [exec, execEngRunGroup, h]
    · simp only [exec, execEngResume, h]

/-- An operation of a port that succeeds answers status OK (30_encoding R71). -/
theorem portOp_status {i : Instr} {b : Bus} {s t : State} {r : Response} (h : portOp i b s = some (.ok t r)) :
    r.status = false := by
  cases i with
  | rfRead c n =>
    have h := Option.some.inj h
    unfold opRead at h
    split at h
    · cases h
    · cases h; rfl
  | rfWrite c n =>
    have h := Option.some.inj h
    unfold opWrite at h
    split at h
    · cases h
    · cases h; rfl
  | rfReadDirect c n =>
    have h := Option.some.inj h
    unfold opRead at h
    split at h
    · cases h
    · cases h; rfl
  | rfWriteDirect c n =>
    have h := Option.some.inj h
    unfold opWriteDirect at h
    split at h
    · cases h
    · cases h; rfl
  | csrFieldRead n k =>
    have h := Option.some.inj h
    unfold opFieldRead at h
    split at h
    · cases h
    · cases h; rfl
  | csrFieldWrite n k =>
    have h := Option.some.inj h
    unfold opFieldWrite at h
    split at h
    · cases h
    · cases h; rfl
  | engRunGroup => cases h
  | engResume => cases h
  | xltRequest => obtain ⟨-, rfl, -⟩ := opRequest_ok (Option.some.inj h); rfl
  | xltResolve => obtain ⟨-, rfl, -⟩ := opResolve_ok (Option.some.inj h); rfl
  | xltResult => obtain ⟨-, rfl, -⟩ := opResult_ok (Option.some.inj h); rfl
  | xltPopResult => obtain ⟨-, rfl, -⟩ := opPopResult_ok (Option.some.inj h); rfl
  | trapSetFault c => obtain ⟨-, -, -, rfl, -⟩ := opSetFault_ok (Option.some.inj h); rfl
  | trapSetInterrupt c => obtain ⟨-, -, -, rfl, -⟩ := opSetInterrupt_ok (Option.some.inj h); rfl
  | trapDeliver => obtain ⟨_, _, _, -, -, rfl, -⟩ := opDeliver_ok (Option.some.inj h); rfl

/-- An Engine operation that starts a group is the run of its Actions, answered. -/
theorem exec_of_starts {i : Instr} {s s0 : State} {g k : Nat} {grp : Group} {as : List Action}
    (h : EngineStarts i s s0 g k grp as) : exec i s = finishRun g (runActions g grp.next k s0 as) := by
  rcases h.entry with ⟨rfl, hp, rfl, rfl⟩ | ⟨rfl, hp, rfl, rfl⟩
  · simp only [exec, execEngRunGroup, h.safe, hp, h.next, runGroup, h.group, h.acts]
    rfl
  · simp only [exec, execEngResume, h.safe, hp, h.next, runGroup, State.unpause, State.setEng, h.group, h.acts]
    rfl

/-- The state a run starts in: the Engine not paused, its cursor 0, all else as it was. -/
theorem EngineStarts.start {i : Instr} {s s0 : State} {g k : Nat} {grp : Group} {as : List Action}
    (h : EngineStarts i s s0 g k grp as) :
    s0.eng.paused = false ∧ s0.eng.next = some g ∧ s0 = { s with eng := s0.eng } := by
  rcases h.entry with ⟨-, hp, rfl, -⟩ | ⟨-, -, -, rfl⟩
  · exact ⟨hp, h.next, rfl⟩
  · exact ⟨rfl, h.next, rfl⟩

/-! ### Splitting a run -/

theorem runActions_cons_continue {g i : Nat} {next : Option Nat} {s t : State} {a : Action} (as : List Action)
    (h : invoke a s = .ok t .continue) : runActions g next i s (a :: as) = runActions g next (i + 1) t as := by
  simp only [runActions, h]

/-- Actions that all continue are run, and the run goes on with the rest (42_engine R136). -/
theorem runActions_through {g i : Nat} {next : Option Nat} {s t : State} {before : List Action} (after : List Action)
    (h : runThrough s before = some t) :
    runActions g next i s (before ++ after) = runActions g next (i + before.length) t after := by
  induction before generalizing s i with
  | nil => cases h; rfl
  | cons a as ih =>
    unfold runThrough at h
    split at h
    · rename_i u hu
      rw [List.cons_append, runActions_cons_continue _ hu, ih h, List.length_cons]
      congr 1; omega
    · cases h
    · cases h
    · cases h
    · cases h

theorem runThrough_frame {s t : State} {as : List Action} (h : runThrough s as = some t) : ActFrame s t := by
  induction as generalizing s with
  | nil => cases h; exact .refl _
  | cons a as ih =>
    unfold runThrough at h
    split at h
    · rename_i u hu; exact (invoke_frame (by rw [hu]; rfl)).trans (ih h)
    · cases h
    · cases h
    · cases h
    · cases h

/-! ### What a run keeps -/

/-- The state a run ends in, where it ends in one. -/
def RunOut.state? : RunOut → Option State
  | .done s _ => some s
  | .fatal s _ => some s
  | .fault _ => none

/-- A relation that every Action has, that a pause has, and that composes, holds of a whole run. -/
theorem runActions_state {p : State → State → Prop} (hrefl : ∀ s, p s s) (htrans : ∀ {s t u}, p s t → p t u → p s u)
    {as : List Action} (hact : ∀ a ∈ as, ∀ s t, (invoke a s).state? = some t → p s t)
    (hpause : ∀ (s : State) (k : Nat), p s (s.setEng { s.eng with paused := true, cursor := k })) {g i : Nat}
    {next : Option Nat} {s t : State} (h : (runActions g next i s as).state? = some t) : p s t := by
  induction as generalizing s i with
  | nil => cases h; exact hrefl _
  | cons a as ih =>
    have ha := hact a (List.mem_cons_self ..)
    simp only [runActions] at h
    split at h
    · cases h
    · rename_i u c hu; cases h; exact ha s t (by rw [hu]; rfl)
    · rename_i u hu
      exact htrans (ha s u (by rw [hu]; rfl)) (ih (fun a' h' => hact a' (List.mem_cons_of_mem _ h')) h)
    · rename_i u n hu
      unfold transferTo at h
      split at h <;> (cases h; exact ha _ _ (by rw [hu]; rfl))
    · rename_i u hu; cases h; exact htrans (ha s u (by rw [hu]; rfl)) (hpause u _)

/-- The cells that no run touches. -/
theorem runActions_cfg {g i : Nat} {next : Option Nat} {s t : State} {as : List Action}
    (h : (runActions g next i s as).state? = some t) :
    t.cfg = s.cfg ∧ t.fatal = s.fatal ∧ t.bus = s.bus ∧ t.inputs = s.inputs ∧ t.idle = s.idle :=
  runActions_state
    (p := fun s t => t.cfg = s.cfg ∧ t.fatal = s.fatal ∧ t.bus = s.bus ∧ t.inputs = s.inputs ∧ t.idle = s.idle)
    (fun _ => ⟨rfl, rfl, rfl, rfl, rfl⟩)
    (fun h h' => ⟨h'.1.trans h.1, h'.2.1.trans h.2.1, h'.2.2.1.trans h.2.2.1, h'.2.2.2.1.trans h.2.2.2.1,
      h'.2.2.2.2.trans h.2.2.2.2⟩)
    (fun a _ s t ha => by have := invoke_frame ha; exact ⟨this.cfg, this.fatal, this.bus, this.inputs, this.idle⟩)
    (fun _ _ => ⟨rfl, rfl, rfl, rfl, rfl⟩) h

theorem Good.setEng {s : State} (h : Good s) (e : Engine) : Good (s.setEng e) := ⟨h.cells, h.csrs, h.slot, h.mem⟩

theorem Good.runActions {g i : Nat} {next : Option Nat} {s t : State} {as : List Action} (hs : Good s)
    (hc : s.cfg.ok = true) (h : (runActions g next i s as).state? = some t) : Good t :=
  (runActions_state (p := fun s t => Good s → s.cfg.ok = true → Good t ∧ t.cfg = s.cfg) (fun _ h _ => ⟨h, rfl⟩)
    (fun h h' hs hc => by
      obtain ⟨h1, e1⟩ := h hs hc
      obtain ⟨h2, e2⟩ := h' h1 (by rw [e1]; exact hc)
      exact ⟨h2, e2.trans e1⟩)
    (fun a _ s t ha hs hc => ⟨hs.invoke hc ha, (invoke_frame ha).cfg⟩)
    (fun s k hs _ => ⟨hs.setEng _, rfl⟩) h hs hc).1

/-- How the Engine stands after a run that is done: the next group is the link, a group of GRAPH transferred to, or the same
group with the Engine paused (42_engine R136). -/
theorem runActions_done {g i : Nat} {next : Option Nat} {s t : State} {as : List Action} {n : Option Nat}
    (h : runActions g next i s as = .done t n) :
    (n = next ∧ t.eng = s.eng) ∨ (∃ u, n = some u ∧ u < s.cfg.graph.length ∧ t.eng = s.eng) ∨
    (∃ k, n = some g ∧ i < k ∧ k ≤ i + as.length ∧ t.eng = { s.eng with paused := true, cursor := k }) := by
  induction as generalizing s i with
  | nil => cases h; exact .inl ⟨rfl, rfl⟩
  | cons a as ih =>
    simp only [runActions] at h
    split at h
    · cases h
    · cases h
    · rename_i u hu
      have f := invoke_frame (s := s) (t := u) (by rw [hu]; rfl)
      rcases ih h with ⟨h1, h2⟩ | ⟨v, h1, h2, h3⟩ | ⟨k, h1, h2, h3, h4⟩
      · exact .inl ⟨h1, h2.trans f.eng⟩
      · exact .inr (.inl ⟨v, h1, f.cfg ▸ h2, h3.trans f.eng⟩)
      · refine .inr (.inr ⟨k, h1, by omega, by rw [List.length_cons]; omega, ?_⟩)
        rw [h4, f.eng]
    · rename_i u m hu
      have f := invoke_frame (s := s) (t := u) (by rw [hu]; rfl)
      unfold transferTo at h
      split at h
      · rename_i hlt; cases h; exact .inr (.inl ⟨m, rfl, f.cfg ▸ hlt, f.eng⟩)
      · cases h
    · rename_i u hu
      have f := invoke_frame (s := s) (t := u) (by rw [hu]; rfl)
      cases h
      refine .inr (.inr ⟨i + 1, rfl, by omega, by rw [List.length_cons]; omega, ?_⟩)
      rw [← f.eng]; rfl

/-- A run that a fatal stopped has not touched the Engine's cells (42_engine R141). -/
theorem runActions_fatal {g i : Nat} {next : Option Nat} {s t : State} {as : List Action} {c : FatalCode}
    (h : runActions g next i s as = .fatal t c) : t.eng = s.eng := by
  induction as generalizing s i with
  | nil => cases h
  | cons a as ih =>
    simp only [runActions] at h
    split at h
    · cases h
    · rename_i u d hu; cases h; exact (invoke_frame (s := s) (t := t) (by rw [hu]; rfl)).eng
    · rename_i u hu; exact (ih h).trans (invoke_frame (s := s) (t := u) (by rw [hu]; rfl)).eng
    · rename_i u m hu
      unfold transferTo at h
      split at h
      · cases h
      · cases h; exact (invoke_frame (s := s) (t := t) (by rw [hu]; rfl)).eng
    · cases h

/-! ### Where a run stops the model -/

theorem runActions_ne_fault {g i : Nat} {next : Option Nat} {s : State} {as : List Action}
    (h : s.scriptsAll noEngine = true) (r : Fault) : runActions g next i s as ≠ .fault r := by
  induction as generalizing s i with
  | nil => simp [runActions]
  | cons a as ih =>
    simp only [runActions]
    split
    · rename_i r' hr; exact absurd hr (invoke_ne_fault h r')
    · simp
    · rename_i u hu; exact ih (State.scriptsAll_invoke (by rw [hu]; rfl) h)
    · unfold transferTo; split <;> simp
    · simp

end Sys2Proof.Machine
end

