-- ==== Sys2Proof/Laws/Conformance.lean ====
section
/-!
SUPPORT. What a conforming external Action can do (42_engine R150 to R153, 43_xlate R165): one lemma for what the operations it
may issue do, by kind, and one for a whole script, by induction over it.
-/

namespace Sys2Proof.Machine

/-- A script that ends well does each thing well, with the rest to do. -/
theorem runOps_cons_ok {s t : State} {o : ActionOp} {os : List ActionOp} (h : runOps s (o :: os) = .ok t) :
    ∃ u, runOp s o = .ok u ∧ runOps u os = .ok t := by
  simp only [runOps] at h
  split at h
  · rename_i u hu; exact ⟨u, hu, h⟩
  · cases h
  · cases h

/-- What holds along a script holds of its first thing, and along the rest. -/
theorem holdsAlong_cons {p : State → ActionOp → Bool} {s u : State} {o : ActionOp} {os : List ActionOp}
    (h : holdsAlong p s (o :: os) = true) (hu : runOp s o = .ok u) : p s o = true ∧ holdsAlong p u os = true := by
  simpa only [holdsAlong, hu, Bool.and_eq_true] using h

/-- An operation on the internal port that ends well is a decoded one, done (30_encoding R70). -/
theorem issue_ok {cw : CmdWord} {b : Bus} {s t : State} (h : issue cw b s = .ok t) :
    ∃ i u r, decode cw = .ok i ∧ portOp i b s = some (.ok u r) ∧ t = { u with iresp := r } := by
  unfold issue at h
  split at h
  · cases h
  · rename_i i hi
    split at h
    · cases h
    · rename_i o ho
      cases o with
      | ok u r => cases h; exact ⟨i, u, r, hi, ho, rfl⟩
      | fatal c => cases h

theorem actExternal_ok {s t : State} {e : ExtAction} {ct : ControlTransfer} (hm : s.mmuOf e = none)
    (h : actExternal e s = .ok t ct) : runOps s.dropRun s.nextRun.ops = .ok t ∧ ct = s.nextRun.ct := by
  rcases actExternal_cases e s with ⟨m, he, -⟩ | ⟨-, he⟩
  · rw [hm] at he; cases he
  · rw [he, actScript] at h
    revert h
    cases runOps s.dropRun s.nextRun.ops <;> simp only [WorkOut.thenAnswer] <;> intro h <;> cases h
    exact ⟨rfl, rfl⟩

/-- What a script whose invocation conforms is made of. -/
theorem conforms_iff {s : State} {raw : BitVec 32} {e : ExtAction} {r : ActionRun} :
    conforms s raw e r = true ↔ r.ops.all (mayDo e) = true ∧ holdsAlong (operandsOk e raw) s.dropRun r.ops = true ∧
      answersWell s.cfg r = true ∧ contractMet s e r = true := by
  simp only [conforms, Bool.and_eq_true, and_assoc]

/-- How a conforming script answers (42_engine R153, 90_conflicts C9). -/
theorem answersWell_transfer {c : Config} {r : ActionRun} (h : answersWell c r = true) :
    (r.ops.any setsCause = true ↔ r.ct = .transfer c.exception) ∧ (∀ g, r.ct = .transfer g → g = c.exception) := by
  unfold answersWell at h
  split at h <;> rename_i hct <;> simp_all

/-- What a front-end Action or A_MMU does to the state, but for the slot, the request it resolves and the record it writes: reads
and memory accesses alone (42_engine R150 to R152). -/
structure FrontStep (e : ExtAction) (s t : State) : Prop where
  frame : t = { s with trap := t.trap, xp := t.xp, curInst := t.curInst, iresp := t.iresp, mem := t.mem, memData := t.memData }
  xp    : e ≠ .aMmu → t.xp = s.xp
  req   : t.xp.vaddr = s.xp.vaddr ∧ t.xp.size = s.xp.size
  inst  : e ≠ .aDecode → t.curInst = s.curInst
  mem   : e ≠ .aMmu → t.mem = s.mem

theorem FrontStep.refl (e : ExtAction) (s : State) : FrontStep e s s := ⟨rfl, fun _ => rfl, ⟨rfl, rfl⟩, fun _ => rfl, fun _ => rfl⟩

theorem FrontStep.trans {e : ExtAction} {s t u : State} (h : FrontStep e s t) (h' : FrontStep e t u) : FrontStep e s u :=
  ⟨by rw [h'.frame, h.frame], fun n => (h'.xp n).trans (h.xp n), ⟨h'.req.1.trans h.req.1, h'.req.2.trans h.req.2⟩,
    fun n => (h'.inst n).trans (h.inst n), fun n => (h'.mem n).trans (h.mem n)⟩

/-- Every operation that is no write for a handler alone leaves all but the slot and the port as it was. -/
theorem portOp_front {e : ExtAction} {i : Instr} {b : Bus} {s t : State} {r : Response} (he : isHandler e = false)
    (hi : mayIssue e i = true) (h : portOp i b s = some (.ok t r)) :
    FrontStep e s t ∧ (i ≠ .xltResolve → t.xp = s.xp) ∧ (isCauseSetter i = false → t.trap = s.trap) := by
  cases i with
  | rfRead c n => rw [opRead_ok (Option.some.inj h)]; exact ⟨.refl e s, fun _ => rfl, fun _ => rfl⟩
  | rfWrite c n => simp only [mayIssue, he] at hi; cases hi
  | rfReadDirect c n => cases hi
  | rfWriteDirect c n => cases hi
  | csrFieldRead n k => rw [opFieldRead_ok (Option.some.inj h)]; exact ⟨.refl e s, fun _ => rfl, fun _ => rfl⟩
  | csrFieldWrite n k => simp only [mayIssue, he] at hi; cases hi
  | engRunGroup => cases hi
  | engResume => cases hi
  | xltRequest => simp only [mayIssue, he] at hi; cases hi
  | xltResolve =>
    obtain ⟨-, -, rfl⟩ := opResolve_ok (Option.some.inj h)
    have hm : e = .aMmu := by simpa [mayIssue] using hi
    exact ⟨⟨rfl, fun n => absurd hm n, ⟨rfl, rfl⟩, fun _ => rfl, fun _ => rfl⟩, fun n => absurd rfl n, fun _ => rfl⟩
  | xltResult => simp only [mayIssue, he] at hi; cases hi
  | xltPopResult => simp only [mayIssue, he] at hi; cases hi
  | trapSetFault c =>
    obtain ⟨-, -, -, -, rfl⟩ := opSetFault_ok (Option.some.inj h)
    exact ⟨⟨rfl, fun _ => rfl, ⟨rfl, rfl⟩, fun _ => rfl, fun _ => rfl⟩, fun _ => rfl, fun n => by cases n⟩
  | trapSetInterrupt c =>
    obtain ⟨-, -, -, -, rfl⟩ := opSetInterrupt_ok (Option.some.inj h)
    exact ⟨⟨rfl, fun _ => rfl, ⟨rfl, rfl⟩, fun _ => rfl, fun _ => rfl⟩, fun _ => rfl, fun n => by cases n⟩
  | trapDeliver => cases hi

/-- One thing that a front-end Action or A_MMU may do. -/
theorem runOp_front {e : ExtAction} {o : ActionOp} {s t : State} (he : isHandler e = false) (ho : mayDo e o = true)
    (h : runOp s o = .ok t) :
    FrontStep e s t ∧ (issues .xltResolve o = false → t.xp = s.xp) ∧ (setsCause o = false → t.trap = s.trap) := by
  cases o with
  | issue cw a b c d =>
    obtain ⟨i, u, r, hi, hp, rfl⟩ := issue_ok h
    simp only [mayDo, hi] at ho
    obtain ⟨h1, h2, h3⟩ := portOp_front he ho hp
    refine ⟨⟨?_, h1.xp, h1.req, h1.inst, h1.mem⟩, fun n => h2 ?_, fun n => h3 ?_⟩
    · rw [h1.frame]
    · rintro rfl; simp [issues, issuesOnly, hi] at n
    · simpa [setsCause, issuesOnly, hi] using n
  | setNextPc v => simp only [mayDo, he] at ho; cases ho
  | setPriv v => simp only [mayDo, he] at ho; cases ho
  | setVirt v => simp only [mayDo, he] at ho; cases ho
  | setXlateMode v => simp only [mayDo, he] at ho; cases ho
  | setInst a b c d =>
    cases h
    have hd : e = .aDecode := by simpa [mayDo] using ho
    exact ⟨⟨rfl, fun _ => rfl, ⟨rfl, rfl⟩, fun n => absurd hd n, fun _ => rfl⟩, fun _ => rfl, fun _ => rfl⟩
  | memRead a n => cases h; exact ⟨⟨rfl, fun _ => rfl, ⟨rfl, rfl⟩, fun _ => rfl, fun _ => rfl⟩, fun _ => rfl, fun _ => rfl⟩
  | memWrite a n v =>
    cases h
    have hd : e = .aMmu := by simpa [mayDo, he] using ho
    exact ⟨⟨rfl, fun _ => rfl, ⟨rfl, rfl⟩, fun _ => rfl, fun n => absurd hd n⟩, fun _ => rfl, fun _ => rfl⟩

/-- The script of a front-end Action or A_MMU that ends well. -/
theorem runOps_front {e : ExtAction} {os : List ActionOp} {s t : State} (he : isHandler e = false)
    (ho : os.all (mayDo e) = true) (h : runOps s os = .ok t) : FrontStep e s t := by
  induction os generalizing s with
  | nil => cases h; exact .refl e _
  | cons o os ih =>
    simp only [List.all_cons, Bool.and_eq_true] at ho
    obtain ⟨u, hu, hr⟩ := runOps_cons_ok h
    exact (runOp_front he ho.1 hu).1.trans (ih ho.2 hr)

/-- A cause stays pending through whatever an Action may do, since no Action delivers (42_engine R153); one that sets a cause
leaves one. -/
theorem runOp_pending {e : ExtAction} {o : ActionOp} {s t : State} (ho : mayDo e o = true) (h : runOp s o = .ok t) :
    (setsCause o = true → s.trap.pendFault = none ∧ s.trap.pendIntr = none ∧
      (t.trap.pendFault ≠ none ∨ t.trap.pendIntr ≠ none)) ∧ (setsCause o = false → t.trap = s.trap) := by
  cases o with
  | issue cw a b c d =>
    obtain ⟨i, u, r, hi, hp, rfl⟩ := issue_ok h
    simp only [mayDo, hi] at ho
    simp only [setsCause, issuesOnly, hi]
    cases i with
    | rfRead c n => rw [opRead_ok (Option.some.inj hp)]; exact ⟨nofun, fun _ => rfl⟩
    | rfWrite c n => refine ⟨nofun, fun _ => ?_⟩; rw [opWrite_ok (Option.some.inj hp)]
    | rfReadDirect c n => cases ho
    | rfWriteDirect c n => cases ho
    | csrFieldRead n k => rw [opFieldRead_ok (Option.some.inj hp)]; exact ⟨nofun, fun _ => rfl⟩
    | csrFieldWrite n k => refine ⟨nofun, fun _ => ?_⟩; rw [opFieldWrite_ok (Option.some.inj hp)]
    | engRunGroup => cases ho
    | engResume => cases ho
    | xltRequest => obtain ⟨-, -, rfl⟩ := opRequest_ok (Option.some.inj hp); exact ⟨nofun, fun _ => rfl⟩
    | xltResolve => obtain ⟨-, -, rfl⟩ := opResolve_ok (Option.some.inj hp); exact ⟨nofun, fun _ => rfl⟩
    | xltResult => obtain ⟨-, -, rfl⟩ := opResult_ok (Option.some.inj hp); exact ⟨nofun, fun _ => rfl⟩
    | xltPopResult => obtain ⟨-, -, rfl⟩ := opPopResult_ok (Option.some.inj hp); exact ⟨nofun, fun _ => rfl⟩
    | trapSetFault c =>
      obtain ⟨-, h1, h2, -, rfl⟩ := opSetFault_ok (Option.some.inj hp)
      exact ⟨fun _ => ⟨h1, h2, .inl (by simp)⟩, nofun⟩
    | trapSetInterrupt c =>
      obtain ⟨-, h1, h2, -, rfl⟩ := opSetInterrupt_ok (Option.some.inj hp)
      exact ⟨fun _ => ⟨h1, h2, .inr (by simp)⟩, nofun⟩
    | trapDeliver => cases ho
  | setNextPc v => cases h; exact ⟨nofun, fun _ => rfl⟩
  | setPriv v => cases h; exact ⟨nofun, fun _ => rfl⟩
  | setVirt v => cases h; exact ⟨nofun, fun _ => rfl⟩
  | setXlateMode v => cases h; exact ⟨nofun, fun _ => rfl⟩
  | setInst a b c d => cases h; exact ⟨nofun, fun _ => rfl⟩
  | memRead a n => cases h; exact ⟨nofun, fun _ => rfl⟩
  | memWrite a n v => cases h; exact ⟨nofun, fun _ => rfl⟩

/-- A script sets a cause or leaves the slot; from an empty slot, a cause is pending after it exactly when it set one. -/
theorem runOps_pending {e : ExtAction} {os : List ActionOp} {s t : State} (ho : os.all (mayDo e) = true)
    (h : runOps s os = .ok t) :
    (os.any setsCause = true → t.trap.pendFault ≠ none ∨ t.trap.pendIntr ≠ none) ∧
    (os.any setsCause = false → t.trap = s.trap) := by
  induction os generalizing s with
  | nil => cases h; exact ⟨nofun, fun _ => rfl⟩
  | cons o os ih =>
    simp only [List.all_cons, Bool.and_eq_true] at ho
    obtain ⟨u, hu, hr⟩ := runOps_cons_ok h
    obtain ⟨h1, h2⟩ := runOp_pending ho.1 hu
    obtain ⟨i1, i2⟩ := ih ho.2 hr
    simp only [List.any_cons, Bool.or_eq_true, Bool.or_eq_false_iff]
    refine ⟨fun hs => ?_, fun hs => (i2 hs.2).trans (h2 hs.1)⟩
    cases hr' : os.any setsCause with
    | true => exact i1 hr'
    | false =>
      rw [hr'] at hs
      rw [i2 hr']
      exact (h1 (by simpa using hs)).2.2

/-- The cause that a script leaves pending is as each of its causes is set, in a state whose request and configuration are those
the script started with. -/
theorem runOps_raise {e : ExtAction} {raw : BitVec 32} {os : List ActionOp} {s t : State} {q : TrapUnit → Prop}
    (he : isHandler e = false) (ho : os.all (mayDo e) = true) (hp : holdsAlong (operandsOk e raw) s os = true)
    (hq : ∀ o u v, mayDo e o = true → operandsOk e raw u o = true → u.xp.vaddr = s.xp.vaddr → u.cfg = s.cfg →
      setsCause o = true → runOp u o = .ok v → q v.trap)
    (h : runOps s os = .ok t) (hs : os.any setsCause = true) : q t.trap := by
  induction os generalizing s with
  | nil => cases hs
  | cons o os ih =>
    simp only [List.all_cons, Bool.and_eq_true] at ho
    obtain ⟨u, hu, hr⟩ := runOps_cons_ok h
    obtain ⟨p1, p2⟩ := holdsAlong_cons hp hu
    have f := (runOp_front he ho.1 hu).1
    cases hs' : os.any setsCause with
    | true =>
      refine ih ho.2 p2 (fun o' v w h1 h2 h3 h4 => hq o' v w h1 h2 (h3.trans f.req.1) (h4.trans ?_)) hr hs'
      rw [f.frame]
    | false =>
      rw [(runOps_pending ho.2 hr).2 hs']
      exact hq o s u ho.1 p1 rfl rfl (by simpa [hs'] using hs) hu

/-- A fault that a contract bounds is set with the bus values its sources stand for (44_trap_ops R181). -/
theorem runOp_raise {e : ExtAction} {o : ActionOp} {s t : State} (he : e = .aDecode ∨ e = .aMmu) (ho : mayDo e o = true)
    (hs : setsCause o = true) (h : runOp s o = .ok t) :
    ∃ cw wdata arg0 arg1 arg2 c, o = .issue cw wdata arg0 arg1 arg2 ∧ mayRaise e c = true ∧
      t.trap = ⟨some c, none, trunc s.cfg.xlen (s.sourceWord arg0), trunc s.cfg.xlen (s.sourceWord arg1),
        trunc s.cfg.xlen (s.sourceWord arg2)⟩ := by
  cases o with
  | issue cw a b c d =>
    obtain ⟨i, u, r, hi, hp, rfl⟩ := issue_ok h
    simp only [mayDo, hi] at ho
    simp only [setsCause, issuesOnly, hi, Bool.not_not] at hs
    cases i with
    | trapSetFault n =>
      obtain ⟨-, -, -, -, rfl⟩ := opSetFault_ok (Option.some.inj hp)
      exact ⟨cw, a, b, c, d, n, rfl, ho, rfl⟩
    | trapSetInterrupt n => rcases he with rfl | rfl <;> cases ho
    | rfRead c n => cases hs
    | rfWrite c n => cases hs
    | rfReadDirect c n => cases hs
    | rfWriteDirect c n => cases hs
    | csrFieldRead n k => cases hs
    | csrFieldWrite n k => cases hs
    | engRunGroup => cases hs
    | engResume => cases hs
    | xltRequest => cases hs
    | xltResolve => cases hs
    | xltResult => cases hs
    | xltPopResult => cases hs
    | trapDeliver => cases hs
  | setNextPc v => cases hs
  | setPriv v => cases hs
  | setVirt v => cases hs
  | setXlateMode v => cases hs
  | setInst a b c d => cases hs
  | memRead a n => cases hs
  | memWrite a n v => cases hs

/-- A script writes the instruction record with the raw bits, or leaves it (42_engine R151). -/
theorem runOps_inst {e : ExtAction} {raw : BitVec 32} {os : List ActionOp} {s t : State}
    (ho : os.all (mayDo e) = true) (hp : holdsAlong (operandsOk e raw) s os = true) (h : runOps s os = .ok t) :
    (os.any writesInst = true → t.curInst.opcode = raw) ∧ (os.any writesInst = false → t.curInst = s.curInst) := by
  induction os generalizing s with
  | nil => cases h; exact ⟨nofun, fun _ => rfl⟩
  | cons o os ih =>
    simp only [List.all_cons, Bool.and_eq_true] at ho
    obtain ⟨u, hu, hr⟩ := runOps_cons_ok h
    obtain ⟨p1, p2⟩ := holdsAlong_cons hp hu
    obtain ⟨i1, i2⟩ := ih ho.2 p2 hr
    have hw : (writesInst o = true → u.curInst.opcode = raw) ∧ (writesInst o = false → u.curInst = s.curInst) := by
      cases o with
      | setInst a b c d => cases hu; exact ⟨fun _ => by simpa [operandsOk] using p1, nofun⟩
      | issue cw a b c d =>
        obtain ⟨i, v, r, hi, hq, rfl⟩ := issue_ok hu
        exact ⟨nofun, fun _ => (portOp_frame hq).curInst⟩
      | setNextPc v => cases hu; exact ⟨nofun, fun _ => rfl⟩
      | setPriv v => cases hu; exact ⟨nofun, fun _ => rfl⟩
      | setVirt v => cases hu; exact ⟨nofun, fun _ => rfl⟩
      | setXlateMode v => cases hu; exact ⟨nofun, fun _ => rfl⟩
      | memRead a n => cases hu; exact ⟨nofun, fun _ => rfl⟩
      | memWrite a n v => cases hu; exact ⟨nofun, fun _ => rfl⟩
    simp only [List.any_cons, Bool.or_eq_true, Bool.or_eq_false_iff]
    refine ⟨fun hs => ?_, fun hs => (i2 hs.2).trans (hw.2 hs.1)⟩
    cases hs' : os.any writesInst with
    | true => exact i1 hs'
    | false => rw [i2 hs']; exact hw.1 (by simpa [hs'] using hs)

/-- A script that resolves a request, exactly once, leaves it resolved; one that does not leaves the port (43_xlate R164, R165). -/
theorem runOps_port {e : ExtAction} {os : List ActionOp} {s t : State} (he : isHandler e = false)
    (ho : os.all (mayDo e) = true) (h : runOps s os = .ok t) :
    (os.any (issues .xltResolve) = true → t.xp.state = .resolved) ∧
    (os.any (issues .xltResolve) = false → t.xp = s.xp) := by
  induction os generalizing s with
  | nil => cases h; exact ⟨nofun, fun _ => rfl⟩
  | cons o os ih =>
    simp only [List.all_cons, Bool.and_eq_true] at ho
    obtain ⟨u, hu, hr⟩ := runOps_cons_ok h
    obtain ⟨i1, i2⟩ := ih ho.2 hr
    have hw : issues .xltResolve o = true → u.xp.state = .resolved := by
      intro n
      cases o with
      | issue cw a b c d =>
        obtain ⟨i, v, r, hi, hq, rfl⟩ := issue_ok hu
        have : i = .xltResolve := by simpa [issues, issuesOnly, hi] using n
        subst this
        obtain ⟨-, -, rfl⟩ := opResolve_ok (Option.some.inj hq)
        rfl
      | setNextPc v => cases n
      | setPriv v => cases n
      | setVirt v => cases n
      | setXlateMode v => cases n
      | setInst a b c d => cases n
      | memRead a n => cases n
      | memWrite a n v => cases n
    simp only [List.any_cons, Bool.or_eq_true, Bool.or_eq_false_iff]
    refine ⟨fun hs => ?_, fun hs => (i2 hs.2).trans ((runOp_front he ho.1 hu).2.1 hs.1)⟩
    cases hs' : os.any (issues .xltResolve) with
    | true => exact i1 hs'
    | false => rw [i2 hs']; exact hw (by simpa [hs'] using hs)

end Sys2Proof.Machine
end

