-- ==== Sys2Proof/Laws/Delivery.lean ====
section
/-!
SUPPORT. Delivery over the default table (10_state R26): the descriptors and fields its names find, and one read of a CSR after
each write, so that a delivered state's CSRs are read off without unfolding the sequence.
-/

namespace Sys2Proof.Machine

/-- A masked write through an all-ones mask stores the value (41_csr R112). -/
theorem maskedMerge_ones {x : XLen} {old v : Word} (h : fits x old = true) (h' : fits x v = true) :
    maskedMerge (ones x.bits) old v = v := by
  apply BitVec.eq_of_getLsbD_eq
  intro k hk
  rw [getLsbD_maskedMerge, getLsbD_ones]
  by_cases hx : k < x.bits
  · simp [hk, hx]
  · simp [hx, (fits_iff _ _).1 h k (by omega), (fits_iff _ _).1 h' k (by omega)]

/-- Any CSR read after a masked write. -/
theorem State.csrWrite_get (s : State) (d : CsrDesc) (w : Word) (n : Nat) :
    (s.csrWrite d w).csr.get n =
      if n = d.number then maskedMerge d.mask (s.csr.get d.number) w else s.csr.get n :=
  CsrFile.get_set _ _ _ _

/-- Any bit of any CSR read after a field write. -/
theorem State.fieldWrite_bit (s : State) (d : CsrDesc) (f : CsrField) (x : Word) (n k : Nat) (hk : k < 64)
    (hf : f.low ≤ f.high) :
    ((s.fieldWrite d f x).csr.get n).getLsbD k =
      if n = d.number ∧ d.mask.getLsbD k = true ∧ f.low ≤ k ∧ k ≤ f.high then x.getLsbD (k - f.low)
      else (s.csr.get n).getLsbD k := by
  rw [State.fieldWrite, State.csrWrite_get]
  by_cases hn : n = d.number
  · subst hn
    simp only [if_true, getLsbD_maskedMerge]
    cases hm : d.mask.getLsbD k
    · simp
    · rw [if_pos rfl, getLsbD_fieldInsert _ _ _ _ _ hk hf]; simp
  · simp [hn]

/-- A field write leaves every other CSR. -/
theorem State.fieldWrite_other (s : State) (d : CsrDesc) (f : CsrField) (x : Word) {n : Nat} (h : n ≠ d.number) :
    (s.fieldWrite d f x).csr.get n = s.csr.get n := by
  rw [State.fieldWrite, State.csrWrite_get, if_neg h]

/-- Bit 0 of a one-bit field read is the bit (41_csr R116). -/
theorem State.fieldRead_bit (s : State) (d : CsrDesc) (nm : FieldName) (b : Nat) (k : Nat) :
    (s.fieldRead d ⟨nm, b, b⟩).getLsbD k = (decide (k = 0) && (s.csr.get d.number).getLsbD b) := by
  simp only [State.fieldRead, fieldExtract, fieldWidth, BitVec.getLsbD_and, BitVec.getLsbD_ushiftRight, getLsbD_ones]
  by_cases h : k = 0
  · subst h; simp
  · simp [h]

/-! ### The default table -/

/-- What delivery's names find in the default table (10_state R26). -/
def refNames (x : XLen) : TrapNames :=
  { medeleg := Reference.csrRow x 0x302 .medeleg []
    mideleg := Reference.csrRow x 0x303 .mideleg []
    mtvec := Reference.csrRow x 0x305 .mtvec []
    mepc := Reference.csrRow x 0x341 .mepc []
    mcause := Reference.csrRow x 0x342 .mcause []
    mtval := Reference.csrRow x 0x343 .mtval []
    stvec := Reference.csrRow x 0x105 .stvec []
    sepc := Reference.csrRow x 0x141 .sepc []
    scause := Reference.csrRow x 0x142 .scause []
    stval := Reference.csrRow x 0x143 .stval []
    mstatus := Reference.csrRow x 0x300 .mstatus (Reference.mstatusFields x)
    sv := (match x with
      | .rv64 => Reference.csrRow x 0x300 .mstatus (Reference.mstatusFields x)
      | .rv32 => Reference.csrRow x 0x310 .mstatush [⟨.gva, 6, 6⟩, ⟨.mpv, 7, 7⟩])
    mie := ⟨.mie, 3, 3⟩
    mpie := ⟨.mpie, 7, 7⟩
    mpp := ⟨.mpp, 11, 12⟩
    sie := ⟨.sie, 1, 1⟩
    spie := ⟨.spie, 5, 5⟩
    spp := ⟨.spp, 8, 8⟩
    mpv := (match x with
      | .rv64 => ⟨.mpv, 39, 39⟩
      | .rv32 => ⟨.mpv, 7, 7⟩)
    gva := (match x with
      | .rv64 => ⟨.gva, 38, 38⟩
      | .rv32 => ⟨.gva, 6, 6⟩) }

theorem refNames_found (x : XLen) {c : Config} (hx : c.xlen = x) (h : c.csrTab = Reference.csrTab x) :
    (refNames x).Found c := by
  have hd : ∀ nm, c.descNamed nm = (Reference.csrTab x).find? fun d => d.name == nm := by
    intro nm; rw [Config.descNamed, h]
  cases x <;> constructor <;> first | rfl | (simp only [hd, hx]; rfl)

/-- On the default table no lookup of a delivery misses (10_state R26, 60_exceptions R207). -/
theorem trapNames_reference {c : Config} (h : c.csrTab = Reference.csrTab c.xlen) :
    c.trapNames = .ok (refNames c.xlen) :=
  Config.trapNames_of_found (refNames_found c.xlen rfl h)

/-- Every descriptor that delivery names there has the all-ones mask. -/
theorem csrRow_mask (x : XLen) (n : Nat) (nm : CsrName) (fs : List CsrField) :
    (Reference.csrRow x n nm fs).mask = ones x.bits := rfl

theorem csrRow_number (x : XLen) (n : Nat) (nm : CsrName) (fs : List CsrField) :
    (Reference.csrRow x n nm fs).number = n := rfl

/-! ### The status fields, bit by bit -/

theorem csrRow_mask_bit (x : XLen) (n : Nat) (nm : CsrName) (fs : List CsrField) {k : Nat} (hk : k < x.bits) :
    (Reference.csrRow x n nm fs).mask.getLsbD k = true := by
  have := xlen_bits_le x
  rw [csrRow_mask, getLsbD_ones]
  simp [hk, show k < 64 by omega]

/-- MSTATUS after a delivery to MACHINE, RV64 (60_exceptions R204, R206). -/
theorem State.machineStatus_rv64 (s : State) (k : Nat) :
    ((s.machineStatus (refNames .rv64)).csr.get 0x300).getLsbD k =
      if k = 7 then (s.csr.get 0x300).getLsbD 3
      else if k = 3 then false
      else if k = 11 then decide (s.priv ≠ .user)
      else if k = 12 then decide (s.priv = .machine)
      else if k = 38 ∨ k = 39 then false
      else (s.csr.get 0x300).getLsbD k := by
  by_cases hk : k < 64
  · unfold State.machineStatus
    rw [State.fieldWrite_bit _ _ _ _ _ _ hk (by decide), State.fieldWrite_bit _ _ _ _ _ _ hk (by decide),
      State.fieldWrite_bit _ _ _ _ _ _ hk (by decide), State.fieldWrite_bit _ _ _ _ _ _ hk (by decide),
      State.fieldWrite_bit _ _ _ _ _ _ hk (by decide)]
    have hm := fun n nm fs => csrRow_mask_bit .rv64 n nm fs hk
    simp only [refNames, csrRow_number, hm, true_and, State.fieldRead_bit]
    by_cases h38 : k = 38
    · subst h38; simp
    by_cases h39 : k = 39
    · subst h39; simp
    by_cases h3 : k = 3
    · subst h3; simp
    by_cases h7 : k = 7
    · subst h7; simp
    by_cases h11 : k = 11
    · subst h11; cases s.priv <;> simp [Priv.enc]
    by_cases h12 : k = 12
    · subst h12; cases s.priv <;> simp [Priv.enc]
    simp [h3, h7, h11, h12, h38, h39, show ¬ (38 ≤ k ∧ k ≤ 38) by omega, show ¬ (39 ≤ k ∧ k ≤ 39) by omega,
      show ¬ (3 ≤ k ∧ k ≤ 3) by omega, show ¬ (11 ≤ k ∧ k ≤ 12) by omega, show ¬ (7 ≤ k ∧ k ≤ 7) by omega]
  · rw [BitVec.getLsbD_of_ge _ _ (by omega), BitVec.getLsbD_of_ge _ k (by omega)]
    simp [show k ≠ 7 by omega, show k ≠ 11 by omega, show k ≠ 12 by omega]

/-- MSTATUS and MSTATUSH after a delivery to MACHINE, RV32 (60_exceptions R204, R206). -/
theorem State.machineStatus_rv32 (s : State) (k : Nat) :
    ((s.machineStatus (refNames .rv32)).csr.get 0x300).getLsbD k =
      (if k = 7 then (s.csr.get 0x300).getLsbD 3
       else if k = 3 then false
       else if k = 11 then decide (s.priv ≠ .user)
       else if k = 12 then decide (s.priv = .machine)
       else (s.csr.get 0x300).getLsbD k) ∧
    ((s.machineStatus (refNames .rv32)).csr.get 0x310).getLsbD k =
      (if k = 6 ∨ k = 7 then false else (s.csr.get 0x310).getLsbD k) := by
  by_cases hk : k < 64
  · unfold State.machineStatus
    rw [State.fieldWrite_bit _ _ _ _ _ _ hk (by decide), State.fieldWrite_bit _ _ _ _ _ _ hk (by decide),
      State.fieldWrite_bit _ _ _ _ _ _ hk (by decide), State.fieldWrite_bit _ _ _ _ _ _ hk (by decide),
      State.fieldWrite_bit _ _ _ _ _ _ hk (by decide), State.fieldWrite_bit _ _ _ _ _ _ hk (by decide),
      State.fieldWrite_bit _ _ _ _ _ _ hk (by decide), State.fieldWrite_bit _ _ _ _ _ _ hk (by decide),
      State.fieldWrite_bit _ _ _ _ _ _ hk (by decide), State.fieldWrite_bit _ _ _ _ _ _ hk (by decide)]
    by_cases hk32 : k < 32
    · have hm := fun n nm fs => csrRow_mask_bit .rv32 n nm fs (k := k) hk32
      simp only [refNames, csrRow_number, hm, true_and, State.fieldRead_bit]
      by_cases h3 : k = 3
      · subst h3; simp
      by_cases h6 : k = 6
      · subst h6; simp
      by_cases h7 : k = 7
      · subst h7; simp
      by_cases h11 : k = 11
      · subst h11; cases s.priv <;> simp [Priv.enc]
      by_cases h12 : k = 12
      · subst h12; cases s.priv <;> simp [Priv.enc]
      simp [h3, h6, h7, h11, h12, show ¬ (3 ≤ k ∧ k ≤ 3) by omega, show ¬ (11 ≤ k ∧ k ≤ 12) by omega,
        show ¬ (6 ≤ k ∧ k ≤ 6) by omega, show ¬ (7 ≤ k ∧ k ≤ 7) by omega]
    · simp [refNames, show k ≠ 7 by omega, show k ≠ 3 by omega, show k ≠ 11 by omega, show k ≠ 12 by omega,
        show k ≠ 6 by omega, show ¬ k ≤ 6 by omega, show ¬ k ≤ 7 by omega, show ¬ k ≤ 12 by omega, show ¬ k ≤ 3 by omega]
  · rw [BitVec.getLsbD_of_ge _ _ (by omega), BitVec.getLsbD_of_ge _ k (by omega), BitVec.getLsbD_of_ge _ k (by omega),
      BitVec.getLsbD_of_ge _ k (by omega)]
    simp [show k ≠ 7 by omega, show k ≠ 11 by omega, show k ≠ 12 by omega]

/-- MSTATUS after a delivery to SUPERVISOR, at both widths (60_exceptions R205). -/
theorem State.supervisorStatus_bit (x : XLen) (s : State) (k : Nat) :
    ((s.supervisorStatus (refNames x)).csr.get 0x300).getLsbD k =
      if k = 5 then (s.csr.get 0x300).getLsbD 1
      else if k = 1 then false
      else if k = 8 then decide (s.priv ≠ .user)
      else (s.csr.get 0x300).getLsbD k := by
  have hx : 32 ≤ x.bits := by cases x <;> decide
  by_cases hk : k < 64
  · unfold State.supervisorStatus
    rw [State.fieldWrite_bit _ _ _ _ _ _ hk (show 1 ≤ 1 by decide),
      State.fieldWrite_bit _ _ _ _ _ _ hk (show 8 ≤ 8 by decide),
      State.fieldWrite_bit _ _ _ _ _ _ hk (show 5 ≤ 5 by decide)]
    by_cases hk32 : k < 32
    · have hm := fun n nm fs => csrRow_mask_bit x n nm fs (k := k) (by omega)
      simp only [refNames, csrRow_number, hm, true_and, State.fieldRead_bit]
      by_cases h1 : k = 1
      · subst h1; simp
      by_cases h5 : k = 5
      · subst h5; simp
      by_cases h8 : k = 8
      · subst h8; cases s.priv <;> simp [Priv.enc]
      simp [h1, h5, h8, show ¬ (1 ≤ k ∧ k ≤ 1) by omega, show ¬ (5 ≤ k ∧ k ≤ 5) by omega,
        show ¬ (8 ≤ k ∧ k ≤ 8) by omega]
    · simp [refNames, show k ≠ 5 by omega, show k ≠ 1 by omega, show k ≠ 8 by omega, show ¬ k ≤ 1 by omega,
        show ¬ k ≤ 5 by omega, show ¬ k ≤ 8 by omega]
  · rw [BitVec.getLsbD_of_ge _ _ (by omega), BitVec.getLsbD_of_ge _ k (by omega)]
    simp [show k ≠ 5 by omega, show k ≠ 8 by omega]

/-- The cause CSR's value is a sum (60_exceptions R202). -/
theorem causeValue_eq (x : XLen) (isIntr : Bool) {c : Nat} (h : c < 32) :
    causeValue x isIntr c = BitVec.ofNat 64 (c + if isIntr then 2 ^ (x.bits - 1) else 0) := by
  cases x <;> cases isIntr <;> interval_cases c <;> decide

/-! ### The record, over any table -/

/-- The CSR file after the three whole writes of a delivery: EPC, CAUSE and TVAL in order (60_exceptions R194). -/
theorem State.record_get (s : State) (v : Word) (epc cause tval : CsrDesc) (a b c : Word) (n : Nat)
    (h1 : epc.number ≠ cause.number) (h2 : epc.number ≠ tval.number) (h3 : cause.number ≠ tval.number) :
    ((((s.setNextPc v).csrWrite epc a).csrWrite cause b).csrWrite tval c).csr.get n =
      if n = tval.number then maskedMerge tval.mask (s.csr.get n) c
      else if n = cause.number then maskedMerge cause.mask (s.csr.get n) b
      else if n = epc.number then maskedMerge epc.mask (s.csr.get n) a
      else s.csr.get n := by
  simp only [State.csrWrite_get]
  by_cases ht : n = tval.number
  · subst ht; simp [Ne.symm h2, Ne.symm h3]
  · by_cases hc : n = cause.number
    · subst hc; simp [ht, Ne.symm h1]
    · by_cases he : n = epc.number
      · subst he; simp [ht, hc]
      · simp [ht, hc, he]

end Sys2Proof.Machine
end

