-- ==== Sys2Proof/Laws/Words.lean ====
section
/-!
SUPPORT. The fields of a command word (30_encoding R73): each read back from a word that was put together, and a word
determined by its five fields.
-/

namespace Sys2Proof

/-- Bit k of a word put together from its fields. -/
theorem getLsbD_cmdWord (op : BitVec 8) (cls : BitVec 2) (idx fid k : Nat) :
    (cmdWord op cls idx fid).getLsbD k =
      if k < 4 then false
      else if k < 10 then (BitVec.ofNat 6 fid).getLsbD (k - 4)
      else if k < 22 then (BitVec.ofNat 12 idx).getLsbD (k - 10)
      else if k < 24 then cls.getLsbD (k - 22)
      else op.getLsbD (k - 24) := by
  simp only [cmdWord, BitVec.getLsbD_append]
  by_cases h1 : k < 4
  · simp [h1]
  by_cases h2 : k < 10
  · simp [h1, h2, show k - 4 < 6 by omega]
  by_cases h3 : k < 22
  · simp [h1, h2, h3, show ¬ k - 4 < 6 by omega, show k - 4 - 6 = k - 10 by omega, show k - 10 < 12 by omega]
  by_cases h4 : k < 24
  · simp [h1, h2, h3, h4, show ¬ k - 4 < 6 by omega, show ¬ k - 4 - 6 < 12 by omega,
      show k - 4 - 6 - 12 = k - 22 by omega, show k - 22 < 2 by omega]
  · simp [h1, h2, h3, h4, show ¬ k - 4 < 6 by omega, show ¬ k - 4 - 6 < 12 by omega,
      show ¬ k - 4 - 6 - 12 < 2 by omega, show k - 4 - 6 - 12 - 2 = k - 24 by omega]

theorem Cw.op_cmdWord (op : BitVec 8) (cls : BitVec 2) (idx fid : Nat) : Cw.op (cmdWord op cls idx fid) = op := by
  apply BitVec.eq_of_getLsbD_eq
  intro k hk
  rw [Cw.op, BitVec.getLsbD_extractLsb', getLsbD_cmdWord]
  simp [hk, show ¬ 24 + k < 4 by omega, show ¬ 24 + k < 10 by omega, show ¬ 24 + k < 22 by omega]

theorem Cw.cls_cmdWord (op : BitVec 8) (cls : BitVec 2) (idx fid : Nat) : Cw.cls (cmdWord op cls idx fid) = cls := by
  apply BitVec.eq_of_getLsbD_eq
  intro k hk
  rw [Cw.cls, BitVec.getLsbD_extractLsb', getLsbD_cmdWord]
  simp [hk, show ¬ 22 + k < 4 by omega, show ¬ 22 + k < 10 by omega, show 22 + k < 24 by omega]

theorem Cw.idx_cmdWord (op : BitVec 8) (cls : BitVec 2) (idx fid : Nat) :
    Cw.idx (cmdWord op cls idx fid) = BitVec.ofNat 12 idx := by
  apply BitVec.eq_of_getLsbD_eq
  intro k hk
  rw [Cw.idx, BitVec.getLsbD_extractLsb', getLsbD_cmdWord]
  simp [hk, show ¬ 10 + k < 4 by omega, show 10 + k < 22 by omega]

theorem Cw.fid_cmdWord (op : BitVec 8) (cls : BitVec 2) (idx fid : Nat) :
    Cw.fid (cmdWord op cls idx fid) = BitVec.ofNat 6 fid := by
  apply BitVec.eq_of_getLsbD_eq
  intro k hk
  rw [Cw.fid, BitVec.getLsbD_extractLsb', getLsbD_cmdWord]
  simp [hk, show 4 + k < 10 by omega]

theorem Cw.low_cmdWord (op : BitVec 8) (cls : BitVec 2) (idx fid : Nat) : Cw.low (cmdWord op cls idx fid) = 0#4 := by
  apply BitVec.eq_of_getLsbD_eq
  intro k hk
  rw [Cw.low, BitVec.getLsbD_extractLsb', getLsbD_cmdWord]
  simp [hk]

/-- A word whose low four bits are zero is its fields put together. -/
theorem cmdWord_fields {cw : CmdWord} (h : Cw.low cw = 0#4) :
    cmdWord (Cw.op cw) (Cw.cls cw) (Cw.idx cw).toNat (Cw.fid cw).toNat = cw := by
  apply BitVec.eq_of_getLsbD_eq
  intro k hk
  have hlow : k < 4 → cw.getLsbD k = false := by
    intro h4
    have : (Cw.low cw).getLsbD k = false := by rw [h]; simp
    rw [Cw.low, BitVec.getLsbD_extractLsb'] at this
    simpa [h4] using this
  rw [getLsbD_cmdWord, BitVec.ofNat_toNat, BitVec.ofNat_toNat, BitVec.setWidth_eq, BitVec.setWidth_eq, Cw.op, Cw.cls, Cw.idx,
    Cw.fid]
  simp only [BitVec.getLsbD_extractLsb']
  by_cases h1 : k < 4
  · simp [h1, hlow h1]
  by_cases h2 : k < 10
  · simp [h1, h2, show k - 4 < 6 by omega, show 4 + (k - 4) = k by omega]
  by_cases h3 : k < 22
  · simp [h1, h2, h3, show k - 10 < 12 by omega, show 10 + (k - 10) = k by omega]
  by_cases h4 : k < 24
  · simp [h1, h2, h3, h4, show k - 22 < 2 by omega, show 22 + (k - 22) = k by omega]
  · simp [h1, h2, h3, h4, show k - 24 < 8 by omega, show 24 + (k - 24) = k by omega]

/-! ### What a decoded word holds -/

theorem decodeR_ok {cw : CmdWord} {k : RegClass → Nat → Instr} {i : Instr} :
    decodeR cw k = .ok i ↔
      Cw.low cw = 0#4 ∧ Cw.fid cw = 0#6 ∧ i = k (RegClass.ofCode (Cw.cls cw)) (Cw.idx cw).toNat := by
  unfold decodeR
  split
  · simp_all
  · split
    · simp_all
    · simp_all [eq_comm]

theorem decodeF_ok {cw : CmdWord} {k : Nat → Nat → Instr} {i : Instr} :
    decodeF cw k = .ok i ↔
      Cw.low cw = 0#4 ∧ Cw.cls cw = 3#2 ∧ i = k (Cw.idx cw).toNat (Cw.fid cw).toNat := by
  unfold decodeF
  split
  · simp_all
  · split
    · simp_all
    · simp_all [eq_comm]

theorem decodeC_ok {cw : CmdWord} {k : Nat → Instr} {i : Instr} :
    decodeC cw k = .ok i ↔
      Cw.low cw = 0#4 ∧ Cw.cls cw = 0#2 ∧ Cw.fid cw = 0#6 ∧ i = k (Cw.idx cw).toNat := by
  unfold decodeC
  split
  · simp_all
  · split
    · simp_all
    · split
      · simp_all
      · simp_all [eq_comm]

theorem decodeN_ok {cw : CmdWord} {j i : Instr} :
    decodeN cw j = .ok i ↔
      Cw.low cw = 0#4 ∧ Cw.cls cw = 0#2 ∧ Cw.fid cw = 0#6 ∧ Cw.idx cw = 0#12 ∧ i = j := by
  unfold decodeN
  split
  · simp_all
  · split
    · simp_all
    · split
      · simp_all
      · split
        · simp_all
        · simp_all [eq_comm]

/-- The formats' facts, format by format, of a word that decodes: what 30_encoding R72 and R73 say of it. -/
theorem decode_ok {cw : CmdWord} {i : Instr} (h : decode cw = .ok i) :
    Cw.low cw = 0#4 ∧ Cw.op cw = i.op ∧
    (match i with
     | .rfRead c n => Cw.fid cw = 0#6 ∧ c = RegClass.ofCode (Cw.cls cw) ∧ n = (Cw.idx cw).toNat
     | .rfWrite c n => Cw.fid cw = 0#6 ∧ c = RegClass.ofCode (Cw.cls cw) ∧ n = (Cw.idx cw).toNat
     | .rfReadDirect c n => Cw.fid cw = 0#6 ∧ c = RegClass.ofCode (Cw.cls cw) ∧ n = (Cw.idx cw).toNat
     | .rfWriteDirect c n => Cw.fid cw = 0#6 ∧ c = RegClass.ofCode (Cw.cls cw) ∧ n = (Cw.idx cw).toNat
     | .csrFieldRead n k => Cw.cls cw = 3#2 ∧ n = (Cw.idx cw).toNat ∧ k = (Cw.fid cw).toNat
     | .csrFieldWrite n k => Cw.cls cw = 3#2 ∧ n = (Cw.idx cw).toNat ∧ k = (Cw.fid cw).toNat
     | .trapSetFault c => Cw.cls cw = 0#2 ∧ Cw.fid cw = 0#6 ∧ c = (Cw.idx cw).toNat
     | .trapSetInterrupt c => Cw.cls cw = 0#2 ∧ Cw.fid cw = 0#6 ∧ c = (Cw.idx cw).toNat
     | _ => Cw.cls cw = 0#2 ∧ Cw.fid cw = 0#6 ∧ Cw.idx cw = 0#12) := by
  have step : ∀ (p : Prop) [Decidable p] (a b : Except BadWord Instr), (if p then a else b) = .ok i →
      (p ∧ a = .ok i) ∨ b = .ok i := by
    intro p _ a b hab
    by_cases hp : p
    · exact .inl ⟨hp, by rwa [if_pos hp] at hab⟩
    · exact .inr (by rwa [if_neg hp] at hab)
  unfold decode at h
  rcases step _ _ _ h with ⟨ho, h⟩ | h
  · obtain ⟨h1, h2, rfl⟩ := decodeR_ok.1 h; exact ⟨h1, ho, h2, rfl, rfl⟩
  rcases step _ _ _ h with ⟨ho, h⟩ | h
  · obtain ⟨h1, h2, rfl⟩ := decodeR_ok.1 h; exact ⟨h1, ho, h2, rfl, rfl⟩
  rcases step _ _ _ h with ⟨ho, h⟩ | h
  · obtain ⟨h1, h2, rfl⟩ := decodeR_ok.1 h; exact ⟨h1, ho, h2, rfl, rfl⟩
  rcases step _ _ _ h with ⟨ho, h⟩ | h
  · obtain ⟨h1, h2, rfl⟩ := decodeR_ok.1 h; exact ⟨h1, ho, h2, rfl, rfl⟩
  rcases step _ _ _ h with ⟨ho, h⟩ | h
  · obtain ⟨h1, h2, rfl⟩ := decodeF_ok.1 h; exact ⟨h1, ho, h2, rfl, rfl⟩
  rcases step _ _ _ h with ⟨ho, h⟩ | h
  · obtain ⟨h1, h2, rfl⟩ := decodeF_ok.1 h; exact ⟨h1, ho, h2, rfl, rfl⟩
  rcases step _ _ _ h with ⟨ho, h⟩ | h
  · obtain ⟨h1, h2, h3, h4, rfl⟩ := decodeN_ok.1 h; exact ⟨h1, ho, h2, h3, h4⟩
  rcases step _ _ _ h with ⟨ho, h⟩ | h
  · obtain ⟨h1, h2, h3, h4, rfl⟩ := decodeN_ok.1 h; exact ⟨h1, ho, h2, h3, h4⟩
  rcases step _ _ _ h with ⟨ho, h⟩ | h
  · obtain ⟨h1, h2, h3, h4, rfl⟩ := decodeN_ok.1 h; exact ⟨h1, ho, h2, h3, h4⟩
  rcases step _ _ _ h with ⟨ho, h⟩ | h
  · obtain ⟨h1, h2, h3, h4, rfl⟩ := decodeN_ok.1 h; exact ⟨h1, ho, h2, h3, h4⟩
  rcases step _ _ _ h with ⟨ho, h⟩ | h
  · obtain ⟨h1, h2, h3, h4, rfl⟩ := decodeN_ok.1 h; exact ⟨h1, ho, h2, h3, h4⟩
  rcases step _ _ _ h with ⟨ho, h⟩ | h
  · obtain ⟨h1, h2, h3, h4, rfl⟩ := decodeN_ok.1 h; exact ⟨h1, ho, h2, h3, h4⟩
  rcases step _ _ _ h with ⟨ho, h⟩ | h
  · obtain ⟨h1, h2, h3, rfl⟩ := decodeC_ok.1 h; exact ⟨h1, ho, h2, h3, rfl⟩
  rcases step _ _ _ h with ⟨ho, h⟩ | h
  · obtain ⟨h1, h2, h3, rfl⟩ := decodeC_ok.1 h; exact ⟨h1, ho, h2, h3, rfl⟩
  rcases step _ _ _ h with ⟨ho, h⟩ | h
  · obtain ⟨h1, h2, h3, h4, rfl⟩ := decodeN_ok.1 h; exact ⟨h1, ho, h2, h3, h4⟩
  cases h

@[simp] theorem RegClass.ofCode_code (c : RegClass) : RegClass.ofCode c.code = c := by cases c <;> decide

@[simp] theorem RegClass.code_ofCode (c : BitVec 2) : (RegClass.ofCode c).code = c := by revert c; decide

end Sys2Proof
end

