-- ==== Sys2Proof/Laws/PerInstr.lean ====
section
/-!
SUPPORT. A statement made once per operation. RowMatch: the command word of an operation has, under the mask of its row, the
match value of its row, whatever its operands (30_encoding R77).
-/

namespace Sys2Proof

/-- Format R: the operation's byte alone is fixed, and fid and the low bits are zero. -/
theorem row_R (op : BitVec 8) (cls : BitVec 2) (idx : Nat) :
    cmdWord op cls idx 0 &&& 0xFF0003FF#32 = op ++ 0#24 := by
  apply BitVec.eq_of_getLsbD_eq
  intro k hk
  rw [BitVec.getLsbD_and, getLsbD_cmdWord, BitVec.getLsbD_append]
  interval_cases k <;> simp

/-- Format F: the class is fixed too. -/
theorem row_F (op : BitVec 8) (idx fid : Nat) :
    cmdWord op 3#2 idx fid &&& 0xFFC0000F#32 = op ++ 0xC00000#24 := by
  apply BitVec.eq_of_getLsbD_eq
  intro k hk
  rw [BitVec.getLsbD_and, getLsbD_cmdWord, BitVec.getLsbD_append]
  interval_cases k <;> simp

/-- Format C: the class is zero. -/
theorem row_C (op : BitVec 8) (cause : Nat) :
    cmdWord op 0#2 cause 0 &&& 0xFFC003FF#32 = op ++ 0#24 := by
  apply BitVec.eq_of_getLsbD_eq
  intro k hk
  rw [BitVec.getLsbD_and, getLsbD_cmdWord, BitVec.getLsbD_append]
  interval_cases k <;> simp

end Sys2Proof

namespace Sys2Proof.Laws.RowMatch

/-- The word of an operation lies in its row. -/
def Statement (i : Instr) : Prop := encode i &&& i.rowMask = i.rowMatch

theorem rfRead (cls : RegClass) (idx : Nat) : Statement (.rfRead cls idx) :=
  by simp [Statement, encode, Instr.op, Instr.rowMask, Instr.rowMatch, row_R]
theorem rfWrite (cls : RegClass) (idx : Nat) : Statement (.rfWrite cls idx) :=
  by simp [Statement, encode, Instr.op, Instr.rowMask, Instr.rowMatch, row_R]
theorem rfReadDirect (cls : RegClass) (idx : Nat) : Statement (.rfReadDirect cls idx) :=
  by simp [Statement, encode, Instr.op, Instr.rowMask, Instr.rowMatch, row_R]
theorem rfWriteDirect (cls : RegClass) (idx : Nat) : Statement (.rfWriteDirect cls idx) :=
  by simp [Statement, encode, Instr.op, Instr.rowMask, Instr.rowMatch, row_R]
theorem csrFieldRead (idx fid : Nat) : Statement (.csrFieldRead idx fid) :=
  by simp [Statement, encode, Instr.op, Instr.rowMask, Instr.rowMatch, row_F]
theorem csrFieldWrite (idx fid : Nat) : Statement (.csrFieldWrite idx fid) :=
  by simp [Statement, encode, Instr.op, Instr.rowMask, Instr.rowMatch, row_F]
theorem engRunGroup : Statement .engRunGroup := by unfold Statement; decide
theorem engResume : Statement .engResume := by unfold Statement; decide
theorem xltRequest : Statement .xltRequest := by unfold Statement; decide
theorem xltResolve : Statement .xltResolve := by unfold Statement; decide
theorem xltResult : Statement .xltResult := by unfold Statement; decide
theorem xltPopResult : Statement .xltPopResult := by unfold Statement; decide
theorem trapSetFault (cause : Nat) : Statement (.trapSetFault cause) :=
  by simp [Statement, encode, Instr.op, Instr.rowMask, Instr.rowMatch, row_C]
theorem trapSetInterrupt (cause : Nat) : Statement (.trapSetInterrupt cause) :=
  by simp [Statement, encode, Instr.op, Instr.rowMask, Instr.rowMatch, row_C]
theorem trapDeliver : Statement .trapDeliver := by unfold Statement; decide

end Sys2Proof.Laws.RowMatch
end

