-- ==== Sys2Proof/Tests/Slice0.lean ====
section
/-!
SUPPORT. Tests. Expected values are those of 95_test_vectors (the vector is named with each test) or of the rule named.
Then one witness per statement with hypotheses: concrete values that meet them together.
-/

namespace Sys2Proof.Tests

open Sys2Proof Sys2Proof.Machine

/-! ### Small states -/

/-- An invocation that does nothing and continues. -/
def quiet : ActionRun := { ops := [], ct := .continue }

/-- A handler Action. -/
def handler (k : Nat) (t : Tag) : Action := { tag := t, body := .external (.handler k) }

/-- The test configuration of 95_test_vectors: the default table and TEST, number 0x7C0, mask 1, with the field of T-CSR-6;
the handler list of T-ENG-14 under key 0. -/
def testConfig (x : XLen) : Config :=
  { Reference.config x with
    csrTab := Reference.csrTab x ++
      [{ number := 0x7C0, name := .ext 0, mask := 1, fields := [{ name := .ext 0, low := 0, high := 3 }], reset := 0 }]
    handlers := [(.key 0, [handler 0 .computeAddr, handler 1 .execute])] }

/-- After reset in the test configuration. -/
def start (x : XLen) : State := State.resetOf (testConfig x) [] [] quiet [] 0

/-- With raw CSR values. -/
def withCsrs (s : State) (l : List (Nat × Word)) : State :=
  { s with csr := l.foldl (fun r c => CsrFile.set r c.1 c.2) s.csr }

/-- With the group to run next, the instruction's Actions and the scripts of their invocations. -/
def withGroup (s : State) (g : Nat) (as : List Action) (script : List ActionRun) : State :=
  { s with eng := { next := some g, cursor := 0, paused := false }, curInst := { s.curInst with actions := as }
           script := script }

/-- With the port in a state that holds Scenario C's values. -/
def withPort (s : State) (p : XpState) : State :=
  { s with xp := { state := p, vaddr := 0x2000, size := 8, paddr := 0x80002000, misalign := 0 } }

/-- With a fault pending. -/
def withFault (s : State) (c : Nat) (va mi op : Word) : State :=
  { s with trap := { pendFault := some c, pendIntr := none, tiVaddr := va, tiMisalign := mi, tiOpcode := op } }

/-- With an interrupt pending. -/
def withIntr (s : State) (c : Nat) : State :=
  { s with trap := { pendFault := none, pendIntr := some c, tiVaddr := 0, tiMisalign := 0, tiOpcode := 0 } }

/-- Operands on the buses. -/
def operands (wdata : Wide) (arg0 arg1 arg2 : Word) : Bus := { wdata := wdata, arg0 := arg0, arg1 := arg1, arg2 := arg2 }

/-- The next state of one operation with its operands; itself where there is none. -/
def after (i : Instr) (b : Bus) (s : State) : State :=
  match exec i { s with bus := b } with
  | .next t => t
  | .fault _ => s
  | .refused _ => s

/-- The answer of one operation. -/
def answerOf (i : Instr) (b : Bus) (s : State) : Response := (after i b s).resp

/-- A fatal's answer: status 1 and the code. -/
def isFatal (r : Response) (code : Nat) : Bool := r == { status := true, fcode := BitVec.ofNat 5 code, rdata := 0, r0 := 0, r1 := 0, r2 := 0 }

/-! ### Well-formedness: each check refuses an ill-formed term -/

theorem test_wf_refuses_wide_index : (Instr.rfRead .csr 4096).wf = false := by decide
theorem test_wf_refuses_wide_index_write : (Instr.rfWrite .csr 4096).wf = false := by decide
theorem test_wf_refuses_wide_index_read_direct : (Instr.rfReadDirect .int 4096).wf = false := by decide
theorem test_wf_refuses_wide_index_write_direct : (Instr.rfWriteDirect .int 4096).wf = false := by decide
theorem test_wf_refuses_wide_csr_number : (Instr.csrFieldRead 4096 0).wf = false := by decide
theorem test_wf_refuses_wide_field_id : (Instr.csrFieldRead 0 64).wf = false := by decide
theorem test_wf_refuses_wide_csr_number_write : (Instr.csrFieldWrite 4096 0).wf = false := by decide
theorem test_wf_refuses_wide_field_id_write : (Instr.csrFieldWrite 0 64).wf = false := by decide
theorem test_wf_refuses_wide_fault : (Instr.trapSetFault 4096).wf = false := by decide
theorem test_wf_refuses_wide_interrupt : (Instr.trapSetInterrupt 4096).wf = false := by decide

/-- A field outside the CSR's width (41_csr R111). -/
theorem test_config_refuses_wide_field :
    CsrDesc.ok .rv32 { number := 1, name := .ext 0, mask := 0, fields := [{ name := .sie, low := 1, high := 32 }], reset := 0 }
      = false := by decide

/-- Two descriptors of one number; a graph whose entry group is not tagged FETCH (41_csr R111, 42_engine R139). -/
theorem test_config_refuses_twins_and_bad_entry :
    { Reference.config .rv64 with csrTab := Reference.csrTab .rv64 ++ Reference.csrTab .rv64 }.ok = false ∧
    { Reference.config .rv64 with entry := 1 }.ok = false := by decide

/-- A configuration that fails comes out of reset with F_BAD_CONFIG, 16 (00_scope R8). -/
theorem test_bad_config_latches :
    (State.resetOf { Reference.config .rv64 with exception := 4 } [] [] quiet [] 0).fatal = some .badConfig ∧
    FatalCode.badConfig.code = 16 := by decide

/-! ### Decoding: words written out from 30_encoding R73, high to low op, cls, idx, fid, zeros -/

theorem test_decode_rfRead : decode (0b00000001_10_000000011111_000000_0000#32) = .ok (.rfRead .vec 31) := rfl
theorem test_decode_rfWrite : decode (0b00000010_01_000000000000_000000_0000#32) = .ok (.rfWrite .fp 0) := rfl
theorem test_decode_rfReadDirect : decode (0b00000011_11_001100000000_000000_0000#32) = .ok (.rfReadDirect .csr 0x300) := rfl
theorem test_decode_rfWriteDirect : decode (0b00000100_00_000000000101_000000_0000#32) = .ok (.rfWriteDirect .int 5) := rfl
theorem test_decode_csrFieldRead : decode (0b00010000_11_001100000000_000101_0000#32) = .ok (.csrFieldRead 0x300 5) := rfl
theorem test_decode_csrFieldWrite : decode (0b00010001_11_111111111111_111111_0000#32) = .ok (.csrFieldWrite 0xFFF 63) := rfl
theorem test_decode_engRunGroup : decode (0b00100000_00_000000000000_000000_0000#32) = .ok .engRunGroup := rfl
theorem test_decode_engResume : decode (0b00100001_00_000000000000_000000_0000#32) = .ok .engResume := rfl
theorem test_decode_xltRequest : decode (0b00110000_00_000000000000_000000_0000#32) = .ok .xltRequest := rfl
theorem test_decode_xltResolve : decode (0b00110001_00_000000000000_000000_0000#32) = .ok .xltResolve := rfl
theorem test_decode_xltResult : decode (0b00110010_00_000000000000_000000_0000#32) = .ok .xltResult := rfl
theorem test_decode_xltPopResult : decode (0b00110011_00_000000000000_000000_0000#32) = .ok .xltPopResult := rfl
theorem test_decode_trapSetFault : decode (0b01000000_00_000000001101_000000_0000#32) = .ok (.trapSetFault 13) := rfl
theorem test_decode_trapSetInterrupt : decode (0b01000001_00_000000000111_000000_0000#32) = .ok (.trapSetInterrupt 7) := rfl
theorem test_decode_trapDeliver : decode (0b01000010_00_000000000000_000000_0000#32) = .ok .trapDeliver := rfl

/-- T-ENC-5 to T-ENC-11 (30_encoding R78). -/
theorem test_decode_refuses_reserved_words :
    decode 0x00000000#32 = .error .unassignedOp ∧ decode 0x05000000#32 = .error .unassignedOp ∧
    decode 0x02001401#32 = .error .reservedBits ∧ decode 0x10000000#32 = .error .wrongClass ∧
    decode 0x20000400#32 = .error .strayIndex ∧ decode 0x01000010#32 = .error .strayFieldId ∧
    decode 0x41400400#32 = .error .wrongClass := ⟨rfl, rfl, rfl, rfl, rfl, rfl, rfl⟩

/-- The opcode table's numbering: bit 0 is bit 0 of the word; a word of more than 32 bits is no command. -/
theorem test_decode_table_word :
    decodeTableWord 32 0x40003400 = some (.trapSetFault 13) ∧ decodeTableWord 64 0x140003400 = none := ⟨rfl, rfl⟩

/-! ### Register File -/

/-- V-A step 2: the raw value, no read mask. -/
theorem test_rfRead_csr_raw :
    answerOf (.rfRead .csr 0x7C0) Bus.zero (withCsrs (start .rv64) [(0x7C0, 0xB)]) = Response.ofData 0b1011 := by decide

/-- T-RF-5 and T-RF-14: index 32 is F 8; MSTATUSH is in the RV32 table alone. -/
theorem test_rfRead_refusals :
    isFatal (answerOf (.rfRead .int 32) Bus.zero (start .rv64)) 8 ∧
    isFatal (answerOf (.rfRead .csr 0x310) Bus.zero (start .rv64)) 1 ∧
    answerOf (.rfRead .csr 0x310) Bus.zero (start .rv32) = Response.ofData 0 := by decide

/-- V-A step 1: old 0b1010, mask 1, value 0b0101. -/
theorem test_rfWrite_masked :
    (after (.rfWrite .csr 0x7C0) (operands 0b0101 0 0 0) (withCsrs (start .rv64) [(0x7C0, 0xA)])).csr.get 0x7C0 = 0xB := by
  decide

/-- T-RF-4: RV32 stores the low 32 bits; T-RF-8: all 128 bits of a vector register. -/
theorem test_rfWrite_widths :
    (after (.rfWrite .int 5) (operands 0x123456789 0 0 0) (start .rv32)).intCell 5 = 0x23456789 ∧
    (after (.rfWrite .vec 31) (operands (2 ^ 128 - 1) 0 0 0) (start .rv64)).vecCell 31 = 2 ^ 128 - 1 := by decide

/-- T-RF-2: the zero of integer register 0 on the direct path. -/
theorem test_rfReadDirect_zero : answerOf (.rfReadDirect .int 0) Bus.zero (start .rv64) = Response.ofData 0 := by decide

/-- R95: every bit of MSTATUS. -/
theorem test_rfReadDirect_csr :
    answerOf (.rfReadDirect .csr 0x300) Bus.zero (withCsrs (start .rv64) [(0x300, 0xC000001888)]) =
      Response.ofData 0xC000001888 := by decide

/-- T-RF-10: the mask is bypassed. -/
theorem test_rfWriteDirect_unmasked :
    (after (.rfWriteDirect .csr 0x7C0) (operands 0b0101 0 0 0) (withCsrs (start .rv64) [(0x7C0, 0xA)])).csr.get 0x7C0 =
      0b0101 := by decide

/-- T-RF-2: a direct write to integer register 0 is discarded, and OK. -/
theorem test_rfWriteDirect_zero :
    (after (.rfWriteDirect .int 0) (operands 0xFFFF 0 0 0) (start .rv64)).x = (start .rv64).x ∧
    answerOf (.rfWriteDirect .int 0) (operands 0xFFFF 0 0 0) (start .rv64) = Response.ok := by decide

/-! ### CSR Registry -/

/-- T-CSR-1: MSTATUS 0x1888, mpp is 3; T-CSR-10: RV32 MSTATUSH 0xC0, mpv is 1. -/
theorem test_csrFieldRead_value :
    answerOf (.csrFieldRead 0x300 5) Bus.zero (withCsrs (start .rv64) [(0x300, 0x1888)]) = Response.ofData 3 ∧
    answerOf (.csrFieldRead 0x310 1) Bus.zero (withCsrs (start .rv32) [(0x310, 0xC0)]) = Response.ofData 1 := by decide

/-- T-CSR-5, T-CSR-8: field id 8 of MSTATUS is F 2; a number outside the table is F 1, checked before the field. -/
theorem test_csrFieldRead_refusals :
    isFatal (answerOf (.csrFieldRead 0x300 8) Bus.zero (start .rv64)) 2 ∧
    isFatal (answerOf (.csrFieldRead 0x7FF 0) Bus.zero (start .rv64)) 1 := by decide

/-- T-CSR-3: 6 is cut to two bits, bit 13 stays clear. -/
theorem test_csrFieldWrite_cuts :
    (after (.csrFieldWrite 0x300 5) (operands 6 0 0 0) (withCsrs (start .rv64) [(0x300, 0x1808)])).csr.get 0x300 = 0x1008 := by
  decide

/-- T-CSR-6: only the writable bit of the field changes. -/
theorem test_csrFieldWrite_masked :
    (after (.csrFieldWrite 0x7C0 0) (operands 5 0 0 0) (withCsrs (start .rv64) [(0x7C0, 0xA)])).csr.get 0x7C0 = 0xB := by
  decide

/-! ### Engine -/

/-- The command word of an operation on the internal port. -/
def op (i : Instr) (wdata arg0 arg1 arg2 : Source) : ActionOp := .issue (encode i) wdata arg0 arg1 arg2

/-- The word of an operation without operands. -/
def op0 (i : Instr) : ActionOp := op i (.lit 0) (.lit 0) (.lit 0) (.lit 0)

/-- T-ENG-12: a1 and a2 ran, a3 did not; the answer names group 1, then group 3. -/
theorem test_engRunGroup_transfer :
    let t := after .engRunGroup Bus.zero (withGroup (start .rv64) 1 [handler 0 .execute, handler 1 .execute, handler 2 .execute]
      [{ ops := [op (.rfWrite .int 1) (.lit 7) (.lit 0) (.lit 0) (.lit 0)], ct := .continue },
       { ops := [op0 (.trapSetFault 3)], ct := .transfer 3 },
       { ops := [op (.rfWrite .int 1) (.lit 9) (.lit 0) (.lit 0) (.lit 0)], ct := .continue }])
    t.resp = Response.ofTriple 1 3 0 ∧ t.trap.pendFault = some 3 ∧ t.intCell 1 = 7 := by decide

/-- T-ENG-5: the pause keeps group 1 and the cursor after the pausing Action. -/
theorem test_engRunGroup_pause :
    let t := after .engRunGroup Bus.zero (withGroup (start .rv64) 1 [handler 0 .execute] [{ ops := [], ct := .pause }])
    t.resp = Response.ofTriple 1 1 0b010 ∧ t.eng = { next := some 1, cursor := 1, paused := true } := by decide

/-- T-ENG-7: the cursor is at the end, the link is followed. -/
theorem test_engResume_follows_link :
    let s := { withGroup (start .rv64) 1 [handler 0 .execute] [] with eng := { next := some 1, cursor := 1, paused := true } }
    answerOf .engResume Bus.zero s = Response.ofTriple 1 2 0 ∧
    (after .engResume Bus.zero s).eng = { next := some 2, cursor := 0, paused := false } := by decide

/-- T-ENG-8: F 15. -/
theorem test_engResume_refused : isFatal (answerOf .engResume Bus.zero (start .rv64)) 15 := by decide

/-- T-ENG-14, T-XLT-12: A_MMU between the two Actions, the port renewed. -/
theorem test_assemble_places_the_mmu :
    ∃ t, invoke ⟨.decode, .assemble⟩
        { withPort (start .rv64) .requested with curInst := { (start .rv64).curInst with mnemonic := .key 0 } } =
        .ok t .continue ∧
      t.curInst.actions = [handler 0 .computeAddr, ⟨.translate, .external .aMmu⟩, handler 1 .execute] ∧
      t.xp.state = .idle := ⟨_, rfl, by decide, by decide⟩

/-- T-ENG-10: a mnemonic without a handler. -/
theorem test_assemble_missing_handler :
    ∃ s, invoke ⟨.decode, .assemble⟩ { start .rv64 with curInst := { (start .rv64).curInst with mnemonic := .key 9 } } =
      .fatal s .missingHandler := ⟨_, rfl⟩

/-- 42_engine R153: what an Action has read it may write on; here integer register 1 is copied to 3. -/
theorem test_action_reads_and_writes :
    (after .engRunGroup Bus.zero { withGroup (start .rv64) 1 [handler 0 .execute]
        [{ ops := [op0 (.rfRead .int 1), op (.rfWrite .int 3) .rdata (.lit 0) (.lit 0) (.lit 0)], ct := .continue }] with
        x := (start .rv64).x.set 0 5 }).intCell 3 = 5 := by decide

/-- 42_engine R153, 10_state R29: a return handler writes `priv` with the field it has read (mpp 1 is SUPERVISOR), `virt` with
a bit; the raw bits it decodes come from memory. -/
theorem test_action_writes_modes_it_read :
    let t := after .engRunGroup Bus.zero { withGroup (withCsrs (start .rv64) [(0x300, 0x800)]) 1 [handler 0 .execute]
        [{ ops := [op0 (.csrFieldRead 0x300 5), .setPriv .rdata, .setVirt (.lit 1), .memRead (.lit 0x1000) .b2,
                   .setInst (.key 0) [5, 6] .memData 2, .setNextPc (.operand 1), .setXlateMode .size],
           ct := .continue }] with mem := [(0x1000, 0x13)] }
    t.priv = .supervisor ∧ t.virt = true ∧ t.curInst.opcode = 0x13 ∧ t.nextPc = 6 ∧ t.xlateMode = 2 := by decide

/-- A_MMU, invoked by the Engine. -/
def mmuAct : Action := { tag := .translate, body := .external .aMmu }

/-- The MMU as a function: Scenario C's translation, else Scenario B's page fault. -/
def scenarioMmu : MmuFunction :=
  { tab := [({ vaddr := 0x2000, size := 8, priv := .machine, virt := false, xlateMode := 0, mnemonic := .unimp
               operands := [], mem := [] }, .resolve 0x80002000 0)]
    default := .raise 13 }

/-- A group of A_MMU alone, its function given, the port as it is. -/
def mmuRun (s : State) : State := withGroup { s with cfg := { s.cfg with mmu := some scenarioMmu } } 1 [mmuAct] []

/-- V-C: the request for 0x2000 is resolved, and the group continues. -/
theorem test_mmu_function_resolves :
    let t := after .engRunGroup Bus.zero (mmuRun (withPort (start .rv64) .requested))
    t.xp = { state := .resolved, vaddr := 0x2000, size := 8, paddr := 0x80002000, misalign := 0 } ∧
    t.resp = Response.ofTriple 1 2 0 := by decide

/-- V-B step 1: LOAD_PAGE_FAULT 13 with the request's address, the port left REQUESTED (20_memory R59). -/
theorem test_mmu_function_raises :
    let t := after .engRunGroup Bus.zero (mmuRun { withPort (start .rv64) .requested with priv := .user })
    t.xp.state = .requested ∧ t.trap = ⟨some 13, none, 0x2000, 0, 0⟩ ∧ t.resp = Response.ofTriple 1 3 0 := by decide

/-- 20_memory R53: byte i of a value lives at paddr + i. -/
theorem test_store_is_little_endian :
    (Memory.write [] 0x1000 4 0x11223344) = [(0x1000, 0x44), (0x1001, 0x33), (0x1002, 0x22), (0x1003, 0x11)] ∧
    Memory.read [(0x1000, 0x44), (0x1001, 0x33)] 0x1000 2 = 0x3344 := by decide

/-! ### Translation Port -/

/-- T-XLT-10: a misaligned address and size 3 are stored unchecked. -/
theorem test_xltRequest_stores :
    (after .xltRequest (operands 0 0x1001 3 0) (start .rv64)).xp.state = .requested ∧
    (after .xltRequest (operands 0 0x1001 3 0) (start .rv64)).xp.vaddr = 0x1001 ∧
    (after .xltRequest (operands 0 0x1001 3 0) (start .rv64)).xp.size = 3 := by decide

/-- T-XLT-7: a result not yet popped is unconsumed, F 5. -/
theorem test_xltRequest_busy :
    isFatal (answerOf .xltRequest (operands 0 0x3000 4 0) (withPort (start .rv64) .resolved)) 5 := by decide

/-- V-C step 2. -/
theorem test_xltResolve_stores :
    (after .xltResolve (operands 0 0x80002000 5 0) (withPort (start .rv64) .requested)).xp =
      { state := .resolved, vaddr := 0x2000, size := 8, paddr := 0x80002000, misalign := 5 } := by decide

/-- T-XLT-3: F 12. -/
theorem test_xltResolve_refused :
    isFatal (answerOf .xltResolve (operands 0 0x1000 0 0) (start .rv64)) 12 := by decide

/-- T-XLT-6: the triple, still RESOLVED. -/
theorem test_xltResult_keeps :
    answerOf .xltResult Bus.zero (withPort (start .rv64) .resolved) = Response.ofTriple 0x80002000 0x2000 0 ∧
    (after .xltResult Bus.zero (withPort (start .rv64) .resolved)).xp.state = .resolved := by decide

/-- T-XLT-5: requested is not resolved, F 6. -/
theorem test_xltResult_refused :
    isFatal (answerOf .xltResult Bus.zero (withPort (start .rv64) .requested)) 6 := by decide

/-- V-C step 3. -/
theorem test_xltPopResult_consumes :
    answerOf .xltPopResult Bus.zero (withPort (start .rv64) .resolved) = Response.ofTriple 0x80002000 0x2000 0 ∧
    (after .xltPopResult Bus.zero (withPort (start .rv64) .resolved)).xp.state = .idle := by decide

/-- V-C step 4: F 6, latched. -/
theorem test_xltPopResult_refused :
    isFatal (answerOf .xltPopResult Bus.zero (start .rv64)) 6 ∧
    (after .xltPopResult Bus.zero (start .rv64)).fatal = some .xltNoResult := by decide

/-! ### Exception/Interrupt Unit -/

/-- V-B step 1. -/
theorem test_trapSetFault_records :
    (after (.trapSetFault 13) (operands 0 0x2000 0 0) (start .rv64)).trap =
      { pendFault := some 13, pendIntr := none, tiVaddr := 0x2000, tiMisalign := 0, tiOpcode := 0 } := by decide

/-- T-TRAP-3, T-TRAP-4, T-TRAP-14: F 3, F 11, F 10. -/
theorem test_trapSetFault_refusals :
    isFatal (answerOf (.trapSetFault 2) Bus.zero (withIntr (start .rv64) 7)) 3 ∧
    isFatal (answerOf (.trapSetFault 2) Bus.zero (withFault (start .rv64) 13 0 0 0)) 11 ∧
    isFatal (answerOf (.trapSetFault 14) Bus.zero (start .rv64)) 10 := by decide

/-- R183: the cause and a zero latch. -/
theorem test_trapSetInterrupt_records :
    (after (.trapSetInterrupt 7) (operands 0 1 2 3) (start .rv64)).trap =
      { pendFault := none, pendIntr := some 7, tiVaddr := 0, tiMisalign := 0, tiOpcode := 0 } := by decide

/-- T-TRAP-2, T-TRAP-16: F 3, F 10. -/
theorem test_trapSetInterrupt_refusals :
    isFatal (answerOf (.trapSetInterrupt 7) Bus.zero (withFault (start .rv64) 13 0 0 0)) 3 ∧
    isFatal (answerOf (.trapSetInterrupt 2) Bus.zero (start .rv64)) 10 := by decide

/-- T-TRAP-8: RV32, to MACHINE, the trap value wraps, MSTATUSH is cleared. -/
theorem test_trapDeliver_machine_rv32 :
    let t := after .trapDeliver Bus.zero { withFault
      (withCsrs (start .rv32) [(0x305, 0x100), (0x300, 0x8), (0x310, 0xC0)]) 1 0xFFFFFFFE 4 0 with pc := 0xFFFFFFFE }
    t.csr.get 0x341 = 0xFFFFFFFE ∧ t.csr.get 0x342 = 1 ∧ t.csr.get 0x343 = 2 ∧ t.csr.get 0x300 = 0x1880 ∧
      t.csr.get 0x310 = 0 ∧ t.nextPc = 0x100 := by decide

/-- T-TRAP-10: RV64, an interrupt to SUPERVISOR, MEDELEG not consulted. -/
theorem test_trapDeliver_supervisor_rv64 :
    let t := after .trapDeliver Bus.zero { withIntr
      (withCsrs (start .rv64) [(0x303, 0x20), (0x105, 0x80004000), (0x300, 0xA)]) 5 with pc := 0x10000, priv := .user }
    t.csr.get 0x141 = 0x10000 ∧ t.csr.get 0x142 = 0x8000000000000005 ∧ t.csr.get 0x143 = 0 ∧ t.csr.get 0x300 = 0x28 ∧
      t.priv = .supervisor ∧ t.nextPc = 0x80004000 := by decide

/-! ### Reset -/

/-- 10_state R39, and the launch value that is not 0 (log entry 5). -/
theorem test_reset_values :
    State.reset.fatal = none ∧ State.reset.priv = .machine ∧ State.reset.pc = 0 ∧
    State.reset.eng = { next := some 0, cursor := 0, paused := false } ∧ State.reset.intCell 7 = 0xA5A5A5A5A5A5A5A5 := by
  decide

/-- A word placed first on the port is run by the very next step (log entry 7). -/
theorem test_withFetchWord_runs :
    (match step (State.reset.withFetchWord 32 0x42000000) with
     | .next t => t.fatal == some .nonePending
     | .fault _ => false
     | .refused _ => false) = true := by decide

/-! ### Witnesses: every statement's hypotheses are met by the values below -/

/-- Operands at the ends of their fields. -/
theorem witness_DecodeInvertsEncode :
    (Instr.rfRead .csr 4095).wf = true ∧ (Instr.csrFieldWrite 4095 63).wf = true ∧ (Instr.trapSetFault 4095).wf = true ∧
    (Instr.rfWriteDirect .int 0).wf = true ∧ Instr.trapDeliver.wf = true := by decide

theorem witness_EncodeInvertsDecode : decode 0x10FFFFF0#32 = .ok (.csrFieldRead 4095 63) := rfl

theorem witness_DecodeSelectsTheMatchingRow :
    decode 0x02FFFC00#32 = .ok (.rfWrite .csr 4095) ∧
    0x02FFFC00#32 &&& (Instr.rfWrite .int 0).rowMask = (Instr.rfWrite .int 0).rowMatch ∧
    0x02FFFC00#32 &&& (Instr.rfWrite .csr 1).rowMask = (Instr.rfWrite .csr 1).rowMatch ∧
    Instr.trapDeliver ∈ [Instr.engRunGroup, .engResume, .xltRequest, .xltResolve, .xltResult, .xltPopResult, .trapDeliver] :=
  ⟨rfl, rfl, rfl, by decide⟩

/-- A command waiting first on the port. -/
def waiting (cw : CmdWord) : State := (start .rv64).present cw

theorem witness_StepRunsTheDecodedCommand :
    (waiting 0x42000000#32).inputs = .command { cw := 0x42000000#32, bus := Bus.zero } :: [] ∧
    decode 0x42000000#32 = .ok .trapDeliver := ⟨rfl, rfl⟩

theorem witness_ReservedWordsAreFatal :
    (waiting 0#32).fatal = none ∧ (waiting 0#32).inputs = .command { cw := 0#32, bus := Bus.zero } :: [] ∧
    (∀ i : Instr, 0#32 &&& i.rowMask ≠ i.rowMatch) ∧
    (start .rv64).fatal = none ∧ RegClass.vec ≠ .csr ∧ 31 < 32 ∧ 4095 < 4096 ∧
    (start .rv64).cfg.isFaultCode 4095 = false ∧ (start .rv64).cfg.isIntrCode 0 = false := by
  refine ⟨by decide, rfl, ?_, by decide, by decide, by decide, by decide, by decide, by decide⟩
  intro i
  cases i <;> simp [Instr.rowMask, Instr.rowMatch]

theorem witness_ResetInputResetsEverything :
    ({ start .rv32 with inputs := [.reset] } : State).inputs = .reset :: [] ∧ (start .rv32).cfg.ok = true ∧
    Reference.csrRow .rv32 0x310 .mstatush [⟨.gva, 6, 6⟩, ⟨.mpv, 7, 7⟩] ∈ (start .rv32).cfg.csrTab := by
  exact ⟨rfl, by decide, by decide⟩

theorem witness_LatchedFatalAnswersItsCode : ((start .rv64).latch .badConfig).fatal = some .badConfig := rfl

theorem witness_OnlyResetClearsTheLatch :
    ((waiting 0x01000000#32).latch .xltBusy).fatal = some .xltBusy ∧
    (∀ rest, ((waiting 0x01000000#32).latch .xltBusy).inputs ≠ .reset :: rest) ∧
    (∃ t, step ((waiting 0x01000000#32).latch .xltBusy) = .next t) := by
  refine ⟨rfl, ?_, ⟨_, rfl⟩⟩
  intro rest h
  cases h

theorem witness_FatalCommandWritesOnlyTheLatch :
    isEngineOp (.rfRead .fp 32) = false ∧ (start .rv64).fatal = none ∧
    ∃ t, exec (.rfRead .fp 32) (start .rv64) = .next t ∧ t.resp.status = true := ⟨rfl, by decide, _, rfl, rfl⟩

/-- The default table with one more CSR, numbered 0. -/
def withCsrZero : State :=
  State.resetOf { Reference.config .rv64 with csrTab := Reference.csrRow .rv64 0 (.ext 1) [] :: Reference.csrTab .rv64 }
    [] [] quiet [] 0

theorem witness_ReadsAnswerTheRegister :
    (start .rv64).fatal = none ∧ Instr.rfReadDirect ∈ [Instr.rfRead, Instr.rfReadDirect] ∧
    ((start .rv64).cfg.desc 0x7C0).isSome = true := ⟨by decide, by simp, by decide⟩

theorem witness_ZeroRegisterGuard :
    withCsrZero.fatal = none ∧ withCsrZero.cfg.desc 0 = some (Reference.csrRow .rv64 0 (.ext 1) []) := by decide

theorem witness_WritesStoreTheLowBits :
    (start .rv32).fatal = none ∧ Instr.rfWrite ∈ [Instr.rfWrite, Instr.rfWriteDirect] := ⟨by decide, by simp⟩

/-- TEST of the test configuration. -/
def testCsr : CsrDesc :=
  { number := 0x7C0, name := .ext 0, mask := 1, fields := [{ name := .ext 0, low := 0, high := 3 }], reset := 0 }

theorem witness_DirectCsrWriteBypassesTheMask :
    (start .rv64).fatal = none ∧ (start .rv64).cfg.desc 0x7C0 = some testCsr := by decide

/-- Both branches: TEST's mask is 1, MEPC's is all ones. -/
theorem witness_MaskedCsrWrite :
    (start .rv64).fatal = none ∧ (start .rv64).inv = true ∧ (start .rv64).cfg.desc 0x7C0 = some testCsr ∧
    testCsr.mask ≠ BitVec.ofNat 64 (2 ^ (start .rv64).cfg.xlen.bits - 1) ∧
    (start .rv64).cfg.desc 0x341 = some (Reference.csrRow .rv64 0x341 .mepc []) ∧
    (Reference.csrRow .rv64 0x341 .mepc []).mask = BitVec.ofNat 64 (2 ^ (start .rv64).cfg.xlen.bits - 1) := by decide

theorem witness_MaskedWriteLaws :
    (start .rv32).fatal = none ∧ (start .rv32).inv = true ∧ (start .rv32).cfg.desc 0x7C0 = some testCsr ∧
    (start .rv32).cfg.desc 0x341 = some (Reference.csrRow .rv32 0x341 .mepc []) ∧
    (Reference.csrRow .rv32 0x341 .mepc []).mask = BitVec.ofNat 64 (2 ^ (start .rv32).cfg.xlen.bits - 1) := by decide

theorem witness_FieldReadAnswersItsBits :
    (start .rv64).fatal = none ∧ (start .rv64).cfg.desc 0x7C0 = some testCsr ∧
    testCsr.fields[0]? = some { name := .ext 0, low := 0, high := 3 } := by decide

theorem witness_FieldWriteChangesItsWritableBits :
    (start .rv64).fatal = none ∧ (start .rv64).cfg.ok = true ∧ (start .rv64).cfg.desc 0x7C0 = some testCsr ∧
    testCsr.fields[0]? = some { name := .ext 0, low := 0, high := 3 } := by decide

/-- TEST's field has a read-only bit at each end but the lowest; every bit of MSTATUS mpp is writable. -/
theorem witness_FieldRoundTrip :
    (start .rv64).fatal = none ∧ (start .rv64).cfg.ok = true ∧ (start .rv64).cfg.desc 0x7C0 = some testCsr ∧
    testCsr.fields[0]? = some { name := .ext 0, low := 0, high := 3 } ∧ testCsr.mask.getLsbD 3 = false ∧
    (start .rv64).cfg.desc 0x300 = some (Reference.csrRow .rv64 0x300 .mstatus (Reference.mstatusFields .rv64)) ∧
    (Reference.mstatusFields .rv64)[5]? = some ⟨.mpp, 11, 12⟩ ∧
    (∀ k < 64, (Reference.csrRow .rv64 0x300 .mstatus (Reference.mstatusFields .rv64)).mask.getLsbD k = true) := by decide

theorem witness_LookupMissesAreFatal :
    (start .rv64).fatal = none ∧ (start .rv64).cfg.desc 0x7FF = none ∧ (start .rv64).cfg.desc 0x310 = none ∧
    (start .rv64).cfg.desc 0x300 = some (Reference.csrRow .rv64 0x300 .mstatus (Reference.mstatusFields .rv64)) ∧
    (Reference.csrRow .rv64 0x300 .mstatus (Reference.mstatusFields .rv64)).fields.length = 8 := by decide

theorem witness_TranslationPortMachine :
    (start .rv64).fatal = none ∧ (start .rv64).xp.state = .idle ∧
    (withPort (start .rv64) .requested).fatal = none ∧ (withPort (start .rv64) .requested).xp.state = .requested ∧
    (withPort (start .rv64) .resolved).fatal = none ∧ (withPort (start .rv64) .resolved).xp.state = .resolved := by decide

theorem witness_PopReturnsTheResultOnce : (start .rv64).fatal = none ∧ (start .rv64).xp.state = .idle := by decide

/-- The last code of each enumeration, and one past it. -/
theorem witness_SetFaultRecordsTheCause :
    (start .rv64).fatal = none ∧ (start .rv64).cfg.isFaultCode 19 = true ∧ (start .rv64).cfg.isFaultCode 20 = false ∧
    (start .rv64).trap = TrapUnit.empty ∧ (withIntr (start .rv64) 11).fatal = none ∧
    (withIntr (start .rv64) 11).trap.pendIntr ≠ none ∧ (withFault (start .rv64) 0 0 0 0).trap.pendIntr = none ∧
    (withFault (start .rv64) 0 0 0 0).trap.pendFault ≠ none := by decide

theorem witness_SetInterruptRecordsTheCause :
    (start .rv64).fatal = none ∧ (start .rv64).cfg.isIntrCode 11 = true ∧ (start .rv64).cfg.isIntrCode 12 = false ∧
    (start .rv64).trap = TrapUnit.empty ∧ (withFault (start .rv64) 0 0 0 0).trap.pendFault ≠ none ∧
    (withIntr (start .rv64) 1).trap.pendFault = none ∧ (withIntr (start .rv64) 1).trap.pendIntr ≠ none := by decide

/-- The second clause is the document's assertion: its state is never stored (90_conflicts C7). -/
theorem witness_DeliverNeedsExactlyOneCause :
    (start .rv64).fatal = none ∧ (start .rv64).trap.pendFault = none ∧ (start .rv64).trap.pendIntr = none ∧
    ({ start .rv64 with trap := ⟨some 2, some 7, 0, 0, 0⟩ } : State).trap.pendFault ≠ none ∧
    ({ start .rv64 with trap := ⟨some 2, some 7, 0, 0, 0⟩ } : State).trap.pendIntr ≠ none := by decide

/-- A table without STVEC, and an RV32 table without MSTATUSH. -/
def withoutCsr (x : XLen) (n : Nat) : State :=
  State.resetOf { Reference.config x with csrTab := (Reference.csrTab x).filter fun d => d.number != n } [] [] quiet [] 0

theorem witness_DeliverNeedsEveryNamedCsr :
    (withFault (withoutCsr .rv64 0x105) 2 0 0 0).fatal = none ∧ PendingOnly (withFault (withoutCsr .rv64 0x105) 2 0 0 0) false 2 ∧
    (withoutCsr .rv64 0x105).cfg.descNamed .stvec = none ∧
    (withIntr (withoutCsr .rv32 0x310) 7).fatal = none ∧ PendingOnly (withIntr (withoutCsr .rv32 0x310) 7) true 7 ∧
    (withoutCsr .rv32 0x310).cfg.xlen = .rv32 ∧ (withoutCsr .rv32 0x310).cfg.descNamed .mstatush = none :=
  ⟨by decide, ⟨rfl, rfl⟩, by decide, by decide, ⟨rfl, rfl⟩, rfl, by decide⟩

/-- After reset in the default table, with a fault or an interrupt pending. -/
def ready (x : XLen) : State := State.resetOf (Reference.config x) [] [] quiet [] 0

theorem witness_TrapReady (x : XLen) : TrapReady (withFault (ready x) 12 0x80001FFE 2 0) ∧ TrapReady (withIntr (ready x) 11) := by
  cases x <;> exact ⟨⟨by decide, rfl, by decide⟩, ⟨by decide, rfl, by decide⟩⟩

/-- Both widths, a fault and an interrupt; no delegation. -/
theorem witness_DeliveryToMachine (x : XLen) :
    TrapReady (withFault (ready x) 12 0x80001FFE 2 0) ∧ PendingOnly (withFault (ready x) 12 0x80001FFE 2 0) false 12 ∧
    ((withFault (ready x) 12 0x80001FFE 2 0).csr.get 0x302).getLsbD 12 = false ∧
    TrapReady (withIntr (ready x) 11) ∧ PendingOnly (withIntr (ready x) 11) true 11 ∧
    ((withIntr (ready x) 11).csr.get 0x303).getLsbD 11 = false := by
  refine ⟨(witness_TrapReady x).1, ⟨rfl, rfl⟩, ?_, (witness_TrapReady x).2, ⟨rfl, rfl⟩, ?_⟩ <;> cases x <;> decide

/-- Both widths, the last fault code and the last interrupt code; every bit delegated. -/
theorem witness_DeliveryToSupervisor (x : XLen) :
    TrapReady (withFault (withCsrs (ready x) [(0x302, 0xFFFFFFFF)]) 19 0 0 0) ∧
    PendingOnly (withFault (withCsrs (ready x) [(0x302, 0xFFFFFFFF)]) 19 0 0 0) false 19 ∧
    ((withFault (withCsrs (ready x) [(0x302, 0xFFFFFFFF)]) 19 0 0 0).csr.get 0x302).getLsbD 19 = true ∧
    TrapReady (withIntr (withCsrs (ready x) [(0x303, 0xFFFFFFFF)]) 11) ∧
    PendingOnly (withIntr (withCsrs (ready x) [(0x303, 0xFFFFFFFF)]) 11) true 11 ∧
    ((withIntr (withCsrs (ready x) [(0x303, 0xFFFFFFFF)]) 11).csr.get 0x303).getLsbD 11 = true := by
  cases x <;> exact ⟨⟨by decide, rfl, by decide⟩, ⟨rfl, rfl⟩, by decide, ⟨by decide, rfl, by decide⟩, ⟨rfl, rfl⟩, by decide⟩

/-- The target of the delivery, its answer, what `next_pc` became. -/
def delivered (s : State) : Option (Priv × Bool × Bool) :=
  match exec .trapDeliver s with
  | .next t => some (t.priv, t.resp.status, t.nextPc.getLsbD 0)
  | .fault _ => none
  | .refused _ => none

theorem witness_DelegationBitDecidesTheTarget :
    (withIntr (ready .rv64) 1).fatal = none ∧ PendingOnly (withIntr (ready .rv64) 1) true 1 ∧
    (ready .rv64).cfg.descNamed .mideleg = some (Reference.csrRow .rv64 0x303 .mideleg []) ∧
    delivered (withIntr (ready .rv64) 1) = some (.machine, false, false) ∧
    delivered (withIntr (withCsrs (ready .rv64) [(0x303, 2)]) 1) = some (.supervisor, false, false) :=
  ⟨by decide, ⟨rfl, rfl⟩, by decide, by decide, by decide⟩

/-- One fault of each class, and an interrupt. -/
theorem witness_TrapValueByCause :
    TrapReady (withFault (ready .rv32) 0 0xFFFFFFFE 4 0) ∧ TrapReady (withFault (ready .rv32) 15 8 0 0) ∧
    TrapReady (withFault (ready .rv32) 2 0 0 0x13) ∧ TrapReady (withFault (ready .rv32) 19 0 0 0) ∧
    TrapReady (withIntr (ready .rv32) 1) ∧ (ready .rv32).cfg.faultCodes = Reference.faultCodes ∧
    PendingOnly (withFault (ready .rv32) 0 0xFFFFFFFE 4 0) false 0 ∧ PendingOnly (withIntr (ready .rv32) 1) true 1 :=
  ⟨⟨by decide, rfl, by decide⟩, ⟨by decide, rfl, by decide⟩, ⟨by decide, rfl, by decide⟩, ⟨by decide, rfl, by decide⟩,
    ⟨by decide, rfl, by decide⟩, rfl, ⟨rfl, rfl⟩, ⟨rfl, rfl⟩⟩

theorem witness_TrapEntryClearsOnlyBitZero :
    (withIntr (ready .rv64) 1).fatal = none ∧
    delivered (withIntr (withCsrs (ready .rv64) [(0x305, 3)]) 1) = some (.machine, false, false) ∧
    delivered (withIntr (withCsrs (ready .rv64) [(0x303, 2), (0x105, 3)]) 1) = some (.supervisor, false, false) ∧
    (ready .rv64).cfg.descNamed .mtvec = some (Reference.csrRow .rv64 0x305 .mtvec []) ∧
    (ready .rv64).cfg.descNamed .stvec = some (Reference.csrRow .rv64 0x105 .stvec []) := by decide

theorem witness_DeliveryKeepsReadOnlyBits :
    (start .rv64).cfg.ok = true ∧ testCsr ∈ (start .rv64).cfg.csrTab ∧ testCsr.mask.getLsbD 1 = false ∧
    delivered (withIntr (start .rv64) 1) = some (.machine, false, false) := by decide

/-- A run of one Action that does what `r` says, from group 1 of the reference graph. -/
def run1 (r : ActionRun) : State := withGroup (start .rv64) 1 [handler 0 .execute] [r]

/-- The same, paused before it. -/
def paused1 (r : ActionRun) : State := { run1 r with eng := { next := some 1, cursor := 0, paused := true } }

/-- Group 1 of the reference graph. -/
def executeGroup : Sys2Proof.Group := { actions := .instruction, next := some 2, tags := [.execute] }

theorem starts_run1 (r : ActionRun) : EngineStarts .engRunGroup (run1 r) (run1 r) 1 0 executeGroup ([] ++ handler 0 .execute :: []) :=
  ⟨rfl, rfl, rfl, rfl, .inl ⟨rfl, rfl, rfl, rfl⟩⟩

theorem starts_paused1 (r : ActionRun) :
    EngineStarts .engResume (paused1 r) (run1 r) 1 0 executeGroup ([] ++ handler 0 .execute :: []) :=
  ⟨rfl, rfl, rfl, rfl, .inr ⟨rfl, rfl, rfl, rfl⟩⟩

/-- ENG.RUN_GROUP and ENG.RESUME, one Action that writes a register and continues. -/
theorem witness_GroupRunsInOrderToItsLink :
    let r : ActionRun := { ops := [op (.rfWrite .int 1) (.lit 7) (.lit 0) (.lit 0) (.lit 0)], ct := .continue }
    EngineStarts .engRunGroup (run1 r) (run1 r) 1 0 executeGroup [handler 0 .execute] ∧
    EngineStarts .engResume (paused1 r) (run1 r) 1 0 executeGroup [handler 0 .execute] ∧
    ∃ t, runThrough (run1 r) [handler 0 .execute] = some t := ⟨starts_run1 _, starts_paused1 _, _, rfl⟩

/-- A transfer to the last group of the graph and one past it. -/
theorem witness_TransferAbandonsTheRest :
    EngineStarts .engRunGroup (run1 { ops := [], ct := .transfer 3 }) (run1 { ops := [], ct := .transfer 3 }) 1 0
      executeGroup ([] ++ handler 0 .execute :: []) ∧
    (∃ u, invoke (handler 0 .execute) (run1 { ops := [], ct := .transfer 3 }) = .ok u (.transfer 3)) ∧
    (∃ u, invoke (handler 0 .execute) (run1 { ops := [], ct := .transfer 4 }) = .ok u (.transfer 4)) ∧
    (start .rv64).cfg.graph.length = 4 := ⟨starts_run1 _, ⟨_, rfl⟩, ⟨_, rfl⟩, rfl⟩

theorem witness_PauseKeepsTheNextAction :
    EngineStarts .engResume (paused1 { ops := [], ct := .pause }) (run1 { ops := [], ct := .pause }) 1 0 executeGroup
      ([] ++ handler 0 .execute :: []) ∧
    ∃ u, invoke (handler 0 .execute) (run1 { ops := [], ct := .pause }) = .ok u .pause := ⟨starts_paused1 _, _, rfl⟩

theorem witness_FatalInAGroupKeepsEarlierEffects :
    let r : ActionRun := { ops := [op0 (.trapSetFault 3), op0 (.trapSetFault 3)], ct := .transfer 3 }
    EngineStarts .engRunGroup (run1 r) (run1 r) 1 0 executeGroup ([] ++ handler 0 .execute :: []) ∧
    (∃ u, invoke (handler 0 .execute) (run1 r) = .fatal u .slotOccupied) ∧
    (run1 r).mmuOf (.handler 0) = none ∧ (run1 r).nextRun.ops = [op0 (.trapSetFault 3)] ++ op0 (.trapSetFault 3) :: [] ∧
    (∃ w u, runOps (run1 r).dropRun [op0 (.trapSetFault 3)] = .ok w ∧
      runOp w (op0 (.trapSetFault 3)) = .fatal u .slotOccupied) :=
  ⟨starts_run1 _, ⟨_, rfl⟩, rfl, rfl, _, _, rfl, rfl⟩

theorem witness_EngineRefusals :
    (paused1 quiet).fatal = none ∧ (paused1 quiet).eng.paused = true ∧ (start .rv64).fatal = none ∧
    (start .rv64).eng.paused = false ∧
    ({ start .rv64 with eng := { next := none, cursor := 0, paused := false } } : State).eng.next = none := by decide

theorem witness_AssembleBuildsTheGroup :
    (testConfig .rv64).handlers.lookup (.key 0) = some [handler 0 .computeAddr, handler 1 .execute] ∧
    (testConfig .rv64).handlers.lookup .unimp = none ∧ (start .rv64).curInst.mnemonic = .unimp ∧
    (testConfig .rv64).handlers.lookup (.key 9) = none ∧ Mnemonic.key 9 ≠ .unimp := by decide

theorem witness_IllegalRaisesTheFault :
    (start .rv64).cfg.isFaultCode 2 = true ∧ (start .rv64).trap.pendFault = none ∧ (start .rv64).trap.pendIntr = none := by
  decide

theorem witness_FinishGroupCommitsThePc :
    (withGroup (start .rv64) 2 [] []).fatal = none ∧ (withGroup (start .rv64) 2 [] []).cfg.graph = Reference.graph ∧
    (withGroup (start .rv64) 2 [] []).eng.next = some 2 ∧ (withGroup (start .rv64) 2 [] []).eng.paused = false := by decide

/-- A delivery that succeeds and one that does not (T-ENG-13). -/
theorem witness_ExceptionGroupDeliversThenCommits :
    (withGroup (withIntr (start .rv64) 7) 3 [] []).fatal = none ∧
    (withGroup (start .rv64) 3 [] []).cfg.graph = Reference.graph ∧ (withGroup (start .rv64) 3 [] []).eng.next = some 3 ∧
    (withGroup (start .rv64) 3 [] []).eng.paused = false ∧
    delivered (withGroup (withIntr (start .rv64) 7) 3 [] []) = some (.machine, false, false) ∧
    (∃ t, exec .trapDeliver (withGroup (start .rv64) 3 [] []) = .next t ∧ t.fatal = some .nonePending) :=
  ⟨by decide, by decide, by decide, by decide, by decide, _, rfl, rfl⟩

theorem witness_InternalPortMeansTheSame :
    decode 0x30000000#32 = .ok .xltRequest ∧ isEngineOp .xltRequest = false ∧ (start .rv64).fatal = none ∧
    (∃ t, exec .xltRequest { start .rv64 with bus := Bus.zero } = .next t ∧ t.fatal = none) ∧
    (∃ t, exec .xltRequest { withPort (start .rv64) .resolved with bus := Bus.zero } = .next t ∧ t.fatal = some .xltBusy) ∧
    (∀ i, decode 0#32 ≠ .ok i) := by
  refine ⟨rfl, rfl, by decide, ⟨_, rfl, by decide⟩, ⟨_, rfl, rfl⟩, ?_⟩
  intro i h
  cases h

theorem witness_EngineOperationInAnActionStops :
    let r : ActionRun := { ops := [op0 (.rfRead .int 0), op0 .engResume], ct := .continue }
    decode 0x21000000#32 = .ok .engResume ∧ isEngineOp .engResume = true ∧
    EngineStarts .engRunGroup (run1 r) (run1 r) 1 0 executeGroup ([] ++ handler 0 .execute :: []) ∧
    invoke (handler 0 .execute) (run1 r) = .fault .engineNested ∧ (run1 r).mmuOf (.handler 0) = none ∧
    (run1 r).nextRun.ops =
      [op0 (.rfRead .int 0)] ++ .issue (encode .engResume) (.lit 0) (.lit 0) (.lit 0) (.lit 0) :: [] ∧
    decode (encode .engResume) = .ok .engResume ∧ (∃ w, runOps (run1 r).dropRun [op0 (.rfRead .int 0)] = .ok w) :=
  ⟨rfl, rfl, starts_run1 _, rfl, rfl, rfl, rfl, _, rfl⟩

/-- A conforming handler Action that raises a fault, and one that does not; a conforming front end and MMU. -/
def raising (c : Nat) : ActionRun := { ops := [op0 (.trapSetFault c)], ct := .transfer 3 }

/-- A script, and the MMU's function. -/
theorem witness_ExternalActionFrame :
    (∃ t, invoke (handler 0 .execute) (run1 (raising 19)) = .ok t (.transfer 3)) ∧ (run1 quiet).mmuOf (.handler 0) = none ∧
    (∃ t, invoke mmuAct (mmuRun (withPort (start .rv64) .requested)) = .ok t .continue) ∧
    (mmuRun (start .rv64)).mmuOf .aMmu = some scenarioMmu := ⟨⟨_, rfl⟩, rfl, ⟨_, rfl⟩, rfl⟩

/-- A decoder's script that reads the raw bits 0x13 and writes the record. -/
def decoding : ActionRun := { ops := [.setInst (.key 0) [] (.lit 0x13) 4], ct := .continue }

/-- A decoder's script that raises ILLEGAL_INST with the raw bits 0x13. -/
def refusing : ActionRun := { ops := [op (.trapSetFault 2) (.lit 0) (.lit 0) (.lit 0) (.lit 0x13)], ct := .transfer 3 }

/-- An MMU's script that resolves. -/
def resolving : ActionRun := { ops := [op .xltResolve (.lit 0) (.lit 8) (.lit 0) (.lit 0)], ct := .continue }

/-- An MMU's script that raises a page fault with the request's address. -/
def faulting : ActionRun := { ops := [op (.trapSetFault 13) (.lit 0) .xpVaddr (.lit 0) (.lit 0)], ct := .transfer 3 }

theorem witness_FrontEndAndMmuFrame :
    (run1 (raising 12)).nextConforms 0 .aFetch = true ∧ (run1 (raising 0)).nextConforms 0 .aFtrans = true ∧
    (run1 decoding).nextConforms 0x13 .aDecode = true ∧
    (withPort (run1 resolving) .requested).nextConforms 0 .aMmu = true ∧
    (mmuRun (withPort (start .rv64) .requested)).nextConforms 0 .aMmu = true ∧
    (∃ t, invoke ⟨.fetch, .external .aFetch⟩ (run1 (raising 12)) = .ok t (.transfer 3)) ∧
    (∃ t, invoke ⟨.decode, .external .aDecode⟩ (run1 decoding) = .ok t .continue) ∧
    (∃ t, invoke mmuAct (withPort (run1 resolving) .requested) = .ok t .continue) :=
  ⟨by decide, by decide, by decide, by decide, by decide, ⟨_, rfl⟩, ⟨_, rfl⟩, ⟨_, rfl⟩⟩

/-- What the contracts forbid is no conforming invocation: a pause or a transfer elsewhere, a decoder that writes nothing or
raises with other bits, an MMU that does neither, or both, or something without a request (42_engine R151 to R153, 43_xlate
R165). -/
theorem test_conforms_refuses :
    (run1 { ops := [], ct := .transfer 2 }).nextConforms 0 (.handler 0) = false ∧
    (run1 { decoding with ct := .pause }).nextConforms 0x13 .aDecode = false ∧
    (run1 quiet).nextConforms 0x13 .aDecode = false ∧ (run1 refusing).nextConforms 0x33 .aDecode = false ∧
    (withPort (run1 quiet) .requested).nextConforms 0 .aMmu = false ∧
    (withPort (run1 { resolving with ops := resolving.ops ++ resolving.ops }) .requested).nextConforms 0 .aMmu = false ∧
    (withPort (run1 { faulting with ops := resolving.ops ++ faulting.ops }) .requested).nextConforms 0 .aMmu = false ∧
    (withPort (run1 { resolving with ct := .pause }) .requested).nextConforms 0 .aMmu = false ∧
    (withPort (run1 resolving) .idle).nextConforms 0 .aMmu = false := by decide

theorem witness_CausePendingIffTransfer :
    (run1 (raising 19)).nextConforms 0 (.handler 0) = true ∧ (run1 quiet).nextConforms 0 (.handler 0) = true ∧
    (run1 { ops := [], ct := .pause }).nextConforms 0 (.handler 0) = true ∧
    (run1 quiet).trap.pendFault = none ∧ (run1 quiet).trap.pendIntr = none ∧
    (∃ t, invoke (handler 0 .execute) (run1 (raising 19)) = .ok t (.transfer 3)) ∧
    (∃ t, invoke (handler 0 .execute) (run1 quiet) = .ok t .continue) :=
  ⟨by decide, by decide, by decide, by decide, by decide, ⟨_, rfl⟩, ⟨_, rfl⟩⟩

/-- A table whose MSTATUS lacks every field, and an RV32 table whose MSTATUSH does. -/
def withoutFields (x : XLen) (n : Nat) : State :=
  State.resetOf { Reference.config x with
    csrTab := (Reference.csrTab x).map fun d => if d.number = n then { d with fields := [] } else d } [] [] quiet [] 0

theorem witness_DeliverNeedsEveryNamedField :
    (withFault (withoutFields .rv64 0x300) 2 0 0 0).fatal = none ∧
    PendingOnly (withFault (withoutFields .rv64 0x300) 2 0 0 0) false 2 ∧
    (∀ nm ∈ [CsrName.medeleg, .mideleg, .mtvec, .mepc, .mcause, .mtval, .stvec, .sepc, .scause, .stval, .mstatus],
      (withoutFields .rv64 0x300).cfg.descNamed nm ≠ none ∧ (withoutFields .rv32 0x310).cfg.descNamed nm ≠ none) ∧
    (withoutFields .rv64 0x300).cfg.descNamed .mstatus = some (Reference.csrRow .rv64 0x300 .mstatus []) ∧
    (Reference.csrRow .rv64 0x300 .mstatus []).fieldNamed .mie = none ∧
    (withIntr (withoutFields .rv32 0x310) 7).fatal = none ∧ PendingOnly (withIntr (withoutFields .rv32 0x310) 7) true 7 ∧
    (withoutFields .rv32 0x310).cfg.descNamed .mstatush = some (Reference.csrRow .rv32 0x310 .mstatush []) ∧
    (Reference.csrRow .rv32 0x310 .mstatush []).fieldNamed .gva = none :=
  ⟨by decide, ⟨rfl, rfl⟩, by decide, by decide, by decide, by decide, ⟨rfl, rfl⟩, by decide, by decide⟩

/-- Both ends of a decoder. -/
theorem witness_DecoderDecodesOrRaises :
    (run1 decoding).nextConforms 0x13 .aDecode = true ∧ (run1 refusing).nextConforms 0x13 .aDecode = true ∧
    (∃ t, invoke ⟨.decode, .external .aDecode⟩ (run1 decoding) = .ok t .continue) ∧
    (∃ t, invoke ⟨.decode, .external .aDecode⟩ (run1 refusing) = .ok t (.transfer 3)) :=
  ⟨by decide, by decide, ⟨_, rfl⟩, ⟨_, rfl⟩⟩

/-- An MMU without a request, one that resolves, one that raises. -/
theorem witness_ConformingMmuResolvesOrRaises :
    (run1 quiet).mmuOf .aMmu = none ∧ (run1 quiet).nextConforms 0 .aMmu = true ∧ (run1 quiet).xp.state = .idle ∧
    (withPort (run1 resolving) .requested).nextConforms 0 .aMmu = true ∧
    (withPort (run1 faulting) .requested).nextConforms 0 .aMmu = true ∧
    (∃ t, invoke mmuAct (run1 quiet) = .ok t .continue) ∧
    (∃ t, invoke mmuAct (withPort (run1 resolving) .requested) = .ok t .continue) ∧
    (∃ t, invoke mmuAct (withPort (run1 faulting) .requested) = .ok t (.transfer 3)) :=
  ⟨rfl, by decide, by decide, by decide, by decide, ⟨_, rfl⟩, ⟨_, rfl⟩, ⟨_, rfl⟩⟩

theorem witness_MmuFunctionServesTheRequest :
    (mmuRun (start .rv64)).cfg.mmu = some scenarioMmu ∧ (mmuRun (start .rv64)).xp.state ≠ .requested ∧
    (mmuRun (withPort (start .rv64) .requested)).xp.state = .requested ∧
    mmuAnswer scenarioMmu (mmuRun (withPort (start .rv64) .requested)).mmuKey = .resolve 0x80002000 0 ∧
    mmuAnswer scenarioMmu (mmuRun { withPort (start .rv64) .requested with priv := .user }).mmuKey = .raise 13 ∧
    (start .rv64).cfg.isFaultCode 13 = true ∧ (start .rv64).trap = TrapUnit.empty := by decide

theorem witness_NoHiddenCsrWrites :
    EngineStarts .engRunGroup (run1 (raising 3)) (run1 (raising 3)) 1 0 executeGroup ([] ++ handler 0 .execute :: []) ∧
    (∀ a ∈ [handler 0 .execute], a.body ≠ .deliverTrap) ∧
    (run1 (raising 3)).scriptsAll (issuesOnly fun j => !mayWriteCsr j) = true ∧
    (∃ t, exec .engRunGroup (run1 (raising 3)) = .next t) := ⟨starts_run1 _, by decide, by decide, _, rfl⟩

theorem witness_RunsTouchMemoryOnlyByMemWrite :
    (run1 (raising 3)).scriptsAll (fun o => !writesMem o) = true ∧ (∃ t, exec .engRunGroup (run1 (raising 3)) = .next t) :=
  ⟨by decide, _, rfl⟩

theorem witness_OperationsAlwaysAnswer : (run1 (raising 3)).scriptsAll noEngine = true := by decide

theorem witness_EveryStepKeepsTheInvariant :
    (waiting 0x20000000#32).inv = true ∧ ∃ t, step (waiting 0x20000000#32) = .next t := ⟨by decide, _, rfl⟩

theorem witness_ResetMeetsTheInvariant : Memory.wf [(0, 1), (2 ^ 64 - 1, 255)] = true := by decide

theorem witness_ConfigurationIsFixed : ∃ t, step (waiting 0x42000000#32) = .next t := ⟨_, rfl⟩

theorem witness_EachFamilyWritesItsOwnUnit :
    (∃ t, exec (.rfWrite .csr 0x300) (start .rv64) = .next t) ∧ (∃ t, exec (.csrFieldWrite 0x300 7) (start .rv64) = .next t) ∧
    (∃ t, exec (.rfReadDirect .vec 31) (start .rv64) = .next t) ∧
    (∃ t, exec .xltPopResult (withPort (start .rv64) .resolved) = .next t) ∧
    (∃ t, exec (.trapSetInterrupt 11) (start .rv64) = .next t) ∧
    (∃ t, exec .trapDeliver (withIntr (start .rv64) 11) = .next t) :=
  ⟨⟨_, rfl⟩, ⟨_, rfl⟩, ⟨_, rfl⟩, ⟨_, rfl⟩, ⟨_, rfl⟩, ⟨_, rfl⟩⟩

theorem witness_StoreReadsBackWhatWasWritten : (start .rv64).mem.wf = true := by decide

end Sys2Proof.Tests
end

section
/-!
SUPPORT. Fatals and answers (00_scope R5, R7, R8): a latched code answers every input but the reset, an operation that ends in
FATAL writes the latch alone, and when an operation answers at all.
-/

namespace Sys2Proof.Machine

/-! ### A code is latched -/

/-- A latched code answers every command presented, whether or not its word decodes (00_scope R7, 30_encoding R78). -/
theorem stepCommand_latched {s : State} {c : FatalCode} (h : s.fatal = some c) (cmd : Command) (rest : List Input) :
    stepCommand s cmd rest = .next ((s.accept cmd rest).refuse c) := by
  unfold stepCommand
  split
  · exact command_latched (s := s.accept cmd rest) h _
  · exact exec_refused (s := s.accept cmd rest) h _

/-- Settles O8: `State.refuse` is the answer of the statement, written out. -/
theorem latchedFatalAnswersItsCode : Obligations.LatchedFatalAnswersItsCode := by
  unfold Obligations.LatchedFatalAnswersItsCode
  intro s c h i
  exact exec_refused h i

/-- Settles O9, by the first input waiting: none, a command (refused with the latched code), or the reset (excluded). -/
theorem onlyResetClearsTheLatch : Obligations.OnlyResetClearsTheLatch := by
  unfold Obligations.OnlyResetClearsTheLatch
  intro s t c hc hreset h
  cases hi : s.inputs with
  | nil =>
    simp only [step, hi] at h
    cases h
    rw [List.tail_nil, ← hi]
  | cons i rest =>
    cases i with
    | command cmd =>
      simp only [step, hi, stepCommand_latched hc] at h
      cases h
      rfl
    | reset => exact absurd hi (hreset rest)

/-! ### No code is latched -/

/-- With nothing latched, an operation that is not the Engine's ends as its work on the port does: in OK, answered, or in a
fatal, latched (00_scope R7, 30_encoding R70). -/
theorem exec_portOp_cases {i : Instr} {s t : State} (he : isEngineOp i = false) (hs : s.fatal = none)
    (h : exec i s = .next t) :
    (∃ u r, portOp i s.bus s = some (.ok u r) ∧ t = u.respond r) ∨
    (∃ c, portOp i s.bus s = some (.fatal c) ∧ t = s.latch c) := by
  have hsome : portOp i s.bus s ≠ none := by simp [portOp_none, he]
  obtain ⟨o, ho⟩ := Option.ne_none_iff_exists'.1 hsome
  have hop : (portOp i s.bus s).getD (.fatal .badCommand) = o := by rw [ho, Option.getD_some]
  rw [exec_command he] at h
  rcases command_cases h with ⟨c, hc, -⟩ | ⟨u, r, -, hok, rfl⟩ | ⟨c, -, hfatal, rfl⟩
  · cases hs.symm.trans hc
  · exact .inl ⟨u, r, by rw [ho, ← hop, hok], rfl⟩
  · exact .inr ⟨c, by rw [ho, ← hop, hfatal], rfl⟩

/-- Settles O10: an operation that succeeds answers status OK, so the one that answers FATAL is the latch. -/
theorem fatalCommandWritesOnlyTheLatch : Obligations.FatalCommandWritesOnlyTheLatch := by
  unfold Obligations.FatalCommandWritesOnlyTheLatch
  intro s t i he hs h hstatus
  rcases exec_portOp_cases he hs h with ⟨u, r, hok, rfl⟩ | ⟨c, -, rfl⟩
  · rw [State.respond_resp, portOp_status hok] at hstatus
    cases hstatus
  · exact ⟨c, rfl⟩

/-! ### Whether an operation answers -/

/-- The run of a group stops the model at an Engine operation of a script and nowhere else (log entry 12). -/
theorem runGroup_ne_fault {s : State} (h : s.scriptsAll noEngine = true) (g i : Nat) (r : Fault) :
    runGroup g i s ≠ .fault r := by
  unfold runGroup
  split
  · exact RunOut.noConfusion
  · exact runActions_ne_fault h r

theorem finishRun_answers (g : Nat) {o : RunOut} (h : ∀ r, o ≠ .fault r) : ∃ t, finishRun g o = .next t := by
  cases o with
  | done s next => exact ⟨_, rfl⟩
  | fatal s c => exact ⟨_, rfl⟩
  | fault r => exact absurd rfl (h r)

theorem execEngRunGroup_answers {s : State} (h : s.scriptsAll noEngine = true) : ∃ t, execEngRunGroup s = .next t := by
  unfold execEngRunGroup
  split
  · exact ⟨_, rfl⟩
  · split
    · exact ⟨_, rfl⟩
    · split
      · exact ⟨_, rfl⟩
      · exact finishRun_answers _ (runGroup_ne_fault h _ _)

theorem execEngResume_answers {s : State} (h : s.scriptsAll noEngine = true) : ∃ t, execEngResume s = .next t := by
  unfold execEngResume
  split
  · exact ⟨_, rfl⟩
  · split
    · exact ⟨_, rfl⟩
    · split
      · exact ⟨_, rfl⟩
      · exact finishRun_answers _ (runGroup_ne_fault (s := s.unpause) h _ _)

/-- Settles O49: the Engine's two operations answer because no Action stops their run, any other because a command answers. -/
theorem operationsAlwaysAnswer : Obligations.OperationsAlwaysAnswer := by
  unfold Obligations.OperationsAlwaysAnswer
  intro i s h
  by_cases he : isEngineOp i = false
  · rw [exec_command he]
    exact command_answers s _
  · cases i with
    | engRunGroup => exact execEngRunGroup_answers h
    | engResume => exact execEngResume_answers h
    | _ => exact absurd rfl he

end Sys2Proof.Machine
end

section
/-!
SUPPORT. How an operation ends, said once for all fifteen; then what every step keeps: the invariant (10_state R20 to R33,
44_trap_ops R184) and the configuration (10_state R25).
-/

namespace Sys2Proof.Machine

/-! ### How an operation ends -/

/-- How operation `i` ends from state `s`, where it answers (00_scope R7, 42_engine R136, R141, R147). -/
inductive ExecEnd (i : Instr) (s : State) : State → Prop where
  /-- A code was latched before. -/
  | refused (c : FatalCode) (latched : s.fatal = some c) : ExecEnd i s (s.refuse c)
  /-- A fatal that writes the latch alone. -/
  | latched (c : FatalCode) : ExecEnd i s (s.latch c)
  /-- An operation of a port that succeeds. -/
  | answered (safe : s.fatal = none) (t : State) (r : Response) (work : portOp i s.bus s = some (.ok t r)) : ExecEnd i s (t.respond r)
  /-- ENG.RESUME of a number that names no group (log entries 15, 20). -/
  | noGroup (safe : s.fatal = none) : ExecEnd i s (s.unpause.latch .badGroup)
  /-- The run of a group that is done. -/
  | ran {s0 : State} {g k : Nat} {grp : Group} {as : List Action} (starts : EngineStarts i s s0 g k grp as) (t : State)
      (next : Option Nat) (r : Response) (run : runActions g grp.next k s0 as = .done t next) :
      ExecEnd i s ((t.setEng { t.eng with next := next }).respond r)
  /-- The run of a group that a fatal stopped. -/
  | stopped {s0 : State} {g k : Nat} {grp : Group} {as : List Action} (starts : EngineStarts i s s0 g k grp as) (t : State)
      (c : FatalCode) (run : runActions g grp.next k s0 as = .fatal t c) : ExecEnd i s (t.latch c)

/-- A run that answers is done or stopped by a fatal. -/
theorem finishRun_cases {g : Nat} {o : RunOut} {t : State} (h : finishRun g o = .next t) :
    (∃ u next r, o = .done u next ∧ t = (u.setEng { u.eng with next := next }).respond r) ∨
    (∃ u c, o = .fatal u c ∧ t = u.latch c) := by
  cases o with
  | done u next => cases h; exact .inl ⟨u, next, _, rfl, rfl⟩
  | fatal u c => cases h; exact .inr ⟨u, c, rfl, rfl⟩
  | fault r => cases h

theorem EngineStarts.execEnd {i : Instr} {s s0 t : State} {g k : Nat} {grp : Group} {as : List Action}
    (hst : EngineStarts i s s0 g k grp as) (h : exec i s = .next t) : ExecEnd i s t := by
  rw [exec_of_starts hst] at h
  rcases finishRun_cases h with ⟨u, next, r, hrun, rfl⟩ | ⟨u, c, hrun, rfl⟩
  · exact .ran hst u next r hrun
  · exact .stopped hst u c hrun

theorem execEngRunGroup_end {s t : State} (hs : s.fatal = none) (h : execEngRunGroup s = .next t) :
    ExecEnd .engRunGroup s t := by
  have hexec : exec .engRunGroup s = .next t := h
  cases hp : s.eng.paused with
  | true => simp only [execEngRunGroup, hs, hp, if_true] at h; cases h; exact .latched _
  | false =>
    cases hn : s.eng.next with
    | none => simp only [execEngRunGroup, hs, hp, hn] at h; cases h; exact .latched _
    | some g =>
      cases hg : s.cfg.graph[g]? with
      | none =>
        simp only [execEngRunGroup, hs, hp, hn, runGroup, hg, finishRun] at h
        cases h
        exact .latched _
      | some grp =>
        have hst : EngineStarts .engRunGroup s s g 0 grp ((s.groupActions grp).drop 0) :=
          ⟨hs, hn, hg, rfl, .inl ⟨rfl, hp, rfl, rfl⟩⟩
        exact hst.execEnd hexec

theorem execEngResume_end {s t : State} (hs : s.fatal = none) (h : execEngResume s = .next t) :
    ExecEnd .engResume s t := by
  have hexec : exec .engResume s = .next t := h
  cases hp : s.eng.paused with
  | false => simp only [execEngResume, hs, hp, if_true] at h; cases h; exact .latched _
  | true =>
    cases hn : s.eng.next with
    | none => simp only [execEngResume, hs, hp, hn] at h; cases h; exact .latched _
    | some g =>
      cases hg : s.cfg.graph[g]? with
      | none =>
        have hg' : s.unpause.cfg.graph[g]? = none := hg
        simp only [execEngResume, hs, hp, hn, runGroup, hg', finishRun] at h
        cases h
        exact .noGroup hs
      | some grp =>
        have hst : EngineStarts .engResume s s.unpause g s.eng.cursor grp ((s.groupActions grp).drop s.eng.cursor) :=
          ⟨hs, hn, hg, rfl, .inr ⟨rfl, hp, rfl, rfl⟩⟩
        exact hst.execEnd hexec

/-- Every operation that answers ends in one of the ways of `ExecEnd`. -/
theorem exec_end {i : Instr} {s t : State} (h : exec i s = .next t) : ExecEnd i s t := by
  cases hf : s.fatal with
  | some c => rw [exec_refused hf] at h; cases h; exact .refused c hf
  | none =>
    by_cases he : isEngineOp i = false
    · rcases exec_portOp_cases he hf h with ⟨u, r, hu, rfl⟩ | ⟨c, -, rfl⟩
      · exact .answered hf u r hu
      · exact .latched c
    · cases i with
      | engRunGroup => exact execEngRunGroup_end hf h
      | engResume => exact execEngResume_end hf h
      | _ => exact absurd rfl he

/-- A reserved word is refused or latched (30_encoding R78). -/
theorem rejectWord_cases {s t : State} (h : rejectWord s = .next t) :
    (∃ c, s.fatal = some c ∧ t = s.refuse c) ∨ t = s.latch .badCommand := by
  rcases command_cases h with ⟨c, hc, rfl⟩ | ⟨u, r, -, hu, -⟩ | ⟨c, -, hc, rfl⟩
  · exact .inl ⟨c, hc, rfl⟩
  · cases hu
  · cases hc; exact .inr rfl

/-- What a step does: nothing, the reset, or one command, refused as a reserved word or performed (00_scope R5, 30_encoding R78,
70_reset R230). -/
theorem step_cases {s t : State} (h : step s = .next t) :
    (s.inputs = [] ∧ t = s) ∨
    (∃ rest, s.inputs = .reset :: rest ∧ t = s.afterReset rest) ∨
    (∃ cmd rest e, s.inputs = .command cmd :: rest ∧ decode cmd.cw = .error e ∧
      rejectWord (s.accept cmd rest) = .next t) ∨
    (∃ cmd rest i, s.inputs = .command cmd :: rest ∧ decode cmd.cw = .ok i ∧ exec i (s.accept cmd rest) = .next t) := by
  unfold step at h
  split at h
  · rename_i hi; cases h; exact .inl ⟨hi, rfl⟩
  · rename_i rest hi; cases h; exact .inr (.inl ⟨rest, hi, rfl⟩)
  · rename_i cmd rest hi
    unfold stepCommand at h
    split at h
    · rename_i e he; exact .inr (.inr (.inl ⟨cmd, rest, e, hi, he, h⟩))
    · rename_i i hd; exact .inr (.inr (.inr ⟨cmd, rest, i, hi, hd, h⟩))

/-! ### The reset state -/

theorem mapCells_toList {α β : Type} {n : Nat} (g : α → β) (cells : Vector α n) :
    (mapCells g cells).toList = cells.toList.map g := rfl

/-- Cells that are cut to a width hold values of that width. -/
theorem all_mapCells {α β : Type} {n : Nat} {g : α → β} {p : β → Bool} (cells : Vector α n) (h : ∀ a, p (g a) = true) :
    (mapCells g cells).toList.all p = true := by
  rw [mapCells_toList, List.all_map, List.all_eq_true]
  exact fun a _ => h a

theorem fits_of_lt {x : XLen} {w : Word} (h : w.toNat < 2 ^ x.bits) : fits x w = true := by
  have : trunc x w = w := by rw [trunc_eq_ofNat, Nat.mod_eq_of_lt h, BitVec.ofNat_toNat, BitVec.setWidth_eq]
  rw [fits, this, beq_self_eq_true]

/-- The reset values of a checked table have XLEN bits (41_csr R111). -/
theorem resetCsrs_fit {c : Config} (hc : c.ok = true) : c.resetCsrs.all (fun p => fits c.xlen p.2) = true := by
  simp only [Config.resetCsrs, List.all_map, List.all_eq_true]
  intro d hd
  have hok := Config.desc_ok hc hd
  simp only [CsrDesc.ok, Bool.and_eq_true, decide_eq_true_eq] at hok
  obtain ⟨⟨⟨⟨-, hreset⟩, -⟩, -⟩, -⟩ := hok
  exact fits_of_lt hreset

/-- There is one cell per descriptor after reset, in the table's order (10_state R24). -/
theorem resetCsrs_keys (c : Config) : c.resetCsrs.map Prod.fst = c.csrTab.map CsrDesc.number := by
  rw [Config.resetCsrs, List.map_map]
  rfl

section
variable (c : Config) (inputs : List Input) (script : List ActionRun) (idle : ActionRun) (mem : Memory) (md : Wide)

theorem resetOf_cellsFit (hc : c.ok = true) : (State.resetOf c inputs script idle mem md).cellsFit = true := by
  refine (State.cellsFit_iff _).2 ⟨⟨?_, ?_, ?_⟩, resetCsrs_fit hc, fits_trunc _ _, fits_trunc _ _, fits_zero _,
    fits_zero _, fits_zero _⟩
  · exact all_mapCells _ (fits_trunc _)
  · exact all_mapCells _ (fitsWide_truncWide _)
  · exact all_mapCells _ (fitsWide_truncWide _)

theorem resetOf_good (hc : c.ok = true) (hm : mem.wf = true) : Good (State.resetOf c inputs script idle mem md) :=
  ⟨resetOf_cellsFit c inputs script idle mem md hc, beq_iff_eq.2 (resetCsrs_keys c), rfl, hm⟩

/-- The Engine starts at the entry group, which a checked graph has (42_engine R139). -/
theorem resetOf_engOk (hc : c.ok = true) : (State.resetOf c inputs script idle mem md).engOk = true := by
  have he := Config.entry_lt hc
  simp [State.engOk, State.resetOf, he]

/-- A configuration that fails its checks comes out of reset with the latch set (41_csr R111). -/
theorem resetOf_inv (hm : c.ok = true → mem.wf = true) : (State.resetOf c inputs script idle mem md).inv = true := by
  cases hc : c.ok with
  | true =>
    exact (State.inv_iff hc).2
      ⟨resetOf_good c inputs script idle mem md hc (hm hc), resetOf_engOk c inputs script idle mem md hc⟩
  | false => exact (State.inv_iff_of_bad hc).2 (by simp [State.resetOf, hc])

end

/-- Settles O51: a checked configuration resets to cells in order and an Engine at its entry group, any other to the latch. -/
theorem resetMeetsTheInvariant : Obligations.ResetMeetsTheInvariant := by
  unfold Obligations.ResetMeetsTheInvariant
  refine ⟨resetOf_inv _ _ _ _ _ _ fun _ => rfl, ?_⟩
  intro c inputs script idle mem md hm
  exact resetOf_inv c inputs script idle mem md fun _ => hm

/-- In a file whose keys are distinct, a cell reads as what it holds. -/
theorem CsrFile.get_of_mem {r : CsrFile} {n : Nat} {w : Word} (hr : (r.map Prod.fst).Nodup) (h : (n, w) ∈ r) :
    r.get n = w := by
  induction r with
  | nil => cases h
  | cons p r ih =>
    obtain ⟨k, v⟩ := p
    rw [List.map_cons, List.nodup_cons] at hr
    obtain ⟨hk, hr⟩ := hr
    rcases List.mem_cons.1 h with heq | hmem
    · cases heq; simp [CsrFile.get]
    · have hne : k ≠ n := by
        rintro rfl
        exact hk (List.mem_map.2 ⟨_, hmem, rfl⟩)
      simp only [CsrFile.get, hne, if_false, ih hr hmem]

/-- Every CSR of a checked table reads as its descriptor's reset value after reset (10_state R24). -/
theorem resetCsrs_get {c : Config} (hc : c.ok = true) {d : CsrDesc} (hd : d ∈ c.csrTab) :
    CsrFile.get c.resetCsrs d.number = d.reset := by
  have htab := Config.ok_csrTab hc
  simp only [Config.csrTabOk, Bool.and_eq_true, noRepeats_iff] at htab
  refine CsrFile.get_of_mem ?_ (List.mem_map_of_mem (f := fun e : CsrDesc => (e.number, e.reset)) hd)
  rw [resetCsrs_keys]
  exact htab.1

/-- Settles O7: the state of `State.afterReset`, piece by piece; the CSR file is read through its distinct numbers. -/
theorem resetInputResetsEverything : Obligations.ResetInputResetsEverything := by
  unfold Obligations.ResetInputResetsEverything
  intro s rest hi
  have hstep : step s = .next (s.afterReset rest) := by simp only [step, hi]
  refine ⟨s.afterReset rest, hstep, rfl, fun hc d hd => resetCsrs_get hc hd, resetCsrs_keys s.cfg, trunc_eq_ofNat _ _, ?_⟩
  exact ⟨rfl, rfl, rfl, rfl, rfl, rfl, rfl, rfl, rfl, rfl, rfl, rfl, rfl, rfl⟩

/-! ### The invariant -/

/-- The Engine's part of the invariant, one fact per cell (10_state R33, 42_engine R146). -/
theorem State.engOk_iff (s : State) : s.engOk = true ↔
    (s.eng.next = none → s.eng.paused = false) ∧ (∀ g, s.eng.next = some g → g < s.cfg.graph.length) ∧
      (s.eng.paused = false → s.eng.cursor = 0) := by
  unfold State.engOk
  cases s.eng.next <;> cases s.eng.paused <;> simp

/-- The invariant of a state with nothing latched is that of a checked configuration. -/
theorem State.ok_of_inv {s : State} (h : s.inv = true) (hs : s.fatal = none) : s.cfg.ok = true := by
  cases hc : s.cfg.ok with
  | true => rfl
  | false =>
    have hf := (State.inv_iff_of_bad hc).1 h
    rw [hs] at hf
    cases hf

theorem Good.latch {s : State} (h : Good s) (c : FatalCode) : Good (s.latch c) := ⟨h.cells, h.csrs, h.slot, h.mem⟩

/-- A fatal latched leaves every cell of the invariant, and is what it asks of a configuration that fails its checks. -/
theorem State.inv_latch {s : State} (h : s.inv = true) (c : FatalCode) : (s.latch c).inv = true := by
  cases hc : s.cfg.ok with
  | true =>
    obtain ⟨hgood, heng⟩ := (State.inv_iff hc).1 h
    exact (State.inv_iff (s := s.latch c) hc).2 ⟨hgood.latch c, heng⟩
  | false => exact (State.inv_iff_of_bad (s := s.latch c) hc).2 rfl

theorem State.inv_refuse {s : State} (h : s.inv = true) (c : FatalCode) : (s.refuse c).inv = true := h

theorem State.inv_respond {s : State} (h : s.inv = true) (r : Response) : (s.respond r).inv = true := h

theorem State.inv_accept {s : State} (h : s.inv = true) (cmd : Command) (rest : List Input) :
    (s.accept cmd rest).inv = true := h

/-- The invariant where nothing is latched: the configuration passes its checks, and every part is in order. -/
structure Sound (s : State) : Prop where
  cfgOk : s.cfg.ok = true
  good  : Good s
  eng   : s.engOk = true

theorem Sound.of_inv {s : State} (h : s.inv = true) (hs : s.fatal = none) : Sound s :=
  have hc := State.ok_of_inv h hs
  ⟨hc, ((State.inv_iff hc).1 h).1, ((State.inv_iff hc).1 h).2⟩

theorem Sound.inv {s : State} (h : Sound s) : s.inv = true := (State.inv_iff h.cfgOk).2 ⟨h.good, h.eng⟩

theorem Sound.of_frame {s t : State} (h : Sound s) (hg : Good t) (hc : t.cfg = s.cfg) (he : t.eng = s.eng) : Sound t := by
  refine ⟨hc ▸ h.cfgOk, hg, ?_⟩
  have hs := (State.engOk_iff s).1 h.eng
  rw [← he, ← hc] at hs
  exact (State.engOk_iff t).2 hs

/-- An Engine no longer paused keeps a group that exists, at cursor 0 (42_engine R147). -/
theorem Sound.unpause {s : State} (h : Sound s) : Sound s.unpause := by
  obtain ⟨-, hnext, -⟩ := (State.engOk_iff s).1 h.eng
  exact ⟨h.cfgOk, h.good.setEng _, (State.engOk_iff _).2 ⟨fun _ => rfl, hnext, fun _ => rfl⟩⟩

section
variable {i : Instr} {s s0 t : State} {g k : Nat} {grp : Group} {as : List Action}

/-- A run starts in order. -/
theorem EngineStarts.sound (hst : EngineStarts i s s0 g k grp as) (h : Sound s) : Sound s0 := by
  rcases hst.entry with ⟨-, -, rfl, -⟩ | ⟨-, -, -, rfl⟩
  · exact h
  · exact h.unpause

/-- A run leaves the configuration it starts with, the hart's own (42_engine R138). -/
theorem EngineStarts.run_cfg (hst : EngineStarts i s s0 g k grp as)
    (h : (runActions g grp.next k s0 as).state? = some t) : t.cfg = s.cfg := by
  obtain ⟨-, -, hs0⟩ := hst.start
  rw [(runActions_cfg h).1, hs0]

/-- The Engine stands in order after a run that is done: at the link, at the group transferred to, or paused in its group
(42_engine R136). -/
theorem EngineStarts.done_engOk (hst : EngineStarts i s s0 g k grp as) (h : Sound s) {next : Option Nat}
    (hrun : runActions g grp.next k s0 as = .done t next) :
    (t.setEng { t.eng with next := next }).engOk = true := by
  obtain ⟨hpaused, -, -⟩ := hst.start
  obtain ⟨-, -, hcursor⟩ := (State.engOk_iff s0).1 (hst.sound h).eng
  have hstate : (runActions g grp.next k s0 as).state? = some t := by rw [hrun]; rfl
  have hcfg := hst.run_cfg hstate
  rw [State.engOk_iff]
  simp only [State.setEng]
  rcases runActions_done hrun with ⟨rfl, he⟩ | ⟨u, rfl, hu, he⟩ | ⟨m, rfl, -, -, he⟩
  · rw [he]
    refine ⟨fun _ => hpaused, fun u hu => ?_, fun _ => hcursor hpaused⟩
    rw [hcfg]
    exact Config.link_lt h.cfgOk hst.group hu
  · rw [he]
    refine ⟨nofun, fun v hv => ?_, fun _ => hcursor hpaused⟩
    cases hv
    rw [(runActions_cfg hstate).1]
    exact hu
  · rw [he]
    refine ⟨nofun, fun v hv => ?_, nofun⟩
    cases hv
    rw [hcfg]
    exact (List.getElem?_eq_some_iff.1 hst.group).1

theorem EngineStarts.done_sound (hst : EngineStarts i s s0 g k grp as) (h : Sound s) {next : Option Nat}
    (hrun : runActions g grp.next k s0 as = .done t next) : Sound (t.setEng { t.eng with next := next }) := by
  have hs0 := hst.sound h
  have hstate : (runActions g grp.next k s0 as).state? = some t := by rw [hrun]; rfl
  exact ⟨(runActions_cfg hstate).1 ▸ hs0.cfgOk, (hs0.good.runActions hs0.cfgOk hstate).setEng _, hst.done_engOk h hrun⟩

theorem EngineStarts.fatal_sound (hst : EngineStarts i s s0 g k grp as) (h : Sound s) {c : FatalCode}
    (hrun : runActions g grp.next k s0 as = .fatal t c) : Sound t := by
  have hs0 := hst.sound h
  have hstate : (runActions g grp.next k s0 as).state? = some t := by rw [hrun]; rfl
  exact hs0.of_frame (hs0.good.runActions hs0.cfgOk hstate) (runActions_cfg hstate).1 (runActions_fatal hrun)

/-- An operation of a port keeps the invariant: it touches neither the configuration nor the Engine. -/
theorem Sound.portOp (h : Sound s) {b : Bus} {r : Response} (hw : portOp i b s = some (.ok t r)) : Sound t :=
  h.of_frame (h.good.portOp h.cfgOk hw) (portOp_frame hw).cfg (portOp_frame hw).eng

end

/-- Every operation keeps the invariant, by the way it ends. -/
theorem inv_exec {i : Instr} {s t : State} (hs : s.inv = true) (h : exec i s = .next t) : t.inv = true := by
  cases exec_end h with
  | refused c _ => exact State.inv_refuse hs c
  | latched c => exact State.inv_latch hs c
  | answered safe u r hw => exact State.inv_respond ((Sound.of_inv hs safe).portOp hw).inv r
  | noGroup safe => exact State.inv_latch (Sound.of_inv hs safe).unpause.inv _
  | ran hst u next r hrun => exact State.inv_respond (hst.done_sound (Sound.of_inv hs hst.safe) hrun).inv r
  | stopped hst u c hrun => exact State.inv_latch (hst.fatal_sound (Sound.of_inv hs hst.safe) hrun).inv c

/-- Settles O50, by what the step does: nothing, the reset, a reserved word refused, or an operation. -/
theorem everyStepKeepsTheInvariant : Obligations.EveryStepKeepsTheInvariant := by
  unfold Obligations.EveryStepKeepsTheInvariant
  intro s t hs h
  rcases step_cases h with ⟨-, rfl⟩ | ⟨rest, -, rfl⟩ | ⟨cmd, rest, -, -, -, hr⟩ | ⟨cmd, rest, i, -, -, he⟩
  · exact hs
  · exact resetOf_inv _ _ _ _ _ _ fun hc => ((State.inv_iff hc).1 hs).1.mem
  · rcases rejectWord_cases hr with ⟨c, -, rfl⟩ | rfl
    · exact State.inv_refuse (State.inv_accept hs cmd rest) c
    · exact State.inv_latch (State.inv_accept hs cmd rest) _
  · exact inv_exec (State.inv_accept hs cmd rest) he

/-! ### The configuration -/

theorem exec_cfg {i : Instr} {s t : State} (h : exec i s = .next t) : t.cfg = s.cfg := by
  cases exec_end h with
  | refused c _ => rfl
  | latched c => rfl
  | answered _ u r hw => exact (portOp_frame hw).cfg
  | noGroup => rfl
  | ran hst u next r hu => exact hst.run_cfg (t := u) (by rw [hu]; rfl)
  | stopped hst u c hu => exact hst.run_cfg (t := u) (by rw [hu]; rfl)

/-- Settles O52, by what the step does. -/
theorem configurationIsFixed : Obligations.ConfigurationIsFixed := by
  unfold Obligations.ConfigurationIsFixed
  intro s t h
  rcases step_cases h with ⟨-, rfl⟩ | ⟨rest, -, rfl⟩ | ⟨cmd, rest, -, -, -, hr⟩ | ⟨cmd, rest, i, -, -, he⟩
  · rfl
  · rfl
  · rcases rejectWord_cases hr with ⟨c, -, rfl⟩ | rfl <;> rfl
  · exact exec_cfg (s := s.accept cmd rest) he

end Sys2Proof.Machine
end

section
/-!
SUPPORT. The zero write-guard (10_state R21), the CSRs that delivery names (10_state R26, 60_exceptions R207), what a run
leaves of the CSR file (10_state R37, 60_exceptions R222), and the default configuration.
-/

namespace Sys2Proof.Machine

/-! ### Registers read and written by a command -/

/-- Both reads answer the register and change nothing (40_regfile R91, R95). -/
theorem exec_read {s : State} {cls : RegClass} {idx : Nat} {v : Wide} (hs : s.fatal = none)
    (hv : s.readReg cls idx = .ok v) {op : RegClass → Nat → Instr} (hop : op ∈ [Instr.rfRead, .rfReadDirect]) :
    exec (op cls idx) s = .next (s.respond (Response.ofData v)) := by
  have hread : command s (opRead cls idx) = .next (s.respond (Response.ofData v)) :=
    command_of_ok hs (by simp only [opRead, hv])
  simp only [List.mem_cons, List.not_mem_nil, or_false] at hop
  rcases hop with rfl | rfl <;> exact hread

/-- Both writes to a register that is no CSR store the same (40_regfile R93, R97). -/
theorem exec_write {s t : State} {cls : RegClass} {idx : Nat} (hs : s.fatal = none)
    (ht : ∀ store, s.writeReg store cls idx s.bus.wdata = .ok t) {op : RegClass → Nat → Instr}
    (hop : op ∈ [Instr.rfWrite, .rfWriteDirect]) : exec (op cls idx) s = .next (t.respond Response.ok) := by
  simp only [List.mem_cons, List.not_mem_nil, or_false] at hop
  rcases hop with rfl | rfl
  · exact command_of_ok hs (by simp only [opWrite, ht])
  · exact command_of_ok hs (by simp only [opWriteDirect, ht])

/-- The direct write of a CSR of the table (40_regfile R97). -/
theorem exec_writeDirect_csr {s : State} {n : Nat} {d : CsrDesc} (hs : s.fatal = none) (hd : s.cfg.desc n = some d) :
    exec (.rfWriteDirect .csr n) s = .next ((s.csrStore d (wordOf s.cfg.xlen s.bus.wdata)).respond Response.ok) :=
  command_of_ok hs (by simp only [opWriteDirect, State.writeReg, hd])

theorem readReg_csr {s : State} {n : Nat} {d : CsrDesc} (hd : s.cfg.desc n = some d) :
    s.readReg .csr n = .ok (s.csr.get d.number).toNat := by
  simp only [State.readReg, hd]

theorem fpCell_setFpCell_zero (s : State) (w : Wide) : (s.setFpCell 0 w).fpCell 0 = w := by
  simp [State.fpCell, State.setFpCell]

theorem vecCell_setVecCell_zero (s : State) (w : Wide) : (s.setVecCell 0 w).vecCell 0 = w := by
  simp [State.vecCell, State.setVecCell]

/-- A register written by a command, then read by the next one, answers what it holds. -/
theorem exec_write_then_read {s t : State} {cls : RegClass} {idx : Nat} {i : Instr} {v : Wide} (hs : s.fatal = none)
    (hw : exec i s = .next (t.respond Response.ok)) (ht : t.fatal = s.fatal) (hv : t.readReg cls idx = .ok v) :
    ∃ u r, exec i s = .next u ∧ exec (.rfRead cls idx) u = .next r ∧ r.resp.rdata = v := by
  have hread : exec (.rfRead cls idx) (t.respond Response.ok) = _ :=
    exec_read (s := t.respond Response.ok) (ht.trans hs) hv (List.mem_cons_self ..)
  exact ⟨_, _, hw, hread, rfl⟩

/-- Settles O12: the guard is the integer class's alone, so a write to register 0 of another class, or to the CSR numbered 0, is
read back. -/
theorem zeroRegisterGuard : Obligations.ZeroRegisterGuard := by
  unfold Obligations.ZeroRegisterGuard
  intro s hs
  refine ⟨fun op hop => ?_, fun op hop => ⟨?_, ?_, ?_⟩, fun d hd => ?_⟩
  · exact exec_read (v := 0) hs rfl hop
  · exact exec_write (t := s) hs (fun _ => rfl) hop
  · have hw := exec_write (cls := .fp) (idx := 0) (t := s.setFpCell 0 (truncWide s.cfg.flen s.bus.wdata)) hs (fun _ => rfl) hop
    refine exec_write_then_read hs hw rfl ?_
    exact congrArg Except.ok (fpCell_setFpCell_zero s _)
  · have hw := exec_write (cls := .vec) (idx := 0) (t := s.setVecCell 0 (truncWide s.cfg.vlen s.bus.wdata)) hs (fun _ => rfl) hop
    refine exec_write_then_read hs hw rfl ?_
    exact congrArg Except.ok (vecCell_setVecCell_zero s _)
  · refine exec_write_then_read hs (exec_writeDirect_csr hs hd) rfl ?_
    have hread := readReg_csr (s := s.csrStore d (wordOf s.cfg.xlen s.bus.wdata)) hd
    rw [hread, State.csrStore, CsrFile.get_set_same, wordOf_toNat]

/-! ### The CSRs that delivery names -/

/-- A lookup of a CSR, and whatever follows it, ends in F_UNKNOWN_CSR if what follows does once the CSR is found. -/
theorem needCsr_bind_unknown {α : Type} {c : Config} {nm : CsrName} {k : CsrDesc → Except FatalCode α}
    (h : ∀ d, c.descNamed nm = some d → k d = .error .unknownCsr) : (c.needCsr nm >>= k) = .error .unknownCsr := by
  unfold Config.needCsr
  cases hd : c.descNamed nm with
  | none => rfl
  | some d => exact h d hd

/-- The CSR that holds the gva and mpv fields (10_state R26, 60_exceptions R206). -/
def svName : XLen → CsrName
  | .rv64 => .mstatus
  | .rv32 => .mstatush

/-- The names of delivery's CSRs in the order they are looked up (60_exceptions R207). -/
def trapCsrNames (x : XLen) : List CsrName :=
  [.medeleg, .mideleg, .mtvec, .mepc, .mcause, .mtval, .stvec, .sepc, .scause, .stval, .mstatus, svName x]

/-- With one of delivery's CSRs missing, the lookups end in F_UNKNOWN_CSR, since they come before those of the fields (log
entry 14). -/
theorem trapNames_unknownCsr {c : Config} {nm : CsrName} (hnm : nm ∈ trapCsrNames c.xlen)
    (h : c.descNamed nm = none) : c.trapNames = .error .unknownCsr := by
  unfold Config.trapNames
  refine needCsr_bind_unknown fun _ h1 => needCsr_bind_unknown fun _ h2 => needCsr_bind_unknown fun _ h3 =>
    needCsr_bind_unknown fun _ h4 => needCsr_bind_unknown fun _ h5 => needCsr_bind_unknown fun _ h6 =>
    needCsr_bind_unknown fun _ h7 => needCsr_bind_unknown fun _ h8 => needCsr_bind_unknown fun _ h9 =>
    needCsr_bind_unknown fun _ h10 => needCsr_bind_unknown fun _ h11 => needCsr_bind_unknown fun d h12 => ?_
  have hsv : c.descNamed (svName c.xlen) = some d := h12
  have hall : ∀ nm ∈ trapCsrNames c.xlen, c.descNamed nm ≠ none := by
    simp [trapCsrNames, h1, h2, h3, h4, h5, h6, h7, h8, h9, h10, h11, hsv]
  exact absurd h (hall nm hnm)

/-- Settles O26: exactly one cause is pending, so the lookups are made, and one of them misses. -/
theorem deliverNeedsEveryNamedCsr : Obligations.DeliverNeedsEveryNamedCsr := by
  unfold Obligations.DeliverNeedsEveryNamedCsr
  intro s isIntr c nm hs hp hnm hd
  have hmem : nm ∈ trapCsrNames s.cfg.xlen := by
    rcases hnm with hnm | ⟨hx, rfl⟩
    · exact List.mem_append_left [_] hnm
    · simp [trapCsrNames, svName, hx]
  have hop : opDeliver s = .fatal .unknownCsr := by
    rw [opDeliver_pending hp, opDeliverCause, trapNames_unknownCsr hmem hd]
  exact command_of_fatal hs hop

/-! ### What a run leaves of the CSR file -/

theorem writeReg_csr_kept {s t : State} {store : State → CsrDesc → Word → State} {cls : RegClass} {idx : Nat} {w : Wide}
    (hcls : cls ≠ .csr) (h : s.writeReg store cls idx w = .ok t) : t.csr = s.csr := by
  cases cls with
  | int =>
    simp only [State.writeReg] at h
    split at h
    · cases h
    · cases h; exact State.setIntCell_csr ..
  | fp =>
    simp only [State.writeReg] at h
    split at h
    · cases h
    · cases h; rfl
  | vec =>
    simp only [State.writeReg] at h
    split at h
    · cases h
    · cases h; rfl
  | csr => exact absurd rfl hcls

/-- An operation of a port that is no write of a CSR and no delivery leaves the CSR file. -/
theorem portOp_csr {i : Instr} {b : Bus} {s t : State} {r : Response} (hi : mayWriteCsr i = false)
    (h : portOp i b s = some (.ok t r)) : t.csr = s.csr := by
  cases i with
  | rfRead c n => rw [opRead_ok (Option.some.inj h)]
  | rfWrite c n =>
    have h := Option.some.inj h
    unfold opWrite at h
    split at h
    · cases h
    · rename_i u hu; cases h; exact writeReg_csr_kept (by simpa [mayWriteCsr] using hi) hu
  | rfReadDirect c n => rw [opRead_ok (Option.some.inj h)]
  | rfWriteDirect c n =>
    have h := Option.some.inj h
    unfold opWriteDirect at h
    split at h
    · cases h
    · rename_i u hu; cases h; exact writeReg_csr_kept (by simpa [mayWriteCsr] using hi) hu
  | csrFieldRead n k => rw [opFieldRead_ok (Option.some.inj h)]
  | csrFieldWrite n k => cases hi
  | engRunGroup => cases h
  | engResume => cases h
  | xltRequest => obtain ⟨-, -, rfl⟩ := opRequest_ok (Option.some.inj h); rfl
  | xltResolve => obtain ⟨-, -, rfl⟩ := opResolve_ok (Option.some.inj h); rfl
  | xltResult => obtain ⟨-, -, rfl⟩ := opResult_ok (Option.some.inj h); rfl
  | xltPopResult => obtain ⟨-, -, rfl⟩ := opPopResult_ok (Option.some.inj h); rfl
  | trapSetFault c => obtain ⟨-, -, -, -, rfl⟩ := opSetFault_ok (Option.some.inj h); rfl
  | trapSetInterrupt c => obtain ⟨-, -, -, -, rfl⟩ := opSetInterrupt_ok (Option.some.inj h); rfl
  | trapDeliver => cases hi

/-- One thing of a script that writes no CSR. -/
theorem runOp_csr {s t : State} {o : ActionOp} (ho : issuesOnly (fun j => !mayWriteCsr j) o = true)
    (h : (runOp s o).state? = some t) : t.csr = s.csr := by
  cases o with
  | issue cw a b c d =>
    refine issue_state (p := fun t => t.csr = s.csr) h (fun i u r hi hw => ?_) (fun _ => rfl)
    refine portOp_csr (t := u) ?_ hw
    simpa [issuesOnly, hi] using ho
  | setNextPc v => cases h; rfl
  | setPriv v => cases h; rfl
  | setVirt v => cases h; rfl
  | setXlateMode v => cases h; rfl
  | setInst a b c d => cases h; rfl
  | memRead a n => cases h; rfl
  | memWrite a n v => cases h; rfl

theorem runOps_csr {s t : State} {os : List ActionOp} (ho : os.all (issuesOnly fun j => !mayWriteCsr j) = true)
    (h : (runOps s os).state? = some t) : t.csr = s.csr :=
  runOps_state (p := fun s t => t.csr = s.csr) (fun _ => rfl) (fun h h' => h'.trans h)
    (fun o hmem _ _ hr => runOp_csr (List.all_eq_true.1 ho o hmem) hr) h

/-- An Action that is not `deliver_trap` and whose script writes no CSR leaves the CSR file. -/
theorem invoke_csr {s t : State} {a : Action} (ha : a.body ≠ .deliverTrap)
    (hs : s.scriptsAll (issuesOnly fun j => !mayWriteCsr j) = true) (h : (invoke a s).state? = some t) :
    t.csr = s.csr := by
  unfold invoke at h
  split at h
  · unfold actAssemble at h
    split at h <;> (cases h; rfl)
  · cases h; rfl
  · rename_i hb; exact absurd hb ha
  · unfold actIllegal at h
    rw [WorkOut.thenAnswer_state?] at h
    refine answer_state (p := fun t => t.csr = s.csr) h (fun u r e => ?_) (fun _ => rfl)
    obtain ⟨-, -, -, -, rfl⟩ := opSetFault_ok e
    rfl
  · rename_i e _
    rcases actExternal_cases e s with ⟨m, -, he⟩ | ⟨-, he⟩ <;> rw [he] at h
    · refine actMmu_state (p := fun t => t.csr = s.csr) h rfl (fun i b u r hi hw => ?_) (fun _ => rfl)
      refine portOp_csr (t := u) ?_ hw
      rcases hi with rfl | ⟨c, rfl⟩ <;> rfl
    · unfold actScript at h
      rw [WorkOut.thenAnswer_state?] at h
      exact runOps_csr (s := s.dropRun) (State.scriptsAll_next hs) h

/-- A run of such Actions leaves the CSR file; the scripts stay as they are asked to be. -/
theorem runActions_csr {g i : Nat} {next : Option Nat} {s t : State} {as : List Action}
    (has : ∀ a ∈ as, a.body ≠ .deliverTrap) (hs : s.scriptsAll (issuesOnly fun j => !mayWriteCsr j) = true)
    (h : (runActions g next i s as).state? = some t) : t.csr = s.csr :=
  (runActions_state
    (p := fun s t => s.scriptsAll (issuesOnly fun j => !mayWriteCsr j) = true →
      t.csr = s.csr ∧ t.scriptsAll (issuesOnly fun j => !mayWriteCsr j) = true)
    (fun _ hs => ⟨rfl, hs⟩)
    (fun h h' hs => ⟨(h' (h hs).2).1.trans (h hs).1, (h' (h hs).2).2⟩)
    (fun a hmem _ _ ha hs => ⟨invoke_csr (has a hmem) hs ha, State.scriptsAll_invoke ha hs⟩)
    (fun _ _ hs => ⟨rfl, hs⟩) h hs).1

/-- Settles O47: the operation is the run of the group's Actions, and its own writes are the Engine's cells and the answer. -/
theorem noHiddenCsrWrites : Obligations.NoHiddenCsrWrites := by
  unfold Obligations.NoHiddenCsrWrites
  intro i s s0 t g k grp as hst has hs h
  obtain ⟨-, -, hs0⟩ := hst.start
  have hcsr : s0.csr = s.csr := by rw [hs0]
  have hscripts : s0.scriptsAll (issuesOnly fun j => !mayWriteCsr j) = true := by rw [hs0]; exact hs
  rw [exec_of_starts hst] at h
  rcases finishRun_cases h with ⟨u, next, r, hrun, rfl⟩ | ⟨u, c, hrun, rfl⟩
  · exact (runActions_csr (t := u) has hscripts (by rw [hrun]; rfl)).trans hcsr
  · exact (runActions_csr (t := u) has hscripts (by rw [hrun]; rfl)).trans hcsr

/-! ### The default configuration -/

/-- The default configuration passes the construction checks (41_csr R111, 42_engine R139). -/
theorem reference_ok (x : XLen) : (Reference.config x).ok = true := by cases x <;> decide

/-- Every CSR that delivery names is in the default table (10_state R26). -/
theorem reference_named (x : XLen) {nm : CsrName}
    (h : nm ∈ [CsrName.medeleg, .mideleg, .mtvec, .mepc, .mcause, .mtval, .stvec, .sepc, .scause, .stval, .mstatus]) :
    ((Reference.config x).descNamed nm).isSome = true := by
  have hf := refNames_found x (c := Reference.config x) rfl rfl
  simp only [List.mem_cons, List.not_mem_nil, or_false] at h
  rcases h with rfl | rfl | rfl | rfl | rfl | rfl | rfl | rfl | rfl | rfl | rfl
  · rw [hf.medeleg]; rfl
  · rw [hf.mideleg]; rfl
  · rw [hf.mtvec]; rfl
  · rw [hf.mepc]; rfl
  · rw [hf.mcause]; rfl
  · rw [hf.mtval]; rfl
  · rw [hf.stvec]; rfl
  · rw [hf.sepc]; rfl
  · rw [hf.scause]; rfl
  · rw [hf.stval]; rfl
  · rw [hf.mstatus]; rfl

/-- Settles O54: the checks and the rows of the default table are evaluated at each width. -/
theorem defaultConfigurationIsSound : Obligations.DefaultConfigurationIsSound := by
  unfold Obligations.DefaultConfigurationIsSound
  refine ⟨fun x => ⟨reference_ok x, ?_, ?_, fun nm h => reference_named x h⟩, ?_, ?_⟩
  · cases x <;> rfl
  · cases x <;> rfl
  · exact ⟨_, rfl, rfl, rfl, rfl⟩
  · exact ⟨_, rfl, rfl, rfl, rfl⟩

end Sys2Proof.Machine
end

section
/-!
SUPPORT. The external store (20_memory R50, R51, R53): what a run without a MemWrite leaves of it, and what a MemWrite followed
by a MemRead gives back.
-/

namespace Sys2Proof.Machine

/-! ### What a run leaves of the store -/

/-- An operation of a port, answered, leaves the store (20_memory R50). -/
theorem answer_portOp_mem {i : Instr} {b : Bus} {s t : State} {o : OpResult} (ho : portOp i b s = some o)
    (h : (answer s o).state? = some t) : t.mem = s.mem :=
  answer_state (p := fun t => t.mem = s.mem) h (fun u r e => (portOp_frame (t := u) (by rw [ho, e])).mem) (fun _ => rfl)

/-- One thing of a script that is no MemWrite. -/
theorem runOp_mem {s t : State} {o : ActionOp} (ho : writesMem o = false) (h : (runOp s o).state? = some t) :
    t.mem = s.mem := by
  cases o with
  | issue cw a b c d =>
    exact issue_state (p := fun t => t.mem = s.mem) h (fun _ u _ _ hw => (portOp_frame (t := u) hw).mem) (fun _ => rfl)
  | setNextPc v => cases h; rfl
  | setPriv v => cases h; rfl
  | setVirt v => cases h; rfl
  | setXlateMode v => cases h; rfl
  | setInst a b c d => cases h; rfl
  | memRead a n => cases h; rfl
  | memWrite a n v => cases ho

theorem runOps_mem {s t : State} {os : List ActionOp} (ho : os.all (fun o => !writesMem o) = true)
    (h : (runOps s os).state? = some t) : t.mem = s.mem :=
  runOps_state (p := fun s t => t.mem = s.mem) (fun _ => rfl) (fun h h' => h'.trans h)
    (fun o hmem _ _ hr => runOp_mem (by simpa using List.all_eq_true.1 ho o hmem) hr) h

/-- An Action whose script has no MemWrite leaves the store; the built-in ones and the MMU's function have no script. -/
theorem invoke_mem {s t : State} {a : Action} (hs : s.scriptsAll (fun o => !writesMem o) = true)
    (h : (invoke a s).state? = some t) : t.mem = s.mem := by
  unfold invoke at h
  split at h
  · unfold actAssemble at h
    split at h <;> (cases h; rfl)
  · cases h; rfl
  · rw [actDeliverTrap, WorkOut.thenAnswer_state?] at h
    exact answer_portOp_mem (i := .trapDeliver) (b := Bus.zero) rfl h
  · rw [actIllegal, WorkOut.thenAnswer_state?] at h
    exact answer_portOp_mem (i := .trapSetFault FaultCause.illegalInst.code) rfl h
  · rename_i e _
    rcases actExternal_cases e s with ⟨m, -, he⟩ | ⟨-, he⟩ <;> rw [he] at h
    · exact actMmu_state (p := fun t => t.mem = s.mem) h rfl (fun _ _ u _ _ hw => (portOp_frame (t := u) hw).mem) (fun _ => rfl)
    · rw [actScript, WorkOut.thenAnswer_state?] at h
      exact runOps_mem (s := s.dropRun) (State.scriptsAll_next hs) h

/-- A run of such Actions leaves the store; the scripts stay as they are asked to be. -/
theorem runActions_mem {g i : Nat} {next : Option Nat} {s t : State} {as : List Action}
    (hs : s.scriptsAll (fun o => !writesMem o) = true) (h : (runActions g next i s as).state? = some t) : t.mem = s.mem :=
  (runActions_state
    (p := fun s t => s.scriptsAll (fun o => !writesMem o) = true →
      t.mem = s.mem ∧ t.scriptsAll (fun o => !writesMem o) = true)
    (fun _ hs => ⟨rfl, hs⟩)
    (fun h h' hs => ⟨(h' (h hs).2).1.trans (h hs).1, (h' (h hs).2).2⟩)
    (fun _ _ _ _ ha hs => ⟨invoke_mem hs ha, State.scriptsAll_invoke ha hs⟩)
    (fun _ _ hs => ⟨rfl, hs⟩) h hs).1

/-- The run an Engine operation starts, from the state before the operation. -/
theorem EngineStarts.run_mem {i : Instr} {s s0 t : State} {g k : Nat} {grp : Group} {as : List Action}
    (hst : EngineStarts i s s0 g k grp as) (hs : s.scriptsAll (fun o => !writesMem o) = true)
    (h : (runActions g grp.next k s0 as).state? = some t) : t.mem = s.mem := by
  obtain ⟨-, -, hs0⟩ := hst.start
  have hmem : s0.mem = s.mem := by rw [hs0]
  have hscripts : s0.scriptsAll (fun o => !writesMem o) = true := by rw [hs0]; exact hs
  exact (runActions_mem hscripts h).trans hmem

/-- Settles O48, by the way the operation ends: only the run of a group could write the store. -/
theorem runsTouchMemoryOnlyByMemWrite : Obligations.RunsTouchMemoryOnlyByMemWrite := by
  unfold Obligations.RunsTouchMemoryOnlyByMemWrite
  intro i s t hs h
  cases exec_end h with
  | refused c _ => rfl
  | latched c => rfl
  | answered _ u r hw => exact (portOp_frame hw).mem
  | noGroup => rfl
  | ran hst u next r hu => exact hst.run_mem (t := u) hs (by rw [hu]; rfl)
  | stopped hst u c hu => exact hst.run_mem (t := u) hs (by rw [hu]; rfl)

/-! ### A value written and read back -/

theorem memSize_bytes_le (n : MemSize) : n.bytes ≤ 2 ^ 64 := by cases n <;> decide

/-- No source reads the store itself (42_engine R153): what a MemRead found stands in a cell of its own. -/
theorem State.sourceWord_withMem (s : State) (m : Memory) (v : Source) :
    ({ s with mem := m } : State).sourceWord v = s.sourceWord v := by
  cases v <;> rfl

/-- A MemRead by an external Action, from what its address is and what the store holds there. -/
theorem runOp_memRead {s : State} {addr : Source} {a : Word} {n : MemSize} {w : Wide} (ha : s.sourceWord addr = a)
    (hw : s.mem.read a.toNat n.bytes = w) : runOp s (.memRead addr n) = .ok { s with memData := w } := by
  rw [runOp, ha, hw]

/-- Settles O55: the laws of `Memory.write`, and an address that means the same before and after the write. -/
theorem storeReadsBackWhatWasWritten : Obligations.StoreReadsBackWhatWasWritten := by
  unfold Obligations.StoreReadsBackWhatWasWritten
  intro s addr v n hm
  have ha : (s.sourceWord addr).toNat < 2 ^ 64 := BitVec.isLt _
  have hread : (s.mem.write (s.sourceWord addr).toNat n.bytes (s.sourceValue v)).read (s.sourceWord addr).toNat n.bytes =
      s.sourceValue v % 2 ^ (8 * n.bytes) := by
    rw [Memory.read_write hm ha (memSize_bytes_le n), pow_mul]
    norm_num
  exact ⟨_, rfl, rfl, Memory.wf_write hm ha, hread, fun k hk => Memory.byte_write hm ha hk (memSize_bytes_le n),
    fun b hb => Memory.byte_write_other hb, runOp_memRead (State.sourceWord_withMem s _ addr) hread⟩

end Sys2Proof.Machine
end

section
/-!
SUPPORT. The rows of 30_encoding R77 and the round trip of decoder and encoder: a word in a row decodes to the row's operation
with the word's fields as operands, and a word that decodes is put together from the operation it decodes to.
-/

namespace Sys2Proof

/-! ### The fields of a word in a row -/

/-- The class bits of a row's match value (30_encoding R77). -/
def Instr.rowClass : Instr → BitVec 2
  | .csrFieldRead _ _ => 3#2
  | .csrFieldWrite _ _ => 3#2
  | _ => 0#2

theorem Cw.op_rowMatch (i : Instr) : Cw.op i.rowMatch = i.op := by
  cases i <;> simp only [Instr.rowMatch, Instr.op] <;> decide

theorem Cw.cls_rowMatch (i : Instr) : Cw.cls i.rowMatch = i.rowClass := by
  cases i <;> simp only [Instr.rowMatch, Instr.rowClass] <;> decide

theorem Cw.fid_rowMatch (i : Instr) : Cw.fid i.rowMatch = 0#6 := by
  cases i <;> simp only [Instr.rowMatch] <;> decide

theorem Cw.low_rowMatch (i : Instr) : Cw.low i.rowMatch = 0#4 := by
  cases i <;> simp only [Instr.rowMatch] <;> decide

/-- Bits that the mask holds whole are those of the match value. -/
theorem extractLsb'_of_masked {cw m v : CmdWord} (h : cw &&& m = v) {start len : Nat}
    (hm : m.extractLsb' start len = BitVec.allOnes len) : cw.extractLsb' start len = v.extractLsb' start len := by
  rw [← h, BitVec.extractLsb'_and, hm, BitVec.and_allOnes]

/-- Every row fixes the operation code (30_encoding R72, R77). -/
theorem Cw.op_of_row {cw : CmdWord} {i : Instr} (h : cw &&& i.rowMask = i.rowMatch) : Cw.op cw = i.op :=
  (extractLsb'_of_masked h (by cases i <;> simp only [Instr.rowMask] <;> decide)).trans (Cw.op_rowMatch i)

/-- Every row fixes the low four bits at zero (30_encoding R73, R77). -/
theorem Cw.low_of_row {cw : CmdWord} {i : Instr} (h : cw &&& i.rowMask = i.rowMatch) : Cw.low cw = 0#4 :=
  (extractLsb'_of_masked h (by cases i <;> simp only [Instr.rowMask] <;> decide)).trans (Cw.low_rowMatch i)

/-- The mask of format R fixes the field id. -/
theorem Cw.fid_of_maskR {cw v : CmdWord} (h : cw &&& 0xFF0003FF#32 = v) : Cw.fid cw = Cw.fid v :=
  extractLsb'_of_masked h (by decide)

/-- The mask of format F fixes the class. -/
theorem Cw.cls_of_maskF {cw v : CmdWord} (h : cw &&& 0xFFC0000F#32 = v) : Cw.cls cw = Cw.cls v :=
  extractLsb'_of_masked h (by decide)

/-- The mask of format C fixes the class and the field id. -/
theorem Cw.cls_fid_of_maskC {cw v : CmdWord} (h : cw &&& 0xFFC003FF#32 = v) :
    Cw.cls cw = Cw.cls v ∧ Cw.fid cw = Cw.fid v :=
  ⟨extractLsb'_of_masked h (by decide), extractLsb'_of_masked h (by decide)⟩

/-- The mask of format N fixes every bit. -/
theorem eq_of_maskN {cw v : CmdWord} (h : cw &&& 0xFFFFFFFF#32 = v) : cw = v :=
  (BitVec.and_allOnes (x := cw)).symm.trans h

/-! ### Decoding a word in a row -/

/-- The operation of `i`'s row whose operands are the fields of a word (30_encoding R73). -/
def Instr.withFields (i : Instr) (cw : CmdWord) : Instr :=
  match i with
  | .rfRead _ _ => .rfRead (RegClass.ofCode (Cw.cls cw)) (Cw.idx cw).toNat
  | .rfWrite _ _ => .rfWrite (RegClass.ofCode (Cw.cls cw)) (Cw.idx cw).toNat
  | .rfReadDirect _ _ => .rfReadDirect (RegClass.ofCode (Cw.cls cw)) (Cw.idx cw).toNat
  | .rfWriteDirect _ _ => .rfWriteDirect (RegClass.ofCode (Cw.cls cw)) (Cw.idx cw).toNat
  | .csrFieldRead _ _ => .csrFieldRead (Cw.idx cw).toNat (Cw.fid cw).toNat
  | .csrFieldWrite _ _ => .csrFieldWrite (Cw.idx cw).toNat (Cw.fid cw).toNat
  | .engRunGroup => .engRunGroup
  | .engResume => .engResume
  | .xltRequest => .xltRequest
  | .xltResolve => .xltResolve
  | .xltResult => .xltResult
  | .xltPopResult => .xltPopResult
  | .trapSetFault _ => .trapSetFault (Cw.idx cw).toNat
  | .trapSetInterrupt _ => .trapSetInterrupt (Cw.idx cw).toNat
  | .trapDeliver => .trapDeliver

theorem Instr.op_withFields (i : Instr) (cw : CmdWord) : (i.withFields cw).op = i.op := by cases i <;> rfl

/-- A word in a row decodes to the row's operation, its operands the fields of the word (30_encoding R73, R77): the operation
code selects the format, and the row fixes what that format asks to be fixed. -/
theorem decode_of_row {cw : CmdWord} {i : Instr} (h : cw &&& i.rowMask = i.rowMatch) :
    decode cw = .ok (i.withFields cw) := by
  have hlow := Cw.low_of_row h
  unfold decode
  rw [Cw.op_of_row h]
  cases i with
  | rfRead | rfWrite | rfReadDirect | rfWriteDirect =>
    exact decodeR_ok.2 ⟨hlow, (Cw.fid_of_maskR h).trans (Cw.fid_rowMatch _), rfl⟩
  | csrFieldRead | csrFieldWrite => exact decodeF_ok.2 ⟨hlow, (Cw.cls_of_maskF h).trans (Cw.cls_rowMatch _), rfl⟩
  | trapSetFault | trapSetInterrupt =>
    obtain ⟨hcls, hfid⟩ := Cw.cls_fid_of_maskC h
    exact decodeC_ok.2 ⟨hlow, hcls.trans (Cw.cls_rowMatch _), hfid.trans (Cw.fid_rowMatch _), rfl⟩
  | engRunGroup | engResume | xltRequest | xltResolve | xltResult | xltPopResult | trapDeliver =>
    rw [eq_of_maskN h]
    rfl

/-- The word of every operation lies in its row (30_encoding R77). -/
theorem encode_row (i : Instr) : encode i &&& i.rowMask = i.rowMatch := by
  cases i with
  | rfRead c n => exact Laws.RowMatch.rfRead c n
  | rfWrite c n => exact Laws.RowMatch.rfWrite c n
  | rfReadDirect c n => exact Laws.RowMatch.rfReadDirect c n
  | rfWriteDirect c n => exact Laws.RowMatch.rfWriteDirect c n
  | csrFieldRead n k => exact Laws.RowMatch.csrFieldRead n k
  | csrFieldWrite n k => exact Laws.RowMatch.csrFieldWrite n k
  | engRunGroup => exact Laws.RowMatch.engRunGroup
  | engResume => exact Laws.RowMatch.engResume
  | xltRequest => exact Laws.RowMatch.xltRequest
  | xltResolve => exact Laws.RowMatch.xltResolve
  | xltResult => exact Laws.RowMatch.xltResult
  | xltPopResult => exact Laws.RowMatch.xltPopResult
  | trapSetFault c => exact Laws.RowMatch.trapSetFault c
  | trapSetInterrupt c => exact Laws.RowMatch.trapSetInterrupt c
  | trapDeliver => exact Laws.RowMatch.trapDeliver

/-! ### The round trip -/

/-- An index or a cause that fits its twelve bits is read back from the word (30_encoding R73). -/
theorem Cw.idx_cmdWord_toNat (op : BitVec 8) (cls : BitVec 2) (fid : Nat) {n : Nat} (h : n < 4096) :
    (Cw.idx (cmdWord op cls n fid)).toNat = n := by
  rw [Cw.idx_cmdWord, BitVec.toNat_ofNat, Nat.mod_eq_of_lt h]

/-- A field id that fits its six bits is read back from the word (30_encoding R73). -/
theorem Cw.fid_cmdWord_toNat (op : BitVec 8) (cls : BitVec 2) (idx : Nat) {k : Nat} (h : k < 64) :
    (Cw.fid (cmdWord op cls idx k)).toNat = k := by
  rw [Cw.fid_cmdWord, BitVec.toNat_ofNat, Nat.mod_eq_of_lt h]

/-- The fields of the word of a well-formed operation are its operands (30_encoding R73). -/
theorem Instr.withFields_encode {i : Instr} (h : i.wf = true) : i.withFields (encode i) = i := by
  cases i with
  | rfRead c n | rfWrite c n | rfReadDirect c n | rfWriteDirect c n =>
    have hn : n < 4096 := of_decide_eq_true h
    simp only [encode, Instr.withFields, Cw.cls_cmdWord, RegClass.ofCode_code, Cw.idx_cmdWord_toNat _ _ _ hn]
  | csrFieldRead n k | csrFieldWrite n k =>
    obtain ⟨hn, hk⟩ : n < 4096 ∧ k < 64 := by simpa [Instr.wf] using h
    simp only [encode, Instr.withFields, Cw.idx_cmdWord_toNat _ _ _ hn, Cw.fid_cmdWord_toNat _ _ _ hk]
  | trapSetFault n | trapSetInterrupt n =>
    have hn : n < 4096 := of_decide_eq_true h
    simp only [encode, Instr.withFields, Cw.idx_cmdWord_toNat _ _ _ hn]
  | engRunGroup | engResume | xltRequest | xltResolve | xltResult | xltPopResult | trapDeliver => rfl

/-- The word of an operation lies in the operation's row, so it decodes to that row's operation with the fields it was made
of. -/
theorem decode_encode {i : Instr} (h : i.wf = true) : decode (encode i) = .ok i := by
  rw [decode_of_row (encode_row i), Instr.withFields_encode h]

/-- Settles O1: `decode_encode`. -/
theorem decodeInvertsEncode : Obligations.DecodeInvertsEncode := by
  unfold Obligations.DecodeInvertsEncode
  intro i hi
  exact decode_encode hi

/-- The low four bits of a word that decodes are zero, so it is its fields put together, and each field that its format does
not carry has the one value the encoder writes there (30_encoding R73). -/
theorem encode_of_decode {cw : CmdWord} {i : Instr} (h : decode cw = .ok i) : encode i = cw ∧ i.wf = true := by
  obtain ⟨hlow, hop, hfields⟩ := decode_ok h
  have hcw := cmdWord_fields hlow
  rw [hop] at hcw
  cases i with
  | rfRead c n | rfWrite c n | rfReadDirect c n | rfWriteDirect c n =>
    obtain ⟨hfid, rfl, rfl⟩ := hfields
    rw [hfid] at hcw
    exact ⟨by rw [encode, RegClass.code_ofCode]; exact hcw, decide_eq_true (BitVec.isLt _)⟩
  | csrFieldRead n k | csrFieldWrite n k =>
    obtain ⟨hcls, rfl, rfl⟩ := hfields
    rw [hcls] at hcw
    exact ⟨hcw, Bool.and_eq_true_iff.2 ⟨decide_eq_true (BitVec.isLt _), decide_eq_true (BitVec.isLt _)⟩⟩
  | trapSetFault n | trapSetInterrupt n =>
    obtain ⟨hcls, hfid, rfl⟩ := hfields
    rw [hcls, hfid] at hcw
    exact ⟨hcw, decide_eq_true (BitVec.isLt _)⟩
  | engRunGroup | engResume | xltRequest | xltResolve | xltResult | xltPopResult | trapDeliver =>
    obtain ⟨hcls, hfid, hidx⟩ := hfields
    rw [hcls, hfid, hidx] at hcw
    exact ⟨hcw, rfl⟩

/-- Settles O2: `encode_of_decode`. -/
theorem encodeInvertsDecode : Obligations.EncodeInvertsDecode := by
  unfold Obligations.EncodeInvertsDecode
  intro cw i h
  exact encode_of_decode h

/-! ### The rows told apart -/

/-- A word that decodes lies in the row of what it decodes to (30_encoding R77). -/
theorem row_of_decode {cw : CmdWord} {i : Instr} (h : decode cw = .ok i) : cw &&& i.rowMask = i.rowMatch := by
  obtain ⟨henc, -⟩ := encode_of_decode h
  rw [← henc, encode_row]

/-- Settles O3: rows are told apart by the operation code, which each of them fixes; the masks and match values are evaluated. -/
theorem decodeSelectsTheMatchingRow : Obligations.DecodeSelectsTheMatchingRow := by
  unfold Obligations.DecodeSelectsTheMatchingRow
  refine ⟨fun _ _ => row_of_decode, fun cw i h => ⟨i.withFields cw, decode_of_row h, i.op_withFields cw⟩,
    fun _ _ _ hi hj => (Cw.op_of_row hi).symm.trans (Cw.op_of_row hj), fun _ _ => ⟨rfl, rfl, rfl, rfl⟩,
    fun _ _ => ⟨rfl, rfl⟩, fun _ => ⟨rfl, rfl⟩, by decide, ?_⟩
  intro i
  cases i <;> simp [Instr.rowMatch, Instr.op]

/-- Settles O4: each word is evaluated; a reserved one decodes to no operation. -/
theorem decodeReadsTheSpecsWords : Obligations.DecodeReadsTheSpecsWords := by
  unfold Obligations.DecodeReadsTheSpecsWords
  refine ⟨rfl, rfl, rfl, rfl, rfl, rfl, rfl, rfl, rfl, rfl, rfl, rfl, rfl, rfl, rfl, rfl, rfl, rfl, ?_⟩
  intro cw hcw i h
  simp only [List.mem_cons, List.not_mem_nil, or_false] at hcw
  rcases hcw with rfl | rfl | rfl | rfl | rfl | rfl | rfl <;> cases h

end Sys2Proof
end

section
/-!
SUPPORT. Command words on the two ports (30_encoding R70, R71, R78): the command port performs or refuses the word that waits
first, and the internal port does the same work.
-/

namespace Sys2Proof.Machine

/-! ### A command on the port -/

theorem step_of_decode {s : State} {c : Command} {rest : List Input} {i : Instr} (hs : s.inputs = .command c :: rest)
    (hd : decode c.cw = .ok i) : step s = exec i (s.accept c rest) := by
  simp only [step, hs, stepCommand, hd]

/-- Settles O5: the state of the statement is `State.accept`, written out. -/
theorem stepRunsTheDecodedCommand : Obligations.StepRunsTheDecodedCommand := by
  unfold Obligations.StepRunsTheDecodedCommand
  intro s c rest i hs hd
  exact step_of_decode hs hd

/-- A word in no row is refused with F_BAD_COMMAND (30_encoding R78). -/
theorem step_of_reserved {s : State} {c : Command} {rest : List Input} (hf : s.fatal = none)
    (hs : s.inputs = .command c :: rest) (hr : ∀ i : Instr, c.cw &&& i.rowMask ≠ i.rowMatch) :
    step s = .next ((s.accept c rest).latch .badCommand) := by
  cases hd : decode c.cw with
  | ok i => exact absurd (row_of_decode hd) (hr i)
  | error e =>
    simp only [step, hs, stepCommand, hd]
    exact command_of_fatal (s := s.accept c rest) hf rfl

/-- No register of the integer, floating-point and vector classes has an index above 31 (40_regfile R91, R93, R95, R97). -/
theorem readReg_badIndex {cls : RegClass} {n : Nat} (s : State) (hc : cls ≠ .csr) (hn : 31 < n) :
    s.readReg cls n = .error .badRegIndex := by
  cases cls with
  | int | fp | vec => exact if_pos hn
  | csr => exact absurd rfl hc

theorem writeReg_badIndex {cls : RegClass} {n : Nat} (s : State) (store : State → CsrDesc → Word → State) (w : Wide)
    (hc : cls ≠ .csr) (hn : 31 < n) : s.writeReg store cls n w = .error .badRegIndex := by
  cases cls with
  | int | fp | vec => exact if_pos hn
  | csr => exact absurd rfl hc

/-- The four operations on a register refuse such an index (30_encoding R78). -/
theorem exec_badIndex {s : State} {cls : RegClass} {n : Nat} (hs : s.fatal = none) (hc : cls ≠ .csr) (hn : 31 < n) {i : Instr}
    (hi : i ∈ [Instr.rfRead cls n, .rfWrite cls n, .rfReadDirect cls n, .rfWriteDirect cls n]) :
    exec i s = .next (s.latch .badRegIndex) := by
  have hread : opRead cls n s = .fatal .badRegIndex := by simp only [opRead, readReg_badIndex s hc hn]
  simp only [List.mem_cons, List.not_mem_nil, or_false] at hi
  rcases hi with rfl | rfl | rfl | rfl
  · exact command_of_fatal hs hread
  · exact command_of_fatal hs (by simp only [opWrite, writeReg_badIndex s _ _ hc hn])
  · exact command_of_fatal hs hread
  · exact command_of_fatal hs (by simp only [opWriteDirect, writeReg_badIndex s _ _ hc hn])

/-- Settles O6: a word that decodes would lie in a row; an operation's word lies in its row whatever its operands, and the
operation tests the index or the cause first. -/
theorem reservedWordsAreFatal : Obligations.ReservedWordsAreFatal := by
  unfold Obligations.ReservedWordsAreFatal
  refine ⟨fun s c rest => step_of_reserved, ?_, ?_⟩
  · intro s cls n hs hc hn _ i hi
    exact ⟨encode_row i, exec_badIndex hs hc hn hi⟩
  · intro s n hs _
    exact ⟨fun hn => ⟨encode_row _, command_of_fatal hs (if_pos hn)⟩,
      fun hn => ⟨encode_row _, command_of_fatal hs (if_pos hn)⟩⟩

/-! ### The internal port -/

/-- The operand buses of the command port, written. -/
def State.withBus (s : State) (b : Bus) : State := { s with bus := b }

@[simp] theorem State.withBus_cfg (s : State) (b : Bus) : (s.withBus b).cfg = s.cfg := rfl
@[simp] theorem State.withBus_xp (s : State) (b : Bus) : (s.withBus b).xp = s.xp := rfl
@[simp] theorem State.withBus_trap (s : State) (b : Bus) : (s.withBus b).trap = s.trap := rfl
@[simp] theorem State.withBus_readReg (s : State) (b : Bus) (cls : RegClass) (idx : Nat) :
    (s.withBus b).readReg cls idx = s.readReg cls idx := by cases cls <;> rfl

/-- What an operation ends in, with the operand buses of the command port written. -/
def OpResult.withBus (b : Bus) : OpResult → OpResult
  | .ok s r => .ok (s.withBus b) r
  | .fatal c => .fatal c

theorem State.withBus_setIntCell (s : State) (b : Bus) (idx : Nat) (w : Word) :
    (s.withBus b).setIntCell idx w = (s.setIntCell idx w).withBus b := by
  unfold State.setIntCell
  split <;> rfl

/-- A register write takes its data from its own port, if its CSR write does. -/
theorem State.withBus_writeReg (s : State) (b : Bus) {store : State → CsrDesc → Word → State}
    (hst : ∀ d w, store (s.withBus b) d w = (store s d w).withBus b) (cls : RegClass) (idx : Nat) (w : Wide) :
    (s.withBus b).writeReg store cls idx w = (s.writeReg store cls idx w).map (·.withBus b) := by
  cases cls with
  | int =>
    simp only [State.writeReg, State.withBus_setIntCell]
    split <;> rfl
  | fp | vec =>
    simp only [State.writeReg]
    split <;> rfl
  | csr =>
    simp only [State.writeReg, State.withBus_cfg]
    cases s.cfg.desc idx with
    | none => rfl
    | some d => exact congrArg Except.ok (hst d _)

theorem State.withBus_deliver (s : State) (b : Bus) (t : TrapNames) (isIntr : Bool) (c : Nat) :
    (s.withBus b).deliver t isIntr c = (s.deliver t isIntr c).withBus b := by
  rcases s.trapTarget_cases t isIntr c with h | h
  · rw [State.deliver_machine h, State.deliver_machine (s := s.withBus b) h]; rfl
  · rw [State.deliver_supervisor h, State.deliver_supervisor (s := s.withBus b) h]; rfl

theorem opDeliverCause_withBus (s : State) (b : Bus) (isIntr : Bool) (c : Nat) :
    opDeliverCause isIntr c (s.withBus b) = (opDeliverCause isIntr c s).withBus b := by
  simp only [opDeliverCause, State.withBus_cfg, State.withBus_deliver]
  cases s.cfg.trapNames <;> rfl

theorem opDeliver_withBus (s : State) (b : Bus) : opDeliver (s.withBus b) = (opDeliver s).withBus b := by
  simp only [opDeliver, State.withBus_trap, opDeliverCause_withBus]
  cases s.trap.pendFault <;> cases s.trap.pendIntr <;> rfl

/-- An operation of a port takes its operands from the buses of that port alone: those of the command port are neither read nor
written (30_encoding R70). -/
theorem portOp_withBus (i : Instr) (s : State) (b b' : Bus) :
    portOp i b (s.withBus b') = (portOp i b s).map (OpResult.withBus b') := by
  cases i with
  | rfRead c n | rfReadDirect c n =>
    simp only [portOp, opRead, State.withBus_readReg]
    cases s.readReg c n <;> rfl
  | rfWrite c n =>
    simp only [portOp, opWrite, s.withBus_writeReg b' (store := State.csrWrite) fun _ _ => rfl]
    cases s.writeReg State.csrWrite c n b.wdata <;> rfl
  | rfWriteDirect c n =>
    simp only [portOp, opWriteDirect, s.withBus_writeReg b' (store := State.csrStore) fun _ _ => rfl]
    cases s.writeReg State.csrStore c n b.wdata <;> rfl
  | csrFieldRead n k =>
    simp only [portOp, opFieldRead, State.withBus_cfg]
    cases s.cfg.findField n k <;> rfl
  | csrFieldWrite n k =>
    simp only [portOp, opFieldWrite, State.withBus_cfg]
    cases s.cfg.findField n k <;> rfl
  | engRunGroup | engResume => rfl
  | xltRequest =>
    simp only [portOp, opRequest, State.withBus_xp]
    cases s.xp.state <;> rfl
  | xltResolve =>
    simp only [portOp, opResolve, State.withBus_xp]
    cases s.xp.state <;> rfl
  | xltResult =>
    simp only [portOp, opResult, State.withBus_xp]
    cases s.xp.state <;> rfl
  | xltPopResult =>
    simp only [portOp, opPopResult, State.withBus_xp]
    cases s.xp.state <;> rfl
  | trapSetFault c =>
    simp only [portOp, opSetFault, State.withBus_cfg, State.withBus_trap, Option.map_some, apply_ite (OpResult.withBus b')]
    rfl
  | trapSetInterrupt c =>
    simp only [portOp, opSetInterrupt, State.withBus_cfg, State.withBus_trap, Option.map_some, apply_ite (OpResult.withBus b')]
    rfl
  | trapDeliver => exact congrArg some (opDeliver_withBus s b')

theorem issue_of_decode {cw : CmdWord} {i : Instr} {b : Bus} {s : State} {o : OpResult} (hd : decode cw = .ok i)
    (ho : portOp i b s = some o) : issue cw b s = answer s o := by
  simp only [issue, hd, ho]

theorem issue_of_reserved {cw : CmdWord} (h : ∀ i, decode cw ≠ .ok i) (b : Bus) (s : State) :
    issue cw b s = .fatal { s with iresp := Response.ofFatal .badCommand } .badCommand := by
  cases hd : decode cw with
  | ok i => exact absurd hd (h i)
  | error e => simp only [issue, hd, answer]

/-- The operation on the internal port, from how it ends on the command port with the same operands: the one work of
`portOp`, answered on the other buses (30_encoding R70). -/
theorem issue_of_exec {s t : State} {cw : CmdWord} {i : Instr} {b : Bus} (hd : decode cw = .ok i) (he : isEngineOp i = false)
    (hs : s.fatal = none) (h : exec i (s.withBus b) = .next t) :
    (t.fatal = none ∧ issue cw b s = .ok { t with bus := s.bus, resp := s.resp, iresp := t.resp }) ∨
    (∃ c, t.fatal = some c ∧ issue cw b s = .fatal { s with iresp := t.resp } c) := by
  obtain ⟨o, ho⟩ := Option.ne_none_iff_exists'.1 (show portOp i b s ≠ none by simp [portOp_none, he])
  have hwork : portOp i b (s.withBus b) = some (o.withBus b) := by rw [portOp_withBus, ho, Option.map_some]
  rw [issue_of_decode hd ho]
  rcases exec_portOp_cases (s := s.withBus b) he hs h with ⟨u, r, hu, rfl⟩ | ⟨c, hc, rfl⟩
  · have hb := Option.some.inj (hwork.symm.trans hu)
    cases o with
    | fatal c => cases hb
    | ok v r' =>
      cases hb
      have hframe := portOp_frame ho
      refine .inl ⟨hframe.fatal.trans hs, ?_⟩
      rw [← hframe.bus, ← hframe.resp]
      rfl
  · have hb := Option.some.inj (hwork.symm.trans hc)
    cases o with
    | ok v r => cases hb
    | fatal c' => cases hb; exact .inr ⟨c, rfl, rfl⟩

/-- Settles O42: both ports do the work of `portOp`, which does not look at the command port's buses. -/
theorem internalPortMeansTheSame : Obligations.InternalPortMeansTheSame := by
  unfold Obligations.InternalPortMeansTheSame
  refine ⟨?_, fun s cw b h => issue_of_reserved h b s⟩
  intro s t cw i b hd he hs h
  rcases issue_of_exec hd he hs h with ⟨hok, hissue⟩ | ⟨c, hfatal, hissue⟩
  · exact ⟨fun _ => hissue, fun c hc => by cases hok.symm.trans hc⟩
  · exact ⟨fun hn => (by cases hfatal.symm.trans hn), fun c' hc => by cases hfatal.symm.trans hc; exact hissue⟩

end Sys2Proof.Machine
end

section
/-!
SUPPORT. The Register File's reads and writes cell by cell (40_regfile R90 to R97), and what each family of operations leaves
alone (40_regfile R94, 44_trap_ops R185, 10_state R27, 20_memory R50).
-/

namespace Sys2Proof.Machine

/-! ### What each family writes -/

/-- An operation that is not the Engine's is refused or latched, which writes the latch and the answer alone, or is answered
after its work on the port (00_scope R7, 30_encoding R70). -/
theorem exec_port_end {i : Instr} {s t : State} (he : isEngineOp i = false) (h : exec i s = .next t) :
    (∃ latch r, t = { s with fatal := latch, resp := r }) ∨
    (∃ u r, portOp i s.bus s = some (.ok u r) ∧ t = { u with resp := r }) := by
  cases hf : s.fatal with
  | some c => rw [exec_refused hf] at h; cases h; exact .inl ⟨s.fatal, _, rfl⟩
  | none =>
    rcases exec_portOp_cases he hf h with ⟨u, r, hu, rfl⟩ | ⟨c, -, rfl⟩
    · exact .inr ⟨u, r, hu, rfl⟩
    · exact .inl ⟨some c, _, rfl⟩

/-- Settles O53: a refusal or a fatal writes the latch and the answer alone; what a successful operation writes is said by the
lemma on its work. -/
theorem eachFamilyWritesItsOwnUnit : Obligations.EachFamilyWritesItsOwnUnit := by
  unfold Obligations.EachFamilyWritesItsOwnUnit
  simp only [List.mem_cons, List.not_mem_nil, or_false]
  intro s t
  refine ⟨fun c n i hi h => ?_, fun n k h => ?_, fun c n k i hi h => ?_, fun i hi h => ?_, fun c i hi h => ?_, fun h => ?_⟩
  · obtain ⟨_, _, rfl⟩ | ⟨u, r, hu, rfl⟩ := exec_port_end (by rcases hi with rfl | rfl <;> rfl) h
    · rfl
    · rcases hi with rfl | rfl
      · rw [opWrite_ok (Option.some.inj hu)]
      · rw [opWriteDirect_ok (Option.some.inj hu)]
  · obtain ⟨_, _, rfl⟩ | ⟨u, r, hu, rfl⟩ := exec_port_end rfl h
    · rfl
    · rw [opFieldWrite_ok (Option.some.inj hu)]
  · obtain ⟨_, _, rfl⟩ | ⟨u, r, hu, rfl⟩ := exec_port_end (by rcases hi with rfl | rfl | rfl <;> rfl) h
    · rfl
    · rcases hi with rfl | rfl | rfl
      · rw [opRead_ok (Option.some.inj hu)]
      · rw [opRead_ok (Option.some.inj hu)]
      · rw [opFieldRead_ok (Option.some.inj hu)]
  · obtain ⟨_, _, rfl⟩ | ⟨u, r, hu, rfl⟩ := exec_port_end (by rcases hi with rfl | rfl | rfl | rfl <;> rfl) h
    · rfl
    · rcases hi with rfl | rfl | rfl | rfl
      · obtain ⟨-, -, rfl⟩ := opRequest_ok (Option.some.inj hu); rfl
      · obtain ⟨-, -, rfl⟩ := opResolve_ok (Option.some.inj hu); rfl
      · obtain ⟨-, -, rfl⟩ := opResult_ok (Option.some.inj hu); rfl
      · obtain ⟨-, -, rfl⟩ := opPopResult_ok (Option.some.inj hu); rfl
  · obtain ⟨_, _, rfl⟩ | ⟨u, r, hu, rfl⟩ := exec_port_end (by rcases hi with rfl | rfl <;> rfl) h
    · rfl
    · rcases hi with rfl | rfl
      · obtain ⟨-, -, -, -, rfl⟩ := opSetFault_ok (Option.some.inj hu); rfl
      · obtain ⟨-, -, -, -, rfl⟩ := opSetInterrupt_ok (Option.some.inj hu); rfl
  · obtain ⟨_, _, rfl⟩ | ⟨u, r, hu, rfl⟩ := exec_port_end rfl h
    · rfl
    · rw [opDeliver_frame (Option.some.inj hu)]

/-! ### Registers read -/

section
variable (s : State)

theorem readReg_int (i : Fin 31) : s.readReg .int (i + 1) = .ok (s.x[i]).toNat := by
  have hi : ¬ (i : Nat) + 1 > 31 := by omega
  simp [State.readReg, State.intCell, hi]

theorem readReg_fp (i : Fin 32) : s.readReg .fp i = .ok s.f[i] := by
  have hi : ¬ (i : Nat) > 31 := by omega
  simp [State.readReg, State.fpCell, hi]

theorem readReg_vec (i : Fin 32) : s.readReg .vec i = .ok s.v[i] := by
  have hi : ¬ (i : Nat) > 31 := by omega
  simp [State.readReg, State.vecCell, hi]

end

/-- Settles O11: both reads answer `State.readReg`, class by class. -/
theorem readsAnswerTheRegister : Obligations.ReadsAnswerTheRegister := by
  unfold Obligations.ReadsAnswerTheRegister
  intro s hs op hop
  refine ⟨?_, fun i => ?_, fun i => ?_, fun i => ?_, fun n d hd => ?_⟩
  · exact exec_read (v := 0) hs rfl hop
  · exact exec_read hs (readReg_int s i) hop
  · exact exec_read hs (readReg_fp s i) hop
  · exact exec_read hs (readReg_vec s i) hop
  · have hcsr := readReg_csr hd
    rw [Config.desc_number hd] at hcsr
    exact exec_read hs hcsr hop

/-! ### Registers written -/

theorem setIfInBounds_eq_set {α : Type} {n : Nat} (cells : Vector α n) (i : Fin n) (a : α) :
    cells.setIfInBounds i a = cells.set i a := by
  ext j hj
  rw [Vector.getElem_setIfInBounds hj, Vector.getElem_set i.isLt hj]

section
variable (s : State) (store : State → CsrDesc → Word → State) (w : Wide)

theorem writeReg_int (i : Fin 31) : s.writeReg store .int (i + 1) w =
    .ok { s with x := s.x.set i (BitVec.ofNat 64 (w % 2 ^ s.cfg.xlen.bits)) } := by
  have hi : ¬ (i : Nat) + 1 > 31 := by omega
  simp [State.writeReg, State.setIntCell, hi, wordOf_eq_ofNat, setIfInBounds_eq_set]

theorem writeReg_fp (i : Fin 32) : s.writeReg store .fp i w = .ok { s with f := s.f.set i (w % 2 ^ s.cfg.flen) } := by
  have hi : ¬ (i : Nat) > 31 := by omega
  simp [State.writeReg, State.setFpCell, hi, truncWide, setIfInBounds_eq_set]

theorem writeReg_vec (i : Fin 32) : s.writeReg store .vec i w = .ok { s with v := s.v.set i (w % 2 ^ s.cfg.vlen) } := by
  have hi : ¬ (i : Nat) > 31 := by omega
  simp [State.writeReg, State.setVecCell, hi, truncWide, setIfInBounds_eq_set]

end

/-- Settles O13: on these classes both writes are `State.writeReg`, whatever the way of storing a CSR. -/
theorem writesStoreTheLowBits : Obligations.WritesStoreTheLowBits := by
  unfold Obligations.WritesStoreTheLowBits
  intro s hs op hop
  refine ⟨fun i => ?_, fun i => ?_, fun i => ?_⟩
  · exact exec_write hs (fun store => writeReg_int s store _ i) hop
  · exact exec_write hs (fun store => writeReg_fp s store _ i) hop
  · exact exec_write hs (fun store => writeReg_vec s store _ i) hop

/-- Settles O14: the direct write is the raw store, which meets no mask, into the cell of the descriptor found. -/
theorem directCsrWriteBypassesTheMask : Obligations.DirectCsrWriteBypassesTheMask := by
  unfold Obligations.DirectCsrWriteBypassesTheMask
  intro s n d hs hd
  refine ⟨_, exec_writeDirect_csr hs hd, rfl, ?_, fun k hk => ?_, rfl⟩
  · rw [State.respond_csr, State.csrStore, Config.desc_number hd, CsrFile.get_set_same, wordOf_eq_ofNat]
  · rw [State.respond_csr, State.csrStore, Config.desc_number hd, CsrFile.get_set_other _ _ hk]

end Sys2Proof.Machine
end

section
/-!
SUPPORT. The CSR Registry (41_csr R112 to R122): the masked write and its laws, a field read and written bit by bit, and the
lookups that miss.
-/

namespace Sys2Proof.Machine

/-! ### The masked write -/

/-- Of two masked writes the first is lost (41_csr R114). -/
theorem maskedMerge_maskedMerge (m old v w : Word) : maskedMerge m (maskedMerge m old v) w = maskedMerge m old w := by
  apply BitVec.eq_of_getLsbD_eq
  intro k _
  simp only [getLsbD_maskedMerge]
  split <;> rfl

/-- What a CSR holds, written back, changes nothing (41_csr R114). -/
theorem maskedMerge_self (m old : Word) : maskedMerge m old old = old := by
  apply BitVec.eq_of_getLsbD_eq
  intro k _
  rw [getLsbD_maskedMerge, ite_self]

theorem wordOf_toNat_of_fits {x : XLen} {w : Word} (h : fits x w = true) : wordOf x w.toNat = w := by
  rw [wordOf, BitVec.ofNat_toNat, BitVec.setWidth_eq, trunc_of_fits h]

/-- A CSR holds XLEN bits wherever the invariant holds and nothing is latched. -/
theorem State.csr_fits_of_inv {s : State} (h : s.inv = true) (hs : s.fatal = none) (n : Nat) :
    fits s.cfg.xlen (s.csr.get n) = true :=
  (Sound.of_inv h hs).good.csr_fits n

section
variable {s : State} {n : Nat} {d : CsrDesc} (hd : s.cfg.desc n = some d)
include hd

/-- The masked write of a CSR of the table (40_regfile R93, 41_csr R112). -/
theorem exec_write_csr (hs : s.fatal = none) :
    exec (.rfWrite .csr n) s = .next ((s.csrWrite d (wordOf s.cfg.xlen s.bus.wdata)).respond Response.ok) :=
  command_of_ok hs (by simp only [opWrite, State.writeReg, hd])

theorem csrWrite_get_same (v : Word) : (s.csrWrite d v).csr.get n = maskedMerge d.mask (s.csr.get n) v := by
  rw [State.csrWrite_get, Config.desc_number hd, if_pos rfl]

theorem csrWrite_get_other (v : Word) : OtherCsrsKept s (s.csrWrite d v) n := by
  intro k hk
  rw [State.csrWrite_get, Config.desc_number hd, if_neg hk]

end

/-- Settles O15: both branches are the merge, since the old value and the new one fit in XLEN bits. -/
theorem maskedCsrWrite : Obligations.MaskedCsrWrite := by
  unfold Obligations.MaskedCsrWrite
  rintro s n d v hs hinv hd rfl
  refine ⟨_, exec_write_csr hd hs, rfl, ?_, ?_, csrWrite_get_other hd _, rfl⟩
  · rw [State.respond_csr, csrWrite_get_same hd, ← wordOf_eq_ofNat]
    split
    next hmask =>
      rw [hmask]
      exact maskedMerge_ones (State.csr_fits_of_inv hinv hs n) (fits_wordOf _ _)
    next => rfl
  · rw [State.respond_csr, csrWrite_get_same hd, ← wordOf_eq_ofNat, maskedMerge]

/-- The state after RF.WRITE of the CSR of `d` with `v` on the data bus. -/
def State.csrWritten (s : State) (d : CsrDesc) (v : Wide) : State :=
  ((s.withBus { s.bus with wdata := v }).csrWrite d (wordOf s.cfg.xlen v)).respond Response.ok

@[simp] theorem State.csrWritten_cfg (s : State) (d : CsrDesc) (v : Wide) : (s.csrWritten d v).cfg = s.cfg := rfl

section
variable {s : State} {n : Nat} {d : CsrDesc} (hd : s.cfg.desc n = some d)
include hd

theorem exec_write_csr_wdata (hs : s.fatal = none) (v : Wide) :
    exec (.rfWrite .csr n) { s with bus := { s.bus with wdata := v } } = .next (s.csrWritten d v) :=
  exec_write_csr (s := s.withBus { s.bus with wdata := v }) hd hs

theorem csrWritten_get (v : Wide) :
    (s.csrWritten d v).csr.get n = maskedMerge d.mask (s.csr.get n) (wordOf s.cfg.xlen v) :=
  csrWrite_get_same (s := s.withBus { s.bus with wdata := v }) hd _

theorem csrWritten_csrWritten_get (v w : Wide) :
    ((s.csrWritten d v).csrWritten d w).csr.get n = (s.csrWritten d w).csr.get n := by
  rw [csrWritten_get (s := s.csrWritten d v) hd, csrWritten_get hd, maskedMerge_maskedMerge, csrWritten_get hd,
    State.csrWritten_cfg]

/-- RF.READ of a CSR of the table (40_regfile R91). -/
theorem exec_read_csr (hs : s.fatal = none) :
    exec (.rfRead .csr n) s = .next (s.respond (Response.ofData (s.csr.get n).toNat)) := by
  have hread := readReg_csr hd
  rw [Config.desc_number hd] at hread
  exact exec_read (op := .rfRead) hs hread (List.mem_cons_self ..)

end

/-- Settles O16: each law is one of the merge, and every cell holds XLEN bits. -/
theorem maskedWriteLaws : Obligations.MaskedWriteLaws := by
  unfold Obligations.MaskedWriteLaws
  intro s n d a b hs hinv hd
  have hfits := State.csr_fits_of_inv hinv hs n
  have hget : ∀ v, (s.csrWritten d v).csr.get n =
      (s.csr.get n &&& ~~~d.mask) ||| (BitVec.ofNat 64 (v % 2 ^ s.cfg.xlen.bits) &&& d.mask) := fun v => by
    rw [csrWritten_get hd, wordOf_eq_ofNat, maskedMerge]
  refine ⟨s.csrWritten d a, _, (s.csrWritten d a).csrWritten d b, s.csrWritten d (s.csr.get n).toNat,
    exec_write_csr_wdata hd hs a, exec_read_csr (s := s.csrWritten d a) hd hs, ?_, fun hmask => ?_,
    exec_write_csr_wdata (s := s.csrWritten d a) hd hs b, ?_, fun hab => ?_, exec_write_csr_wdata hd hs _, ?_⟩
  · exact congrArg BitVec.toNat (hget a)
  · have hones : d.mask = ones s.cfg.xlen.bits := hmask
    have hval : (s.csrWritten d a).csr.get n = wordOf s.cfg.xlen a := by
      rw [csrWritten_get hd, hones, maskedMerge_ones hfits (fits_wordOf _ _)]
    exact (congrArg BitVec.toNat hval).trans (wordOf_toNat _ _)
  · rw [csrWritten_csrWritten_get hd, hget]
  · rw [csrWritten_csrWritten_get hd, hab]
  · rw [csrWritten_get hd, wordOf_toNat_of_fits hfits, maskedMerge_self]

/-! ### A field read and written -/

/-- Bit j of a field read: the raw value's bit counted from the low end (41_csr R116). -/
theorem getLsbD_fieldExtract (low high : Nat) (raw : Word) (j : Nat) :
    (fieldExtract low high raw).getLsbD j = (decide (j < fieldWidth low high) && raw.getLsbD (low + j)) := by
  simp only [fieldExtract, BitVec.getLsbD_and, BitVec.getLsbD_ushiftRight, getLsbD_ones]
  by_cases hj : j < 64
  · simp [hj, Bool.and_comm]
  · simp [hj, BitVec.getLsbD_of_ge raw (low + j) (by omega)]

/-- Bit j of a bus value cut to XLEN bits, below XLEN (40_regfile R90). -/
theorem getLsbD_wordOf {x : XLen} {j : Nat} (v : Wide) (hj : j < x.bits) : (wordOf x v).getLsbD j = v.testBit j := by
  rw [BitVec.getLsbD, wordOf_toNat, Nat.testBit_mod_two_pow, decide_eq_true hj, Bool.true_and]

section
variable {s : State} {n fid : Nat} {d : CsrDesc} {f : CsrField}

theorem findField_found (hd : s.cfg.desc n = some d) (hf : d.fields[fid]? = some f) : s.cfg.findField n fid = .ok (d, f) := by
  simp only [Config.findField, hd, hf]

/-- CSR.FIELD_READ of a field of the table (41_csr R117). -/
theorem exec_fieldRead (hs : s.fatal = none) (hd : s.cfg.desc n = some d) (hf : d.fields[fid]? = some f) :
    exec (.csrFieldRead n fid) s = .next (s.respond (Response.ofData (s.fieldRead d f).toNat)) :=
  command_of_ok hs (by simp only [opFieldRead, findField_found hd hf])

/-- CSR.FIELD_WRITE of a field of the table (41_csr R119). -/
theorem exec_fieldWrite (hs : s.fatal = none) (hd : s.cfg.desc n = some d) (hf : d.fields[fid]? = some f) :
    exec (.csrFieldWrite n fid) s =
      .next ((s.fieldWrite d f (wordOf s.cfg.xlen s.bus.wdata)).respond Response.ok) :=
  command_of_ok hs (by simp only [opFieldWrite, findField_found hd hf])

/-- Bit k of the CSR whose field a bus value was written to (41_csr R118, R119). -/
theorem fieldWrite_wordOf_bit (hc : s.cfg.ok = true) (hd : s.cfg.desc n = some d) (hf : d.fields[fid]? = some f) (v : Wide)
    (k : Nat) : ((s.fieldWrite d f (wordOf s.cfg.xlen v)).csr.get n).getLsbD k =
      if f.low ≤ k ∧ k ≤ f.high ∧ d.mask.getLsbD k = true then v.testBit (k - f.low) else (s.csr.get n).getLsbD k := by
  obtain ⟨hle, hhigh⟩ := Config.field_range hc (Config.desc_mem hd) (List.mem_of_getElem? hf)
  have hbits := xlen_bits_le s.cfg.xlen
  by_cases hk : k < 64
  · rw [State.fieldWrite_bit _ _ _ _ _ _ hk hle]
    by_cases hin : f.low ≤ k ∧ k ≤ f.high ∧ d.mask.getLsbD k = true
    · obtain ⟨hlow, hkh, hm⟩ := hin
      rw [if_pos ⟨(Config.desc_number hd).symm, hm, hlow, hkh⟩, if_pos ⟨hlow, hkh, hm⟩, getLsbD_wordOf v (by omega)]
    · rw [if_neg (fun ⟨_, hm, hlow, hkh⟩ => hin ⟨hlow, hkh, hm⟩), if_neg hin]
  · rw [if_neg (by omega), BitVec.getLsbD_of_ge _ _ (by omega), BitVec.getLsbD_of_ge _ _ (by omega)]

/-- Bit j of a field read back after it was written: the value's where the mask lets it through, else the old one (41_csr
R120). -/
theorem fieldRead_fieldWrite_bit (hc : s.cfg.ok = true) (hd : s.cfg.desc n = some d) (hf : d.fields[fid]? = some f) (v : Wide)
    (j : Nat) : ((s.fieldWrite d f (wordOf s.cfg.xlen v)).fieldRead d f).getLsbD j =
      (decide (j < fieldWidth f.low f.high) &&
        if d.mask.getLsbD (f.low + j) = true then v.testBit j else (s.csr.get n).getLsbD (f.low + j)) := by
  obtain ⟨hle, -⟩ := Config.field_range hc (Config.desc_mem hd) (List.mem_of_getElem? hf)
  rw [State.fieldRead, getLsbD_fieldExtract, Config.desc_number hd, fieldWrite_wordOf_bit hc hd hf]
  by_cases hj : j < fieldWidth f.low f.high
  · have hin : f.low + j ≤ f.high := by unfold fieldWidth at hj; omega
    simp [hj, hin]
  · simp [hj]

end

/-- Settles O18, by the CSR's bits after the field write. -/
theorem fieldWriteChangesItsWritableBits : Obligations.FieldWriteChangesItsWritableBits := by
  unfold Obligations.FieldWriteChangesItsWritableBits
  intro s n fid d f hs hc hd hf
  refine ⟨_, exec_fieldWrite hs hd hf, rfl, fieldWrite_wordOf_bit hc hd hf _, fun k hk => ?_, rfl⟩
  rw [← Config.desc_number hd] at hk
  exact State.fieldWrite_other s d f _ hk

/-- Bit j of the answer to a field read that follows the field's write (41_csr R120). -/
theorem exec_fieldRoundTrip {s : State} {n fid : Nat} {d : CsrDesc} {f : CsrField} (hs : s.fatal = none)
    (hc : s.cfg.ok = true) (hd : s.cfg.desc n = some d) (hf : d.fields[fid]? = some f) :
    ∃ t r, exec (.csrFieldWrite n fid) s = .next t ∧ exec (.csrFieldRead n fid) t = .next r ∧
      t.csr = (s.fieldWrite d f (wordOf s.cfg.xlen s.bus.wdata)).csr ∧
      ∀ j, r.resp.rdata.testBit j = (decide (j < fieldWidth f.low f.high) &&
        if d.mask.getLsbD (f.low + j) = true then s.bus.wdata.testBit j else (s.csr.get n).getLsbD (f.low + j)) :=
  ⟨_, _, exec_fieldWrite hs hd hf, exec_fieldRead (s := State.respond _ _) hs hd hf, rfl,
    fieldRead_fieldWrite_bit hc hd hf s.bus.wdata⟩

/-- The read-back mixes old and new bits by the mask, as R120 writes it over the words. -/
theorem testBit_fieldMix (low w : Nat) (old m : Word) (v : Wide) (j : Nat) (hw : w ≤ 64) :
    ((((old >>> low) &&& ~~~(m >>> low)) ||| (BitVec.ofNat 64 (v % 2 ^ w) &&& (m >>> low))) &&&
      BitVec.ofNat 64 (2 ^ w - 1)).toNat.testBit j =
    (decide (j < w) && if m.getLsbD (low + j) = true then v.testBit j else old.getLsbD (low + j)) := by
  rw [BitVec.testBit_toNat]
  by_cases hj : j < w
  · have hj64 : j < 64 := by omega
    simp only [BitVec.getLsbD_and, BitVec.getLsbD_or, BitVec.getLsbD_not, BitVec.getLsbD_ushiftRight, BitVec.getLsbD_ofNat,
      Nat.testBit_mod_two_pow, Nat.testBit_two_pow_sub_one, hj, hj64]
    cases m.getLsbD (low + j) <;> simp
  · simp [hj, BitVec.getLsbD_ofNat, Nat.testBit_two_pow_sub_one]

theorem exists_testBit_eq (j : Nat) (b : Bool) : ∃ a : Wide, a.testBit j = b := by
  cases b with
  | false => exact ⟨0, Nat.zero_testBit j⟩
  | true => exact ⟨2 ^ j, Nat.testBit_two_pow_self⟩

/-- Settles O19, by the bits of the read-back. A bit that is not writable is read back as it was, so a value with the other bit
there is not read back. -/
theorem fieldRoundTrip : Obligations.FieldRoundTrip := by
  unfold Obligations.FieldRoundTrip
  intro s n fid d f hs hc hd hf
  obtain ⟨hle, hrange⟩ := Config.field_range hc (Config.desc_mem hd) (List.mem_of_getElem? hf)
  have hbits := xlen_bits_le s.cfg.xlen
  refine ⟨?_, fun k hlow hhigh hm => ?_⟩
  · obtain ⟨t, r, hw, hr, hcsr, hbit⟩ := exec_fieldRoundTrip hs hc hd hf
    refine ⟨t, r, hw, hr, ?_, fun hall => ?_, fun k hk => ?_⟩
    · apply Nat.eq_of_testBit_eq
      intro j
      rw [hbit, testBit_fieldMix _ _ _ _ _ _ (by omega), fieldWidth]
    · apply Nat.eq_of_testBit_eq
      intro j
      rw [hbit, Nat.testBit_mod_two_pow, fieldWidth]
      by_cases hj : j < f.high - f.low + 1
      · rw [if_pos (hall (f.low + j) (by omega) (by omega))]
      · simp [hj]
    · rw [hcsr, fieldWrite_wordOf_bit hc hd hf, if_neg (by omega)]
  · obtain ⟨a, ha⟩ := exists_testBit_eq (k - f.low) (!(s.csr.get n).getLsbD k)
    obtain ⟨t, r, hw, hr, -, hbit⟩ := exec_fieldRoundTrip (s := s.withBus { s.bus with wdata := a }) hs hc hd hf
    refine ⟨a, t, r, hw, hr, fun heq => ?_⟩
    have hj : k - f.low < f.high - f.low + 1 := by omega
    have hread : r.resp.rdata.testBit (k - f.low) = (s.csr.get n).getLsbD k := by
      rw [hbit, fieldWidth, decide_eq_true hj, Nat.add_sub_cancel' hlow, if_neg (by simp [hm]), Bool.true_and]
      rfl
    rw [heq, Nat.testBit_mod_two_pow, decide_eq_true hj, ha] at hread
    simp at hread

/-- Settles O17: the field is looked up, and its bits are read over the natural numbers. -/
theorem fieldReadAnswersItsBits : Obligations.FieldReadAnswersItsBits := by
  unfold Obligations.FieldReadAnswersItsBits
  intro s n fid d f hs hd hf
  rw [exec_fieldRead hs hd hf, State.fieldRead, fieldExtract_toNat, Config.desc_number hd]
  rfl

/-! ### Lookups that miss -/

/-- The four operations on a register refuse a CSR that the table lacks (41_csr R122). -/
theorem exec_unknownCsr {s : State} {n : Nat} (hs : s.fatal = none) (hd : s.cfg.desc n = none) {i : Instr}
    (hi : i ∈ [Instr.rfRead .csr n, .rfWrite .csr n, .rfReadDirect .csr n, .rfWriteDirect .csr n]) :
    exec i s = .next (s.latch .unknownCsr) := by
  have hread : opRead .csr n s = .fatal .unknownCsr := by simp only [opRead, State.readReg, hd]
  simp only [List.mem_cons, List.not_mem_nil, or_false] at hi
  rcases hi with rfl | rfl | rfl | rfl
  · exact command_of_fatal hs hread
  · exact command_of_fatal hs (by simp only [opWrite, State.writeReg, hd])
  · exact command_of_fatal hs hread
  · exact command_of_fatal hs (by simp only [opWriteDirect, State.writeReg, hd])

/-- The two operations on a field end in the code with which its lookup ends (41_csr R122). -/
theorem exec_field_missing {s : State} {n fid : Nat} {c : FatalCode} (hs : s.fatal = none)
    (hf : s.cfg.findField n fid = .error c) {i : Instr} (hi : i ∈ [Instr.csrFieldRead n fid, .csrFieldWrite n fid]) :
    exec i s = .next (s.latch c) := by
  simp only [List.mem_cons, List.not_mem_nil, or_false] at hi
  rcases hi with rfl | rfl
  · exact command_of_fatal hs (by simp only [opFieldRead, hf])
  · exact command_of_fatal hs (by simp only [opFieldWrite, hf])

/-- Settles O20: each operation looks the number up, then the field, before it reads or writes. -/
theorem lookupMissesAreFatal : Obligations.LookupMissesAreFatal := by
  unfold Obligations.LookupMissesAreFatal
  intro s hs
  refine ⟨fun n hd i hi => exec_unknownCsr hs hd hi, fun n fid hd i hi => ?_, fun n fid d hd hlen i hi => ?_⟩
  · exact exec_field_missing hs (by simp only [Config.findField, hd]) hi
  · have hf : d.fields[fid]? = none := List.getElem?_eq_none hlen
    exact exec_field_missing hs (by simp only [Config.findField, hd, hf]) hi

end Sys2Proof.Machine
end

section
/-!
SUPPORT. The run of a group at the Action that decides its end (42_engine R136, R137, R141, R145 to R147), and the groups of the
reference graph (R143).
-/

namespace Sys2Proof.Machine

/-! ### Where a run ends -/

section
variable {g i n : Nat} {next : Option Nat} {s t u : State} {before after : List Action} {a : Action}

theorem runActions_all (h : runThrough s before = some t) : runActions g next i s before = .done t next := by
  have hnil := runActions_through (g := g) (i := i) (next := next) [] h
  rwa [List.append_nil] at hnil

theorem runActions_transfer (h : runThrough s before = some t) (ha : invoke a t = .ok u (.transfer n)) :
    runActions g next i s (before ++ a :: after) = transferTo u n := by
  rw [runActions_through _ h, runActions, ha]

theorem runActions_pause (h : runThrough s before = some t) (ha : invoke a t = .ok u .pause) :
    runActions g next i s (before ++ a :: after) =
      .done (u.setEng { u.eng with paused := true, cursor := i + before.length + 1 }) (some g) := by
  rw [runActions_through _ h, runActions, ha]

theorem runActions_fatal_at {c : FatalCode} (h : runThrough s before = some t) (ha : invoke a t = .fatal u c) :
    runActions g next i s (before ++ a :: after) = .fatal u c := by
  rw [runActions_through _ h, runActions, ha]

theorem runActions_fault_at {r : Fault} (h : runThrough s before = some t) (ha : invoke a t = .fault r) :
    runActions g next i s (before ++ a :: after) = .fault r := by
  rw [runActions_through _ h, runActions, ha]

/-- The configuration and the Engine's cells stand through the Actions that continue and the one that ends the run. -/
theorem runThrough_invoke_frame (h : runThrough s before = some t) (ha : (invoke a t).state? = some u) : ActFrame s u :=
  (runThrough_frame h).trans (invoke_frame ha)

end

theorem transferTo_of_lt {s : State} {n : Nat} (h : n < s.cfg.graph.length) : transferTo s n = .done s (some n) := if_pos h

theorem transferTo_of_le {s : State} {n : Nat} (h : s.cfg.graph.length ≤ n) : transferTo s n = .fatal s .badGroup :=
  if_neg (Nat.not_lt.2 h)

/-! ### What the Engine's operation then answers -/

/-- `r2` where the run leaves the hart not paused: no_next, else retired or not (42_engine R141, R145). -/
def endFlags (c : Config) : Option Nat → Word
  | none => 4
  | some n => if c.isFetchGroup n then 1 else 0

theorem runResponse_running {g : Nat} {s : State} (h : s.eng.paused = false) :
    runResponse g s =
      ⟨false, 0, 0, BitVec.ofNat 64 g, BitVec.ofNat 64 (s.eng.next.getD 0), endFlags s.cfg s.eng.next⟩ := by
  have hflags : runFlags s.retired s.eng.paused s.noNext = endFlags s.cfg s.eng.next := by
    simp only [State.retired, State.noNext, h]
    cases s.eng.next with
    | none => simp [runFlags, endFlags]
    | some n => cases hf : s.cfg.isFetchGroup n <;> simp [runFlags, endFlags, hf]
  rw [runResponse, hflags]
  rfl

theorem runResponse_paused {g n : Nat} {s : State} (h : s.eng.paused = true) (hn : s.eng.next = some n) :
    runResponse g s = ⟨false, 0, 0, BitVec.ofNat 64 g, BitVec.ofNat 64 n, 2⟩ := by
  have hflags : runFlags s.retired s.eng.paused s.noNext = 2 := by
    simp [runFlags, State.retired, State.noNext, h, hn]
  rw [runResponse, hflags, hn]
  rfl

section
variable {i : Instr} {s s0 u : State} {g k : Nat} {grp : Group} {as : List Action}

/-- A run that is done and has not paused: the Engine's cells are those it started with, but for the next group. -/
theorem EngineStarts.exec_done (hst : EngineStarts i s s0 g k grp as) {next : Option Nat}
    (hrun : runActions g grp.next k s0 as = .done u next) (heng : u.eng = s0.eng) :
    exec i s = .next { u with
      eng := { s0.eng with next := next }
      resp := ⟨false, 0, 0, BitVec.ofNat 64 g, BitVec.ofNat 64 (next.getD 0), endFlags s.cfg next⟩ } := by
  obtain ⟨hpaused, -, -⟩ := hst.start
  have hcfg : u.cfg = s.cfg := hst.run_cfg (by rw [hrun]; rfl)
  have hresp := runResponse_running (g := g) (s := u.setEng { s0.eng with next := next }) hpaused
  rw [exec_of_starts hst, hrun, finishRun, heng, hresp, ← hcfg]
  rfl

theorem EngineStarts.exec_fatal (hst : EngineStarts i s s0 g k grp as) {c : FatalCode}
    (hrun : runActions g grp.next k s0 as = .fatal u c) : exec i s = .next (u.latch c) := by
  rw [exec_of_starts hst, hrun, finishRun]

theorem EngineStarts.exec_fault (hst : EngineStarts i s s0 g k grp as) {r : Fault}
    (hrun : runActions g grp.next k s0 as = .fault r) : exec i s = .fault r := by
  rw [exec_of_starts hst, hrun, finishRun]

/-- A group whose Actions all continue is followed by its link. -/
theorem EngineStarts.exec_through (hst : EngineStarts i s s0 g k grp as) (h : runThrough s0 as = some u) :
    exec i s = .next { u with
      eng := { s0.eng with next := grp.next }
      resp := ⟨false, 0, 0, BitVec.ofNat 64 g, BitVec.ofNat 64 (grp.next.getD 0), endFlags s.cfg grp.next⟩ } :=
  hst.exec_done (runActions_all h) (runThrough_frame h).eng

end

/-- Settles O33: Actions that all continue are run to the end of the list, where the run is done with the static link. -/
theorem groupRunsInOrderToItsLink : Obligations.GroupRunsInOrderToItsLink := by
  unfold Obligations.GroupRunsInOrderToItsLink
  intro i s s0 t g k grp as hst h
  rw [hst.exec_through h]
  cases grp.next <;> rfl

/-- Settles O34: the run ends in `transferTo`, whatever stands after the Action. -/
theorem transferAbandonsTheRest : Obligations.TransferAbandonsTheRest := by
  unfold Obligations.TransferAbandonsTheRest
  intro i s s0 t u g k n grp before after a hst h ha
  have hframe := runThrough_invoke_frame (u := u) h (by rw [ha]; rfl)
  have hcfg : u.cfg = s.cfg := by
    obtain ⟨-, -, hs0⟩ := hst.start
    rw [hframe.cfg, hs0]
  refine ⟨fun hn => ?_, fun hn => ?_⟩
  · exact hst.exec_done ((runActions_transfer h ha).trans (transferTo_of_lt (hcfg ▸ hn))) hframe.eng
  · exact hst.exec_fatal ((runActions_transfer h ha).trans (transferTo_of_le (hcfg ▸ hn)))

/-- Settles O35: the run is done at the pausing Action, the Engine paused there, so that `r2` is the paused flag alone. -/
theorem pauseKeepsTheNextAction : Obligations.PauseKeepsTheNextAction := by
  unfold Obligations.PauseKeepsTheNextAction
  intro i s s0 t u g k grp before after a hst h ha
  rw [exec_of_starts hst, runActions_pause h ha, finishRun, runResponse_paused (n := g) rfl rfl]
  rfl

/-- A script is what an external Action does where no MMU function stands for it. -/
theorem invoke_script {a : Action} {e : ExtAction} {s : State} (hb : a.body = .external e) (hm : s.mmuOf e = none) :
    invoke a s = actScript s := by
  simp only [invoke, hb, actExternal, hm]

/-- Settles O36: the Actions before the fatal one leave the Engine's cells, and so do the operations of its script before the
fatal one, which writes its answer alone. -/
theorem fatalInAGroupKeepsEarlierEffects : Obligations.FatalInAGroupKeepsEarlierEffects := by
  unfold Obligations.FatalInAGroupKeepsEarlierEffects
  intro i s s0 t g k grp before after a hst h
  refine ⟨fun u c ha => ⟨hst.exec_fatal (runActions_fatal_at h ha), ?_⟩,
    fun e done rest o w u c hb hm hops hdone ho => ⟨?_, ?_⟩⟩
  · exact (runThrough_invoke_frame h (by rw [ha]; rfl)).eng
  · have ha : invoke a t = .fatal u c := (invoke_script hb hm).trans (actScript_fatal hops hdone ho)
    rw [hst.exec_fatal (runActions_fatal_at h ha), runOp_fatal ho]
    rfl
  · have hwork : WorkFrame t.dropRun w := runOps_frame (by rw [hdone]; rfl)
    exact hwork.eng.trans (runThrough_frame h).eng

theorem issue_of_engineOp {cw : CmdWord} {i : Instr} (hd : decode cw = .ok i) (he : isEngineOp i = true) (b : Bus) (s : State) :
    issue cw b s = .fault .engineNested := by
  simp only [issue, hd, portOp_none.2 he]

/-- Settles O43: neither the run before the Action nor the script before the operation hides the fault. -/
theorem engineOperationInAnActionStops : Obligations.EngineOperationInAnActionStops := by
  unfold Obligations.EngineOperationInAnActionStops
  refine ⟨fun s cw b i hd he => issue_of_engineOp hd he b s, fun i s s0 t g k grp before after a hst h => ?_⟩
  have hstops (ha : invoke a t = .fault .engineNested) : exec i s = .fault .engineNested :=
    hst.exec_fault (runActions_fault_at h ha)
  refine ⟨hstops, fun e done rest w cw j wdata arg0 arg1 arg2 hb hm hops hdone hd he => hstops ?_⟩
  have ho : runOp w (.issue cw wdata arg0 arg1 arg2) = .fault .engineNested := issue_of_engineOp hd he _ w
  exact (invoke_script hb hm).trans (actScript_fault hops hdone ho)

/-- Settles O37: each refusal is the latch, before any group is looked up. -/
theorem engineRefusals : Obligations.EngineRefusals := by
  unfold Obligations.EngineRefusals
  intro s hs
  refine ⟨fun hp => ?_, fun hp hn => ?_, fun hp => ?_⟩
  · simp only [exec, execEngRunGroup, hs, hp, if_true]
    rfl
  · simp only [exec, execEngRunGroup, hs, hp, hn]
    rfl
  · simp only [exec, execEngResume, hs, hp, if_true]
    rfl

/-! ### The finish and exception groups of the reference graph -/

/-- ENG.RUN_GROUP starts a group with a static list at its first Action. -/
theorem EngineStarts.of_fixed {s : State} {g : Nat} {grp : Group} {as : List Action} (hs : s.fatal = none)
    (hp : s.eng.paused = false) (hn : s.eng.next = some g) (hg : s.cfg.graph[g]? = some grp) (has : grp.actions = .fixed as) :
    EngineStarts .engRunGroup s s g 0 grp as :=
  ⟨hs, hn, hg, by rw [State.groupActions, has, List.drop_zero], .inl ⟨rfl, hp, rfl, rfl⟩⟩

/-- The fetch group of the reference graph begins a chain (42_engine R143, R145). -/
theorem endFlags_reference {c : Config} (h : c.graph = Reference.graph) : endFlags c (some 0) = 1 := by
  have hfetch : c.isFetchGroup 0 = true := by rw [Config.isFetchGroup, h]; rfl
  rw [endFlags, hfetch, if_pos rfl]

theorem runThrough_commitPc (tag : Tag) (s : State) : runThrough s [⟨tag, .commitPc⟩] = some { s with pc := s.nextPc } := rfl

/-- Settles O40: the group is `commit_pc` alone, and its link the fetch group. -/
theorem finishGroupCommitsThePc : Obligations.FinishGroupCommitsThePc := by
  unfold Obligations.FinishGroupCommitsThePc
  intro s hs hgraph hn hp
  have hgroup : s.cfg.graph[2]? = some ⟨.fixed [⟨.finish, .commitPc⟩], some 0, [.finish]⟩ := by rw [hgraph]; rfl
  have hst := EngineStarts.of_fixed hs hp hn hgroup rfl
  rw [hst.exec_through (runThrough_commitPc _ s), endFlags_reference hgraph]
  rfl

/-- The exception group is `deliver_trap`, then `commit_pc` (42_engine R143). -/
theorem EngineStarts.exceptionGroup {s : State} (hs : s.fatal = none) (hgraph : s.cfg.graph = Reference.graph)
    (hn : s.eng.next = some 3) (hp : s.eng.paused = false) :
    EngineStarts .engRunGroup s s 3 0 ⟨.fixed [⟨.exception, .deliverTrap⟩, ⟨.exception, .commitPc⟩], some 0, [.exception]⟩
      [⟨.exception, .deliverTrap⟩, ⟨.exception, .commitPc⟩] :=
  .of_fixed hs hp hn (by rw [hgraph]; rfl) rfl

theorem invoke_deliverTrap_of_ok {s u : State} {r : Response} (h : opDeliver s = .ok u r) (tag : Tag) :
    invoke ⟨tag, .deliverTrap⟩ s = .ok { u with iresp := r } .continue := by
  simp only [invoke, actDeliverTrap, h, answer, WorkOut.thenAnswer]

theorem invoke_deliverTrap_of_fatal {s : State} {c : FatalCode} (h : opDeliver s = .fatal c) (tag : Tag) :
    invoke ⟨tag, .deliverTrap⟩ s = .fatal { s with iresp := Response.ofFatal c } c := by
  simp only [invoke, actDeliverTrap, h, answer, WorkOut.thenAnswer]

/-- Settles O41: `deliver_trap` does on the internal port the work that TRAP.DELIVER does on the command port. -/
theorem exceptionGroupDeliversThenCommits : Obligations.ExceptionGroupDeliversThenCommits := by
  unfold Obligations.ExceptionGroupDeliversThenCommits
  intro s t hs hgraph hn hp h
  have hst := EngineStarts.exceptionGroup hs hgraph hn hp
  rcases exec_portOp_cases rfl hs h with ⟨u, r, hwork, rfl⟩ | ⟨c, hwork, rfl⟩
  · have hop : opDeliver s = .ok u r := Option.some.inj hwork
    obtain ⟨-, -, -, -, -, rfl, -⟩ := opDeliver_ok hop
    refine ⟨fun _ => ?_, fun c hc => ?_⟩
    · have hrun : runThrough s [⟨.exception, .deliverTrap⟩, ⟨.exception, .commitPc⟩] =
          some { u with iresp := Response.ok, pc := u.nextPc } := by
        rw [runThrough, invoke_deliverTrap_of_ok hop]
        rfl
      rw [hst.exec_through hrun, endFlags_reference hgraph]
      rfl
    · have hu : u.fatal = none := (portOp_frame hwork).fatal.trans hs
      cases hu.symm.trans hc
  · have hop : opDeliver s = .fatal c := Option.some.inj hwork
    refine ⟨nofun, fun c' hc => ?_⟩
    cases hc
    rw [hst.exec_fatal (runActions_fatal_at (before := []) rfl (invoke_deliverTrap_of_fatal hop _))]
    rfl

end Sys2Proof.Machine
end

section
/-!
SUPPORT. Instruction assembly and the built-in `illegal` (42_engine R148, R149, R156), and A_MMU as a function (42_engine R152,
43_xlate R165).
-/

namespace Sys2Proof.Machine

/-! ### Instruction assembly -/

/-- The fall-through `next_pc` over the natural numbers (42_engine R148). -/
theorem trunc_add_ofNat (x : XLen) (pc : Word) (n : Nat) :
    trunc x (pc + BitVec.ofNat 64 n) = BitVec.ofNat 64 ((pc.toNat + n) % 2 ^ x.bits) := by
  have hdvd : 2 ^ x.bits ∣ 2 ^ 64 := pow_dvd_pow 2 (xlen_bits_le x)
  rw [trunc_eq_ofNat, BitVec.toNat_add, BitVec.toNat_ofNat, Nat.add_mod_mod, Nat.mod_mod_of_dvd _ hdvd]

theorem actAssemble_of_list {s : State} {l : List Action} (h : assembledList s.cfg s.curInst.mnemonic = .ok l) :
    actAssemble s = .ok { s with
      curInst := { s.curInst with actions := withMmu l }
      xp := { s.xp with state := .idle }
      nextPc := BitVec.ofNat 64 ((s.pc.toNat + s.curInst.size) % 2 ^ s.cfg.xlen.bits) } .continue := by
  simp only [actAssemble, h, trunc_add_ofNat]

theorem assembledList_registered {c : Config} {m : Mnemonic} {l : List Action} (h : c.handlers.lookup m = some l) :
    assembledList c m = .ok l := by
  simp only [assembledList, handlersOf, h]

theorem assembledList_unimp {c : Config} (h : c.handlers.lookup .unimp = none) :
    assembledList c .unimp = .ok [Reference.illegalAction] := by
  simp only [assembledList, handlersOf, h, if_true]

theorem assembledList_missing {c : Config} {m : Mnemonic} (h : c.handlers.lookup m = none) (hm : m ≠ .unimp) :
    assembledList c m = .error .missingHandler := by
  simp only [assembledList, handlersOf, h, if_neg hm]

/-- Settles O38: the three answers of the lookup, each with what `assemble` does with it. -/
theorem assembleBuildsTheGroup : Obligations.AssembleBuildsTheGroup := by
  unfold Obligations.AssembleBuildsTheGroup
  intro s tag
  refine ⟨fun l hl => ?_, fun hl hm => ⟨.execute, ?_⟩, fun hl hm => ?_⟩
  · exact actAssemble_of_list (assembledList_registered hl)
  · have hlist : assembledList s.cfg s.curInst.mnemonic = .ok [Reference.illegalAction] := by
      rw [hm] at hl ⊢
      exact assembledList_unimp hl
    exact actAssemble_of_list hlist
  · simp only [invoke, actAssemble, assembledList_missing hl hm]

/-! ### A cause raised, a request resolved -/

/-- TRAP.SET_FAULT of a member code on an empty slot (44_trap_ops R181). -/
theorem opSetFault_of_empty {s : State} {c : Nat} (hc : s.cfg.isFaultCode c = true) (hf : s.trap.pendFault = none)
    (hi : s.trap.pendIntr = none) (b : Bus) :
    opSetFault c b s = .ok (s.setTrap ⟨some c, none, trunc s.cfg.xlen b.arg0, trunc s.cfg.xlen b.arg1,
      trunc s.cfg.xlen b.arg2⟩) Response.ok := by
  simp [opSetFault, hc, hf, hi]

/-- XLT.RESOLVE of a request (43_xlate R164). -/
theorem opResolve_of_requested {s : State} (h : s.xp.state = .requested) (b : Bus) :
    opResolve b s = .ok (s.setXp ⟨.resolved, s.xp.vaddr, s.xp.size, b.arg0, b.arg1⟩) Response.ok := by
  simp only [opResolve, h]

theorem trunc_zero (x : XLen) : trunc x 0 = 0 := trunc_of_fits (fits_zero x)

/-- The raw opcode has 32 bits, so no XLEN cuts it (10_state R34). -/
theorem trunc_opcode (x : XLen) (opcode : BitVec 32) : trunc x (opcode.setWidth 64) = BitVec.ofNat 64 opcode.toNat := by
  have hbits : 32 ≤ x.bits := by cases x <;> decide
  have hnat : (opcode.setWidth 64).toNat = opcode.toNat := BitVec.toNat_setWidth_of_le (by decide)
  have hlt : opcode.toNat < 2 ^ x.bits := lt_of_lt_of_le opcode.isLt (Nat.pow_le_pow_right (by decide) hbits)
  rw [trunc_eq_ofNat, hnat, Nat.mod_eq_of_lt hlt]

/-- Settles O39: the slot is empty and code 2 a member, so the cause is set. -/
theorem illegalRaisesTheFault : Obligations.IllegalRaisesTheFault := by
  unfold Obligations.IllegalRaisesTheFault
  intro s tag hc hf hi
  simp only [invoke, actIllegal]
  rw [opSetFault_of_empty (c := FaultCause.illegalInst.code) hc hf hi, trunc_opcode]
  simp only [Bus.zero, trunc_zero, answer, WorkOut.thenAnswer]
  rfl

/-! ### The MMU as a function -/

theorem State.mmuOf_aMmu (s : State) : s.mmuOf .aMmu = s.cfg.mmu := if_pos rfl

theorem State.mmuOf_eq_some {s : State} {e : ExtAction} {m : MmuFunction} (h : s.mmuOf e = some m) : e = .aMmu := by
  by_contra hne
  rw [State.mmuOf, if_neg hne] at h
  cases h

theorem invoke_mmu {s : State} {m : MmuFunction} (h : s.cfg.mmu = some m) (tag : Tag) :
    invoke ⟨tag, .external .aMmu⟩ s = actMmu m s := by
  simp only [invoke, actExternal, State.mmuOf_aMmu, h]

theorem actMmu_of_not_requested {s : State} (h : s.xp.state ≠ .requested) (m : MmuFunction) : actMmu m s = .ok s .continue := by
  unfold actMmu
  split
  · rfl
  · rename_i hx; exact absurd hx h
  · rfl

theorem actMmu_of_requested {s : State} (h : s.xp.state = .requested) (m : MmuFunction) :
    actMmu m s = mmuServe s (mmuAnswer m s.mmuKey) := by
  simp only [actMmu, h]

/-- Settles O59: with a request the function's answer is served, by XLT.RESOLVE or by TRAP.SET_FAULT on an empty slot. -/
theorem mmuFunctionServesTheRequest : Obligations.MmuFunctionServesTheRequest := by
  unfold Obligations.MmuFunctionServesTheRequest
  intro s tag m hm
  rw [invoke_mmu hm]
  refine ⟨fun hx => actMmu_of_not_requested hx m, fun hx => ⟨fun paddr misalign ha => ?_, fun c ha hc hf hi => ?_⟩⟩
  · have hkey : mmuAnswer m s.mmuKey = .resolve paddr misalign := ha
    rw [actMmu_of_requested hx, hkey, mmuServe, opResolve_of_requested hx]
    rfl
  · have hkey : mmuAnswer m s.mmuKey = .raise c := ha
    rw [actMmu_of_requested hx, hkey, mmuServe, opSetFault_of_empty hc hf hi, trunc_eq_ofNat s.cfg.xlen s.xp.vaddr]
    simp only [Bus.zero, trunc_zero, answer, WorkOut.thenAnswer]
    rfl

/-- What the MMU's function does where it ends well: nothing, one resolution, or one cause raised (42_engine R152). -/
theorem actMmu_ok {m : MmuFunction} {s t : State} {ct : ControlTransfer} (h : actMmu m s = .ok t ct) :
    (t = s ∧ ct = .continue) ∨
    (∃ paddr misalign, t = { s with xp := ⟨.resolved, s.xp.vaddr, s.xp.size, paddr, misalign⟩, iresp := Response.ok } ∧
      ct = .continue) ∨
    (∃ c vaddr, t = { s with trap := ⟨some c, none, vaddr, 0, 0⟩, iresp := Response.ok } ∧
      ct = .transfer s.cfg.exception) := by
  by_cases hx : s.xp.state = .requested
  · rw [actMmu_of_requested hx] at h
    cases hans : mmuAnswer m s.mmuKey with
    | resolve paddr misalign =>
      rw [hans, mmuServe, opResolve_of_requested hx] at h
      cases h
      exact .inr (.inl ⟨paddr, misalign, rfl, rfl⟩)
    | raise c =>
      rw [hans, mmuServe] at h
      cases hset : opSetFault c { Bus.zero with arg0 := s.xp.vaddr } s with
      | fatal d => rw [hset] at h; cases h
      | ok u r =>
        rw [hset] at h
        obtain ⟨-, -, -, rfl, rfl⟩ := opSetFault_ok hset
        cases h
        refine .inr (.inr ⟨c, trunc s.cfg.xlen s.xp.vaddr, ?_, rfl⟩)
        simp only [Bus.zero, trunc_zero]
  · rw [actMmu_of_not_requested hx] at h
    cases h
    exact .inl ⟨rfl, rfl⟩

end Sys2Proof.Machine
end

section
/-!
SUPPORT. External Actions (42_engine R150 to R153): what none of them writes, and what a conforming one does with the slot, the
instruction record and the request (43_xlate R165, 70_reset R240).
-/

namespace Sys2Proof.Machine

/-! ### Any external Action -/

/-- All that a stretch of an Action's work may have written, as one update. -/
theorem WorkFrame.eq {s t : State} (h : WorkFrame s t) :
    t = { s with
      x := t.x, f := t.f, v := t.v, csr := t.csr, nextPc := t.nextPc, priv := t.priv, virt := t.virt, trap := t.trap
      xp := t.xp, curInst := t.curInst, xlateMode := t.xlateMode, iresp := t.iresp, mem := t.mem, memData := t.memData } := by
  simp only [← h.cfg, ← h.pc, ← h.eng, ← h.fatal, ← h.bus, ← h.resp, ← h.inputs, ← h.script, ← h.idle]

/-- Settles O44: the frame of a script or of the MMU's function, the script taken where there is one. -/
theorem externalActionFrame : Obligations.ExternalActionFrame := by
  unfold Obligations.ExternalActionFrame
  intro s t tag e ct h
  have hext : actExternal e s = .ok t ct := h
  rcases actExternal_cases e s with ⟨m, hm, hact⟩ | ⟨hm, hact⟩
  · have hwork : WorkFrame s t := actMmu_frame (m := m) (by rw [← hact, hext]; rfl)
    refine ⟨fun hnone => (by cases hm.symm.trans hnone), hwork.acts, ?_⟩
    rw [hm, if_neg nofun]
    exact hwork.eq
  · have hwork : WorkFrame s.dropRun t := actScript_frame (by rw [← hact, hext]; rfl)
    refine ⟨fun _ => (actExternal_ok hm hext).2, hwork.acts, ?_⟩
    rw [if_pos hm]
    exact hwork.eq

/-! ### The front end and the MMU -/

theorem conforms_of_script {s : State} {raw : BitVec 32} {e : ExtAction} (hm : s.mmuOf e = none)
    (h : s.nextConforms raw e = true) : conforms s raw e s.nextRun = true := by
  simpa only [State.nextConforms, hm] using h

/-- What a conforming front-end Action or A_MMU, a script or a function, does to the state but for the script it takes. -/
theorem actExternal_front {s t : State} {raw : BitVec 32} {e : ExtAction} {ct : ControlTransfer} (he : isHandler e = false)
    (hc : s.nextConforms raw e = true) (h : actExternal e s = .ok t ct) : FrontStep e { s with script := t.script } t := by
  rcases actExternal_cases e s with ⟨m, hm, hact⟩ | ⟨hm, -⟩
  · cases State.mmuOf_eq_some hm
    rw [hact] at h
    rcases actMmu_ok h with ⟨rfl, -⟩ | ⟨paddr, misalign, rfl, -⟩ | ⟨c, vaddr, rfl, -⟩
    · exact .refl _ _
    · exact ⟨rfl, fun n => absurd rfl n, ⟨rfl, rfl⟩, fun _ => rfl, fun _ => rfl⟩
    · exact ⟨rfl, fun _ => rfl, ⟨rfl, rfl⟩, fun _ => rfl, fun _ => rfl⟩
  · obtain ⟨hrun, -⟩ := actExternal_ok hm h
    obtain ⟨hmay, -, -, -⟩ := conforms_iff.1 (conforms_of_script hm hc)
    have hstep : FrontStep e s.dropRun t := runOps_front he hmay hrun
    have hscript : t.script = s.script.tail := by rw [hstep.frame]; rfl
    rw [hscript]
    exact hstep

/-- Settles O45: the cells of `FrontStep`, those that the Action in question leaves put back. -/
theorem frontEndAndMmuFrame : Obligations.FrontEndAndMmuFrame := by
  unfold Obligations.FrontEndAndMmuFrame
  intro s t raw tag e ct hc h
  refine ⟨fun he => ?_, fun he => ?_, fun he => ?_⟩
  · obtain ⟨hfront, hmmu, hdecode⟩ : isHandler e = false ∧ e ≠ .aMmu ∧ e ≠ .aDecode := by
      rcases he with rfl | rfl <;> decide
    have hstep := actExternal_front hfront hc h
    have hframe := hstep.frame
    rwa [hstep.xp hmmu, hstep.inst hdecode, hstep.mem hmmu] at hframe
  · subst he
    have hstep := actExternal_front rfl hc h
    have hframe := hstep.frame
    rwa [hstep.xp (by decide), hstep.mem (by decide)] at hframe
  · subst he
    have hstep := actExternal_front rfl hc h
    have hframe := hstep.frame
    refine ⟨hstep.req.1, hstep.req.2, ?_⟩
    rwa [hstep.inst (by decide)] at hframe

/-- Settles O46: a script leaves a cause pending exactly when it sets one, and answers so; the MMU's function transfers with
the cause it raises. -/
theorem causePendingIffTransfer : Obligations.CausePendingIffTransfer := by
  unfold Obligations.CausePendingIffTransfer
  intro s t raw tag e ct hc hf hi h
  have hext : actExternal e s = .ok t ct := h
  rcases actExternal_cases e s with ⟨m, -, hact⟩ | ⟨hm, -⟩
  · rw [hact] at hext
    rcases actMmu_ok hext with ⟨rfl, rfl⟩ | ⟨paddr, misalign, rfl, rfl⟩ | ⟨c, vaddr, rfl, rfl⟩ <;> simp [hf, hi]
  · obtain ⟨hrun, rfl⟩ := actExternal_ok hm hext
    obtain ⟨hmay, -, hanswer, -⟩ := conforms_iff.1 (conforms_of_script hm hc)
    obtain ⟨hset, hkept⟩ := runOps_pending hmay hrun
    obtain ⟨htransfer, honly⟩ := answersWell_transfer hanswer
    refine ⟨?_, honly⟩
    rw [← htransfer]
    refine ⟨fun hpending => ?_, hset⟩
    by_contra hnone
    have htrap : t.trap = s.trap := hkept (Bool.eq_false_iff.2 hnone)
    rw [htrap, hf, hi] at hpending
    simp at hpending

theorem answersWell_continue {c : Config} {r : ActionRun} (h : answersWell c r = true) (hpause : r.ct ≠ .pause)
    (hset : r.ops.any setsCause = false) : r.ct = .continue := by
  unfold answersWell at h
  split at h
  · assumption
  · rw [hset, Bool.and_false] at h; cases h
  · rename_i hct; exact absurd hct hpause

/-- A script of the decoder or of A_MMU that raises: the cause is one it may raise, with the operands its contract says. -/
theorem runOps_raised {e : ExtAction} {raw : BitVec 32} {os : List ActionOp} {s t : State} (he : e = .aDecode ∨ e = .aMmu)
    (hmay : os.all (mayDo e) = true) (halong : holdsAlong (operandsOk e raw) s os = true) (h : runOps s os = .ok t)
    (hset : os.any setsCause = true) :
    ∃ c, mayRaise e c = true ∧ t.trap.pendFault = some c ∧
      (e = .aDecode → t.trap.tiOpcode = trunc s.cfg.xlen (raw.setWidth 64)) ∧
      (e = .aMmu → t.trap.tiVaddr = trunc s.cfg.xlen s.xp.vaddr) := by
  have hfront : isHandler e = false := by rcases he with rfl | rfl <;> rfl
  refine runOps_raise (q := fun q => ∃ c, mayRaise e c = true ∧ q.pendFault = some c ∧
    (e = .aDecode → q.tiOpcode = trunc s.cfg.xlen (raw.setWidth 64)) ∧
    (e = .aMmu → q.tiVaddr = trunc s.cfg.xlen s.xp.vaddr)) hfront hmay halong (fun o u v ho hok hreq hcfg hs hrun => ?_) h hset
  obtain ⟨cw, wdata, arg0, arg1, arg2, c, rfl, hraise, htrap⟩ := runOp_raise he ho hs hrun
  have hoperands : faultOperandsOk e raw u arg0 arg2 = true := by simpa [operandsOk, hs] using hok
  rw [htrap, hcfg]
  refine ⟨c, hraise, rfl, ?_, ?_⟩
  · rintro rfl
    rw [beq_iff_eq.1 hoperands]
  · rintro rfl
    rw [beq_iff_eq.1 hoperands, hreq]

/-- Settles O57: a script that sets no cause has written the record; one that sets a cause sets ILLEGAL_INST. -/
theorem decoderDecodesOrRaises : Obligations.DecoderDecodesOrRaises := by
  unfold Obligations.DecoderDecodesOrRaises
  intro s t raw tag ct hc h
  obtain ⟨hrun, rfl⟩ := actExternal_ok (e := .aDecode) rfl h
  obtain ⟨hmay, halong, hanswer, hcontract⟩ := conforms_iff.1 (conforms_of_script rfl hc)
  simp only [contractMet, Bool.and_eq_true, bne_iff_ne, Bool.or_eq_true] at hcontract
  obtain ⟨hpause, hdoes⟩ := hcontract
  obtain ⟨hwritten, hunwritten⟩ := runOps_inst hmay halong hrun
  cases hset : s.nextRun.ops.any setsCause with
  | false =>
    refine .inl ⟨answersWell_continue hanswer hpause hset, hwritten ?_, (runOps_pending hmay hrun).2 hset⟩
    simpa [hset] using hdoes
  | true =>
    obtain ⟨c, hraise, hpending, hopcode, -⟩ := runOps_raised (.inl rfl) hmay halong hrun hset
    have hillegal : c = 2 := beq_iff_eq.1 hraise
    have hraw : (raw.setWidth 64).toNat = raw.toNat := BitVec.toNat_setWidth_of_le (by decide)
    refine .inr ⟨(answersWell_transfer hanswer).1.1 hset, hillegal ▸ hpending, ?_, ?_⟩
    · rw [hopcode rfl, trunc_eq_ofNat, hraw]
      rfl
    · cases hinst : s.nextRun.ops.any writesInst with
      | true => exact .inr (hwritten hinst)
      | false => exact .inl (hunwritten hinst)

/-- The operation that resolves is none that sets a cause. -/
theorem setsCause_of_resolves {o : ActionOp} (h : issues .xltResolve o = true) : setsCause o = false := by
  cases o with
  | issue cw a b c d =>
    cases hd : decode cw with
    | error e => simp [issues, issuesOnly, hd] at h
    | ok i =>
      have hi : i = .xltResolve := by simpa [issues, issuesOnly, hd] using h
      simp [setsCause, issuesOnly, hd, hi, isCauseSetter]
  | _ => rfl

/-- Things that satisfy one of two properties that exclude each other are counted by either. -/
theorem countP_or_of_disjoint {α : Type} {p q : α → Bool} (hpq : ∀ a, p a = true → q a = false) (l : List α) :
    l.countP (fun a => p a || q a) = l.countP p + l.countP q := by
  induction l with
  | nil => rfl
  | cons a l ih =>
    simp only [List.countP_cons, ih]
    cases hp : p a with
    | true => simp [hpq a hp]; omega
    | false => simp; omega

/-- Of a script in which one operation resolves or sets a cause, either it resolves or it sets a cause (43_xlate R165). -/
theorem any_resolve_eq_not_setsCause {os : List ActionOp}
    (h : os.countP (fun o => issues .xltResolve o || setsCause o) = 1) :
    os.any (issues .xltResolve) = !os.any setsCause := by
  have hpos (p : ActionOp → Bool) : os.any p = true ↔ 0 < os.countP p := by rw [List.any_eq_true, List.countP_pos_iff]
  have hone : os.countP (issues .xltResolve) + os.countP setsCause = 1 :=
    (countP_or_of_disjoint (fun _ => setsCause_of_resolves) os).symm.trans h
  rw [Bool.eq_not_iff, ne_eq, Bool.eq_iff_iff, hpos, hpos]
  omega

/-- Settles O58: the one operation that counts is a resolution or a cause. -/
theorem conformingMmuResolvesOrRaises : Obligations.ConformingMmuResolvesOrRaises := by
  unfold Obligations.ConformingMmuResolvesOrRaises
  intro s t raw tag ct hm hc h
  obtain ⟨hrun, rfl⟩ := actExternal_ok hm h
  obtain ⟨hmay, halong, hanswer, hcontract⟩ := conforms_iff.1 (conforms_of_script hm hc)
  simp only [contractMet, Bool.and_eq_true, bne_iff_ne] at hcontract
  obtain ⟨hpause, hdoes⟩ := hcontract
  refine ⟨fun hx => ?_, fun hx => ?_⟩
  · have hops : s.nextRun.ops = [] := by simpa [hx] using hdoes
    have hset : s.nextRun.ops.any setsCause = false := by rw [hops]; rfl
    rw [hops] at hrun
    cases hrun
    exact ⟨answersWell_continue hanswer hpause hset, rfl⟩
  · have hone : s.nextRun.ops.any (issues .xltResolve) = !s.nextRun.ops.any setsCause :=
      any_resolve_eq_not_setsCause (by simpa [hx] using hdoes)
    obtain ⟨hresolved, hunresolved⟩ := runOps_port rfl hmay hrun
    cases hset : s.nextRun.ops.any setsCause with
    | false =>
      have hstep : FrontStep .aMmu s.dropRun t := runOps_front rfl hmay hrun
      have hvaddr : t.xp.vaddr = s.xp.vaddr := hstep.req.1
      have hsize : t.xp.size = s.xp.size := hstep.req.2
      have hstate : t.xp.state = .resolved := hresolved (by rw [hone, hset]; rfl)
      refine .inl ⟨answersWell_continue hanswer hpause hset, (runOps_pending hmay hrun).2 hset, ?_⟩
      rw [← hstate, ← hvaddr, ← hsize]
    | true =>
      obtain ⟨c, hraise, hpending, -, hvaddr⟩ := runOps_raised (.inr rfl) hmay halong hrun hset
      have hkept : t.xp = s.xp := hunresolved (by rw [hone, hset]; rfl)
      refine .inr ⟨(answersWell_transfer hanswer).1.1 hset, hkept, c, hraise, hpending, ?_⟩
      rw [hvaddr rfl, trunc_eq_ofNat]
      rfl

end Sys2Proof.Machine
end

section
/-!
SUPPORT. The Translation Port (43_xlate R161 to R170): each of its operations in the state that allows it and in the others, and
a result that is returned once.
-/

namespace Sys2Proof.Machine

section
variable {s : State} (hs : s.fatal = none)
include hs

/-- XLT.REQUEST of an idle port (43_xlate R162). -/
theorem exec_xltRequest_of_idle (h : s.xp.state = .idle) :
    exec .xltRequest s = .next ((s.setXp
      { s.xp with state := .requested, vaddr := s.bus.arg0, size := s.bus.arg1.setWidth 8 }).respond Response.ok) :=
  command_of_ok hs (by simp only [opRequest, h])

theorem exec_xltRequest_of_not_idle (h : s.xp.state ≠ .idle) : exec .xltRequest s = .next (s.latch .xltBusy) := by
  refine command_of_fatal hs ?_
  unfold opRequest
  split
  · contradiction
  · rfl
  · rfl

/-- XLT.RESOLVE of a port with a request (43_xlate R164). -/
theorem exec_xltResolve_of_requested (h : s.xp.state = .requested) :
    exec .xltResolve s = .next ((s.setXp
      { s.xp with state := .resolved, paddr := s.bus.arg0, misalign := s.bus.arg1 }).respond Response.ok) :=
  command_of_ok hs (opResolve_of_requested h s.bus)

theorem exec_xltResolve_of_not_requested (h : s.xp.state ≠ .requested) :
    exec .xltResolve s = .next (s.latch .xltBadResolve) := by
  refine command_of_fatal hs ?_
  unfold opResolve
  split
  · rfl
  · contradiction
  · rfl

/-- XLT.RESULT of a resolved port, which stays so (43_xlate R167). -/
theorem exec_xltResult_of_resolved (h : s.xp.state = .resolved) :
    exec .xltResult s = .next (s.respond s.xp.triple) :=
  command_of_ok hs (by simp only [opResult, h])

theorem exec_xltResult_of_not_resolved (h : s.xp.state ≠ .resolved) :
    exec .xltResult s = .next (s.latch .xltNoResult) := by
  refine command_of_fatal hs ?_
  unfold opResult
  split
  · rfl
  · rfl
  · contradiction

/-- XLT.POP_RESULT of a resolved port, which ends idle (43_xlate R169). -/
theorem exec_xltPopResult_of_resolved (h : s.xp.state = .resolved) :
    exec .xltPopResult s = .next ((s.setXp { s.xp with state := .idle }).respond s.xp.triple) :=
  command_of_ok hs (by simp only [opPopResult, h])

theorem exec_xltPopResult_of_not_resolved (h : s.xp.state ≠ .resolved) :
    exec .xltPopResult s = .next (s.latch .xltNoResult) := by
  refine command_of_fatal hs ?_
  unfold opPopResult
  split
  · rfl
  · rfl
  · contradiction

end

/-- Settles O21: in each state the operations it allows do their work, and the others latch their code. -/
theorem translationPortMachine : Obligations.TranslationPortMachine := by
  unfold Obligations.TranslationPortMachine
  intro s hs
  refine ⟨fun hidle => ?_, fun hrequested => ?_, fun hresolved => ?_⟩
  · have hnotReq : s.xp.state ≠ .requested := by rw [hidle]; decide
    have hnotRes : s.xp.state ≠ .resolved := by rw [hidle]; decide
    refine ⟨?_, exec_xltResolve_of_not_requested hs hnotReq, exec_xltResult_of_not_resolved hs hnotRes,
      exec_xltPopResult_of_not_resolved hs hnotRes⟩
    rw [exec_xltRequest_of_idle hs hidle, BitVec.ofNat_toNat]
    rfl
  · have hnotIdle : s.xp.state ≠ .idle := by rw [hrequested]; decide
    have hnotRes : s.xp.state ≠ .resolved := by rw [hrequested]; decide
    exact ⟨exec_xltRequest_of_not_idle hs hnotIdle, exec_xltResolve_of_requested hs hrequested,
      exec_xltResult_of_not_resolved hs hnotRes, exec_xltPopResult_of_not_resolved hs hnotRes⟩
  · have hnotIdle : s.xp.state ≠ .idle := by rw [hresolved]; decide
    have hnotReq : s.xp.state ≠ .requested := by rw [hresolved]; decide
    exact ⟨exec_xltRequest_of_not_idle hs hnotIdle, exec_xltResolve_of_not_requested hs hnotReq,
      exec_xltResult_of_resolved hs hresolved, exec_xltPopResult_of_resolved hs hresolved⟩

/-- Settles O22: each operation leaves the port in the state that allows the next, and the pop leaves it idle, with no result. -/
theorem popReturnsTheResultOnce : Obligations.PopReturnsTheResultOnce := by
  unfold Obligations.PopReturnsTheResultOnce
  intro s va pa mi sz hs hidle
  obtain ⟨t, hrequest, htf, hts, htv⟩ : ∃ t,
      exec .xltRequest { s with bus := { s.bus with arg0 := va, arg1 := sz } } = .next t ∧
        t.fatal = none ∧ t.xp.state = .requested ∧ t.xp.vaddr = va :=
    ⟨_, exec_xltRequest_of_idle hs hidle, hs, rfl, rfl⟩
  obtain ⟨u, hresolve, huf, hus, hut⟩ : ∃ u,
      exec .xltResolve { t with bus := { t.bus with arg0 := pa, arg1 := mi } } = .next u ∧
        u.fatal = none ∧ u.xp.state = .resolved ∧ u.xp.triple = Response.ofTriple pa va mi :=
    ⟨_, exec_xltResolve_of_requested htf hts, htf, rfl, by rw [← htv]; rfl⟩
  refine ⟨t, u, _, hrequest, hresolve, exec_xltPopResult_of_resolved huf hus, hut, rfl, huf, ?_⟩
  exact exec_xltPopResult_of_not_resolved huf XpState.noConfusion

end Sys2Proof.Machine
end

section
/-!
SUPPORT. The Exception/Interrupt Unit (44_trap_ops R181 to R186): a cause set on an empty slot and refused on a full one, and
the two refusals of a delivery, for its causes and for the fields it names.
-/

namespace Sys2Proof.Machine

/-! ### A fault set -/

section
variable {s : State} {c : Nat} (b : Bus)

/-- The code is looked at first (44_trap_ops R181). -/
theorem opSetFault_of_not_code (hc : s.cfg.isFaultCode c = false) : opSetFault c b s = .fatal .badCause := if_pos hc

theorem opSetFault_of_interrupt_pending (hc : s.cfg.isFaultCode c = true) (hi : s.trap.pendIntr ≠ none) :
    opSetFault c b s = .fatal .bothPending := by
  rw [opSetFault, if_neg (by simp [hc]), if_pos (Option.isSome_iff_ne_none.2 hi)]

theorem opSetFault_of_fault_pending (hc : s.cfg.isFaultCode c = true) (hi : s.trap.pendIntr = none)
    (hf : s.trap.pendFault ≠ none) : opSetFault c b s = .fatal .slotOccupied := by
  rw [opSetFault, if_neg (by simp [hc]), if_neg (by simp [hi]), if_pos (Option.isSome_iff_ne_none.2 hf)]

end

/-- Settles O23: the code is checked, then the other cause, then the slot; only past all three is the latch written. -/
theorem setFaultRecordsTheCause : Obligations.SetFaultRecordsTheCause := by
  unfold Obligations.SetFaultRecordsTheCause
  intro s c hs
  refine ⟨fun hc hf hi => ?_, fun hc => ?_, fun hc hi => ?_, fun hc hi hf => ?_⟩
  · simp only [← trunc_eq_ofNat]
    exact command_of_ok hs (opSetFault_of_empty hc hf hi s.bus)
  · exact command_of_fatal hs (opSetFault_of_not_code s.bus hc)
  · exact command_of_fatal hs (opSetFault_of_interrupt_pending s.bus hc hi)
  · exact command_of_fatal hs (opSetFault_of_fault_pending s.bus hc hi hf)

/-! ### An interrupt set -/

section
variable {s : State} {c : Nat}

/-- TRAP.SET_INTERRUPT of a member code on an empty slot (44_trap_ops R183). -/
theorem opSetInterrupt_of_empty (hc : s.cfg.isIntrCode c = true) (hf : s.trap.pendFault = none)
    (hi : s.trap.pendIntr = none) : opSetInterrupt c s = .ok (s.setTrap ⟨none, some c, 0, 0, 0⟩) Response.ok := by
  rw [opSetInterrupt, if_neg (by simp [hc]), if_neg (by simp [hf]), if_neg (by simp [hi])]
  rfl

/-- The code is looked at first (44_trap_ops R183). -/
theorem opSetInterrupt_of_not_code (hc : s.cfg.isIntrCode c = false) : opSetInterrupt c s = .fatal .badCause := if_pos hc

theorem opSetInterrupt_of_fault_pending (hc : s.cfg.isIntrCode c = true) (hf : s.trap.pendFault ≠ none) :
    opSetInterrupt c s = .fatal .bothPending := by
  rw [opSetInterrupt, if_neg (by simp [hc]), if_pos (Option.isSome_iff_ne_none.2 hf)]

theorem opSetInterrupt_of_interrupt_pending (hc : s.cfg.isIntrCode c = true) (hf : s.trap.pendFault = none)
    (hi : s.trap.pendIntr ≠ none) : opSetInterrupt c s = .fatal .slotOccupied := by
  rw [opSetInterrupt, if_neg (by simp [hc]), if_neg (by simp [hf]), if_pos (Option.isSome_iff_ne_none.2 hi)]

end

/-- Settles O24: the checks are those of a fault with the two causes exchanged, and the latch is zeroed. -/
theorem setInterruptRecordsTheCause : Obligations.SetInterruptRecordsTheCause := by
  unfold Obligations.SetInterruptRecordsTheCause
  intro s c hs
  refine ⟨fun hc hf hi => ?_, fun hc => ?_, fun hc hf => ?_, fun hc hf hi => ?_⟩
  · exact command_of_ok hs (opSetInterrupt_of_empty hc hf hi)
  · exact command_of_fatal hs (opSetInterrupt_of_not_code hc)
  · exact command_of_fatal hs (opSetInterrupt_of_fault_pending hc hf)
  · exact command_of_fatal hs (opSetInterrupt_of_interrupt_pending hc hf hi)

/-! ### The causes of a delivery -/

theorem opDeliver_of_none_pending {s : State} (hf : s.trap.pendFault = none) (hi : s.trap.pendIntr = none) :
    opDeliver s = .fatal .nonePending := by
  simp only [opDeliver, hf, hi]

theorem opDeliver_of_both_pending {s : State} (hf : s.trap.pendFault ≠ none) (hi : s.trap.pendIntr ≠ none) :
    opDeliver s = .fatal .bothPending := by
  obtain ⟨f, hf⟩ := Option.ne_none_iff_exists'.1 hf
  obtain ⟨i, hi⟩ := Option.ne_none_iff_exists'.1 hi
  simp only [opDeliver, hf, hi]

/-- Settles O25: the slot is looked at before any name; empty and doubly full, it is refused with a code of its own. -/
theorem deliverNeedsExactlyOneCause : Obligations.DeliverNeedsExactlyOneCause := by
  unfold Obligations.DeliverNeedsExactlyOneCause
  intro s hs
  exact ⟨fun hf hi => command_of_fatal hs (opDeliver_of_none_pending hf hi),
    fun hf hi => command_of_fatal hs (opDeliver_of_both_pending hf hi)⟩

/-! ### The fields that delivery names -/

/-- A lookup of a CSR that the table has ends, with whatever follows it, in the code in which what follows ends. -/
theorem needCsr_bind_error {α : Type} {c : Config} {nm : CsrName} {k : CsrDesc → Except FatalCode α} {e : FatalCode}
    (hnm : c.descNamed nm ≠ none) (h : ∀ d, c.descNamed nm = some d → k d = .error e) : (c.needCsr nm >>= k) = .error e := by
  obtain ⟨d, hd⟩ := Option.ne_none_iff_exists'.1 hnm
  rw [Config.needCsr_ok.2 hd]
  exact h d hd

/-- A lookup of a field, and whatever follows it, ends in F_UNKNOWN_FIELD if what follows does once the field is found. -/
theorem needField_bind_unknown {α : Type} {d : CsrDesc} {nm : FieldName} {k : CsrField → Except FatalCode α}
    (h : ∀ f, d.fieldNamed nm = some f → k f = .error .unknownField) : (d.needField nm >>= k) = .error .unknownField := by
  unfold CsrDesc.needField
  cases hf : d.fieldNamed nm with
  | none => rfl
  | some f => exact h f hf

/-- With every CSR of delivery in the table, lookups that do not all find their name end in F_UNKNOWN_FIELD (60_exceptions
R207). -/
theorem trapNames_unknownField {c : Config} (hcsr : ∀ nm ∈ trapCsrNames c.xlen, c.descNamed nm ≠ none)
    (hmiss : ∀ t : TrapNames, ¬ t.Found c) : c.trapNames = .error .unknownField := by
  simp only [trapCsrNames, List.forall_mem_cons] at hcsr
  obtain ⟨n1, n2, n3, n4, n5, n6, n7, n8, n9, n10, n11, n12, -⟩ := hcsr
  unfold Config.trapNames
  refine needCsr_bind_error n1 fun _ h1 => needCsr_bind_error n2 fun _ h2 => needCsr_bind_error n3 fun _ h3 =>
    needCsr_bind_error n4 fun _ h4 => needCsr_bind_error n5 fun _ h5 => needCsr_bind_error n6 fun _ h6 =>
    needCsr_bind_error n7 fun _ h7 => needCsr_bind_error n8 fun _ h8 => needCsr_bind_error n9 fun _ h9 =>
    needCsr_bind_error n10 fun _ h10 => needCsr_bind_error n11 fun _ h11 => needCsr_bind_error n12 fun _ h12 =>
    needField_bind_unknown fun _ f1 => needField_bind_unknown fun _ f2 => needField_bind_unknown fun _ f3 =>
    needField_bind_unknown fun _ f4 => needField_bind_unknown fun _ f5 => needField_bind_unknown fun _ f6 =>
    needField_bind_unknown fun _ f7 => needField_bind_unknown fun _ f8 => ?_
  exact absurd ⟨h1, h2, h3, h4, h5, h6, h7, h8, h9, h10, h11, h12, f1, f2, f3, f4, f5, f6, f7, f8⟩
    (hmiss ⟨_, _, _, _, _, _, _, _, _, _, _, _, _, _, _, _, _, _, _, _⟩)

section
variable {c : Config} {t : TrapNames} {d : CsrDesc} {f : FieldName}

/-- The fields of the status update that stand in MSTATUS at either width (60_exceptions R204, R205). -/
theorem TrapNames.Found.mstatus_field (ht : t.Found c) (hd : c.descNamed .mstatus = some d)
    (hf : f ∈ [FieldName.mie, .mpie, .mpp, .sie, .spie, .spp]) : d.fieldNamed f ≠ none := by
  obtain rfl : t.mstatus = d := Option.some.inj (ht.mstatus.symm.trans hd)
  have hall : ∀ f ∈ [FieldName.mie, .mpie, .mpp, .sie, .spie, .spp], t.mstatus.fieldNamed f ≠ none := by
    simp [ht.mie, ht.mpie, ht.mpp, ht.sie, ht.spie, ht.spp]
  exact hall f hf

/-- The two fields that stand in MSTATUS or in MSTATUSH, by the width (60_exceptions R206). -/
theorem TrapNames.Found.sv_field (ht : t.Found c) (hd : c.descNamed (svName c.xlen) = some d)
    (hf : f ∈ [FieldName.mpv, .gva]) : d.fieldNamed f ≠ none := by
  obtain rfl : t.sv = d := Option.some.inj (ht.sv.symm.trans hd)
  have hall : ∀ f ∈ [FieldName.mpv, .gva], t.sv.fieldNamed f ≠ none := by
    simp [ht.mpv, ht.gva]
  exact hall f hf

end

theorem svName_eq_ite (x : XLen) : svName x = if x = .rv64 then .mstatus else .mstatush := by
  cases x <;> rfl

/-- The names of delivery's CSRs are those of both widths, and MSTATUSH at RV32 (60_exceptions R206). -/
theorem descNamed_trapCsrNames {c : Config}
    (hcsr : ∀ nm ∈ [CsrName.medeleg, .mideleg, .mtvec, .mepc, .mcause, .mtval, .stvec, .sepc, .scause, .stval, .mstatus],
      c.descNamed nm ≠ none)
    (hsv : c.xlen = .rv32 → c.descNamed .mstatush ≠ none) : ∀ nm ∈ trapCsrNames c.xlen, c.descNamed nm ≠ none := by
  intro nm hnm
  rcases List.mem_append.1 (show nm ∈ [_, _, _, _, _, _, _, _, _, _, _] ++ [svName c.xlen] from hnm) with hnm | hnm
  · exact hcsr nm hnm
  · rw [List.mem_singleton.1 hnm]
    cases hx : c.xlen with
    | rv64 => exact hcsr .mstatus (by decide)
    | rv32 => exact hsv hx

/-- Settles O56: exactly one cause is pending and every CSR is found, so the lookups come to the fields, of which one is
missing. -/
theorem deliverNeedsEveryNamedField : Obligations.DeliverNeedsEveryNamedField := by
  unfold Obligations.DeliverNeedsEveryNamedField
  intro s isIntr c d f hs hp hcsr hsv hd hf
  have hmiss : ∀ t : TrapNames, ¬ t.Found s.cfg := by
    intro t ht
    rcases hd with ⟨hmem, hd⟩ | ⟨hmem, hd⟩
    · exact ht.mstatus_field hd hmem hf
    · rw [← svName_eq_ite] at hd
      exact ht.sv_field hd hmem hf
  have hop : opDeliver s = .fatal .unknownField := by
    rw [opDeliver_pending hp, opDeliverCause, trapNames_unknownField (descNamed_trapCsrNames hcsr hsv) hmiss]
  exact command_of_fatal hs hop

end Sys2Proof.Machine
end

section
/-!
SUPPORT. Taking a trap (60_exceptions R194 to R210): how TRAP.DELIVER ends over any table, which bits it cannot change, and on
the default table every value it writes.
-/

namespace Sys2Proof.Machine

/-! ### How a delivery ends -/

/-- With one cause pending and every name found, TRAP.DELIVER delivers the cause (44_trap_ops R185). -/
theorem exec_trapDeliver_of_found {s : State} {isIntr : Bool} {c : Nat} {n : TrapNames} (hs : s.fatal = none)
    (hp : PendingOnly s isIntr c) (hn : n.Found s.cfg) :
    exec .trapDeliver s = .next ((s.deliver n isIntr c).respond Response.ok) :=
  command_of_ok hs (by rw [opDeliver_pending hp, opDeliverCause, Config.trapNames_of_found hn])

/-- TRAP.DELIVER answers a fatal and leaves all but the latch, or delivers the one cause pending. -/
theorem exec_trapDeliver_cases {s t : State} (h : exec .trapDeliver s = .next t) :
    (t = { s with fatal := t.fatal, resp := t.resp } ∧ t.resp.status = true) ∨
    (∃ isIntr c n, PendingOnly s isIntr c ∧ n.Found s.cfg ∧ t = (s.deliver n isIntr c).respond Response.ok) := by
  rcases command_cases h with ⟨_, _, rfl⟩ | ⟨u, r, -, hok, rfl⟩ | ⟨_, _, _, rfl⟩
  · exact .inl ⟨rfl, rfl⟩
  · obtain ⟨isIntr, c, n, hp, hn, rfl, rfl⟩ := opDeliver_ok hok
    exact .inr ⟨isIntr, c, n, hp, Config.trapNames_ok hn, rfl⟩
  · exact .inl ⟨rfl, rfl⟩

/-- A delivery that answers OK delivered the one cause pending. -/
theorem exec_trapDeliver_ok {s t : State} (h : exec .trapDeliver s = .next t) (hok : t.resp.status = false) :
    ∃ isIntr c n, PendingOnly s isIntr c ∧ n.Found s.cfg ∧ t = (s.deliver n isIntr c).respond Response.ok := by
  rcases exec_trapDeliver_cases h with ⟨-, hfatal⟩ | hdelivered
  · cases hok.symm.trans hfatal
  · exact hdelivered

/-- The slot holds one cause, of one class (10_state R30). -/
theorem PendingOnly.unique {s : State} {i j : Bool} {c k : Nat} (h : PendingOnly s i c) (h' : PendingOnly s j k) :
    i = j ∧ c = k := by
  obtain ⟨hf, hi⟩ := h
  obtain ⟨hf', hi'⟩ := h'
  rw [hf] at hf'
  rw [hi] at hi'
  cases i <;> cases j <;> simp_all

section
variable (s : State) (n : TrapNames) (isIntr : Bool) (c : Nat)

theorem State.deliver_priv : (s.deliver n isIntr c).priv = s.trapTarget n isIntr c :=
  congrArg State.priv (s.deliver_frame n isIntr c)

theorem State.deliver_nextPc : (s.deliver n isIntr c).nextPc =
    clearBit0 (s.csr.get (if s.trapTarget n isIntr c = .supervisor then n.stvec.number else n.mtvec.number)) :=
  congrArg State.nextPc (s.deliver_frame n isIntr c)

theorem State.deliver_pc : (s.deliver n isIntr c).pc = s.pc := by
  rw [State.deliver_frame]

end

/-- Settles O29: the cause delivered is the one pending, and its bit is read in the table's own delegation CSR. -/
theorem delegationBitDecidesTheTarget : Obligations.DelegationBitDecidesTheTarget := by
  unfold Obligations.DelegationBitDecidesTheTarget
  intro s t isIntr c d _ hp hd h hok
  obtain ⟨j, k, n, hpend, hn, rfl⟩ := exec_trapDeliver_ok h hok
  obtain ⟨rfl, rfl⟩ := hp.unique hpend
  have hnumber : (if isIntr then n.mideleg.number else n.medeleg.number) = d.number := by
    cases isIntr with
    | false => rw [Option.some.inj (hn.medeleg.symm.trans hd)]; rfl
    | true => rw [Option.some.inj (hn.mideleg.symm.trans hd)]; rfl
  rw [State.respond_priv, State.deliver_priv, State.trapTarget, hnumber]

/-- Settles O31: `next_pc` is read before any CSR is written, from the TVEC of the target. -/
theorem trapEntryClearsOnlyBitZero : Obligations.TrapEntryClearsOnlyBitZero := by
  unfold Obligations.TrapEntryClearsOnlyBitZero
  intro s t d _ h hok hd
  obtain ⟨isIntr, c, n, -, hn, rfl⟩ := exec_trapDeliver_ok h hok
  rw [State.respond_priv, State.deliver_priv] at hd
  have hnextPc : (s.deliver n isIntr c).nextPc = clearBit0 (s.csr.get d.number) := by
    rw [State.deliver_nextPc]
    split at hd
    next htarget => rw [if_pos htarget, Option.some.inj (hn.stvec.symm.trans hd)]
    next htarget => rw [if_neg htarget, Option.some.inj (hn.mtvec.symm.trans hd)]
  rw [State.respond_nextPc, State.respond_pc, State.deliver_pc, hnextPc]
  refine ⟨getLsbD_clearBit0 _ 0, fun k hk => ?_, rfl⟩
  rw [getLsbD_clearBit0, decide_eq_true hk, Bool.true_and]

/-! ### Read-only bits -/

section
variable {cfg : Config} {d e : CsrDesc} {k : Nat} (hcfg : cfg.ok = true) (hd : d ∈ cfg.csrTab)
  (hk : d.mask.getLsbD k = false)
include hcfg hd hk

/-- A masked write, to whatever CSR of a checked table, leaves a read-only bit (41_csr R112). -/
theorem csrWrite_readOnly (he : e ∈ cfg.csrTab) (u : State) (v : Word) :
    ((u.csrWrite e v).csr.get d.number).getLsbD k = (u.csr.get d.number).getLsbD k := by
  rw [State.csrWrite_get]
  split
  next hnumber =>
    obtain rfl := Config.desc_unique hcfg hd he hnumber
    rw [getLsbD_maskedMerge, hk]
    rfl
  next => rfl

theorem fieldWrite_readOnly (he : e ∈ cfg.csrTab) (u : State) (f : CsrField) (x : Word) :
    ((u.fieldWrite e f x).csr.get d.number).getLsbD k = (u.csr.get d.number).getLsbD k :=
  csrWrite_readOnly hcfg hd hk he u _

variable {n : TrapNames} (hn : n.Found cfg)
include hn

theorem machineStatus_readOnly (u : State) :
    ((u.machineStatus n).csr.get d.number).getLsbD k = (u.csr.get d.number).getLsbD k := by
  have hms := fieldWrite_readOnly hcfg hd hk (Config.descNamed_mem hn.mstatus)
  have hsv := fieldWrite_readOnly hcfg hd hk (Config.descNamed_mem hn.sv)
  rw [State.machineStatus, hsv, hsv, hms, hms, hms]

theorem supervisorStatus_readOnly (u : State) :
    ((u.supervisorStatus n).csr.get d.number).getLsbD k = (u.csr.get d.number).getLsbD k := by
  have hms := fieldWrite_readOnly hcfg hd hk (Config.descNamed_mem hn.mstatus)
  rw [State.supervisorStatus, hms, hms, hms]

theorem deliver_readOnly (s : State) (isIntr : Bool) (c : Nat) :
    ((s.deliver n isIntr c).csr.get d.number).getLsbD k = (s.csr.get d.number).getLsbD k := by
  have hw := fun {nm : CsrName} {e : CsrDesc} (he : cfg.descNamed nm = some e) =>
    csrWrite_readOnly hcfg hd hk (Config.descNamed_mem he)
  rcases s.trapTarget_cases n isIntr c with htarget | htarget
  · rw [State.deliver_machine htarget, State.recordMachine, machineStatus_readOnly hcfg hd hk hn, hw hn.mtval, hw hn.mcause,
      hw hn.mepc, State.setNextPc_csr]
  · rw [State.deliver_supervisor htarget, State.recordSupervisor, supervisorStatus_readOnly hcfg hd hk hn, hw hn.stval,
      hw hn.scause, hw hn.sepc, State.setNextPc_csr]

end

/-- Settles O32: a fatal writes no CSR, and every write of a delivery goes through the mask of its descriptor. -/
theorem deliveryKeepsReadOnlyBits : Obligations.DeliveryKeepsReadOnlyBits := by
  unfold Obligations.DeliveryKeepsReadOnlyBits
  intro s t d k hcfg hd hk h
  rcases exec_trapDeliver_cases h with ⟨hframe, -⟩ | ⟨isIntr, c, n, -, hn, rfl⟩
  · rw [hframe]
  · exact deliver_readOnly hcfg hd hk hn s isIntr c

/-! ### The record and the status update -/

/-- The state after step 3's redirect and its three whole-CSR writes, before the status update (60_exceptions R200 to R203). -/
def State.recorded (s : State) (tvec epc cause tval : CsrDesc) (isIntr : Bool) (c : Nat) : State :=
  (((s.setNextPc (clearBit0 (s.csr.get tvec.number))).csrWrite epc s.pc).csrWrite cause
    (causeValue s.cfg.xlen isIntr c)).csrWrite tval (s.trapValue isIntr c)

@[simp] theorem State.recorded_priv (s : State) (tvec epc cause tval : CsrDesc) (isIntr : Bool) (c : Nat) :
    (s.recorded tvec epc cause tval isIntr c).priv = s.priv := rfl

theorem State.recordMachine_eq (s : State) (n : TrapNames) (isIntr : Bool) (c : Nat) :
    s.recordMachine n isIntr c = (s.recorded n.mtvec n.mepc n.mcause n.mtval isIntr c).machineStatus n := rfl

theorem State.recordSupervisor_eq (s : State) (n : TrapNames) (isIntr : Bool) (c : Nat) :
    s.recordSupervisor n isIntr c = (s.recorded n.stvec n.sepc n.scause n.stval isIntr c).supervisorStatus n := rfl

theorem Good.pc_fits {s : State} (h : Good s) : fits s.cfg.xlen s.pc = true := by
  obtain ⟨-, -, hpc, -⟩ := (State.cellsFit_iff s).1 h.cells
  exact hpc

/-- Three distinct CSRs that are writable in every bit hold the three values whole; the others are as before. -/
theorem Good.recorded_get {s : State} (h : Good s) {tvec epc cause tval : CsrDesc}
    (hmask : ∀ d ∈ [epc, cause, tval], d.mask = ones s.cfg.xlen.bits)
    (hdistinct : [epc, cause, tval].Pairwise fun d e => d.number ≠ e.number) (isIntr : Bool) (c m : Nat) :
    (s.recorded tvec epc cause tval isIntr c).csr.get m =
      if m = tval.number then s.trapValue isIntr c
      else if m = cause.number then causeValue s.cfg.xlen isIntr c
      else if m = epc.number then s.pc
      else s.csr.get m := by
  simp only [List.forall_mem_cons, List.pairwise_cons] at hmask hdistinct
  obtain ⟨hepc, hcause, htval, -⟩ := hmask
  obtain ⟨⟨hec, het, -⟩, ⟨hct, -⟩, -⟩ := hdistinct
  rw [State.recorded, State.record_get _ _ _ _ _ _ _ _ _ hec het hct, hepc, hcause, htval,
    maskedMerge_ones (h.csr_fits m) (h.trapValue_fits isIntr c), maskedMerge_ones (h.csr_fits m) fits_causeValue,
    maskedMerge_ones (h.csr_fits m) h.pc_fits]

/-- The status update to MACHINE writes MSTATUS and the CSR of `mpv` and `gva` alone (60_exceptions R204, R206). -/
theorem State.machineStatus_other (s : State) {n : TrapNames} {m : Nat} (hms : m ≠ n.mstatus.number)
    (hsv : m ≠ n.sv.number) : (s.machineStatus n).csr.get m = s.csr.get m := by
  rw [State.machineStatus, State.fieldWrite_other _ _ _ _ hsv, State.fieldWrite_other _ _ _ _ hsv,
    State.fieldWrite_other _ _ _ _ hms, State.fieldWrite_other _ _ _ _ hms, State.fieldWrite_other _ _ _ _ hms]

/-- The status update to SUPERVISOR writes MSTATUS alone (60_exceptions R205). -/
theorem State.supervisorStatus_other (s : State) {n : TrapNames} {m : Nat} (hms : m ≠ n.mstatus.number) :
    (s.supervisorStatus n).csr.get m = s.csr.get m := by
  rw [State.supervisorStatus, State.fieldWrite_other _ _ _ _ hms, State.fieldWrite_other _ _ _ _ hms,
    State.fieldWrite_other _ _ _ _ hms]

/-! ### The trap value -/

/-- The trap value by the class of the cause, the sum of the fetch class over the natural numbers (60_exceptions R197 to
R199). -/
theorem State.trapValue_eq (s : State) (isIntr : Bool) (c : Nat) :
    s.trapValue isIntr c =
      if isIntr then 0
      else match s.cfg.faultClass c with
        | .fetch => BitVec.ofNat 64 ((s.trap.tiVaddr.toNat + s.trap.tiMisalign.toNat) % 2 ^ s.cfg.xlen.bits)
        | .loadStore => s.trap.tiVaddr
        | .illegal => s.trap.tiOpcode
        | .zero => 0 := by
  have hsum : trunc s.cfg.xlen (s.trap.tiVaddr + s.trap.tiMisalign) =
      BitVec.ofNat 64 ((s.trap.tiVaddr.toNat + s.trap.tiMisalign.toNat) % 2 ^ s.cfg.xlen.bits) := by
    rw [trunc_eq_ofNat, BitVec.toNat_add, Nat.mod_mod_of_dvd _ (pow_dvd_pow 2 (xlen_bits_le _))]
  rw [← hsum]
  rfl

/-! ### Delivery on the default table -/

theorem trapTarget_of_delegated {s : State} {isIntr : Bool} {c : Nat} (x : XLen)
    (h : (s.csr.get (if isIntr then 0x303 else 0x302)).getLsbD c = true) :
    s.trapTarget (refNames x) isIntr c = .supervisor := if_pos h

theorem trapTarget_of_not_delegated {s : State} {isIntr : Bool} {c : Nat} (x : XLen)
    (h : (s.csr.get (if isIntr then 0x303 else 0x302)).getLsbD c = false) :
    s.trapTarget (refNames x) isIntr c = .machine := if_neg (ne_true_of_eq_false h)

/-- `mpv` and `gva` stand in MSTATUSH at RV32, in MSTATUS at RV64 (60_exceptions R206). -/
theorem refNames_sv_number (x : XLen) : (refNames x).sv.number = if x = .rv32 then 0x310 else 0x300 := by
  cases x <;> rfl

section
variable {s : State} (h : TrapReady s)
include h

theorem TrapReady.good : Good s := (Sound.of_inv h.inv h.safe).good

theorem TrapReady.found : (refNames s.cfg.xlen).Found s.cfg := refNames_found _ rfl h.table

theorem TrapReady.exec {isIntr : Bool} {c : Nat} (hp : PendingOnly s isIntr c) :
    exec .trapDeliver s = .next ((s.deliver (refNames s.cfg.xlen) isIntr c).respond Response.ok) :=
  exec_trapDeliver_of_found h.safe hp h.found

/-- The record of a delivery to MACHINE, on the default table (60_exceptions R201 to R203). -/
theorem TrapReady.machine_recorded_get (isIntr : Bool) (c m : Nat) :
    (s.recorded (refNames s.cfg.xlen).mtvec (refNames s.cfg.xlen).mepc (refNames s.cfg.xlen).mcause
        (refNames s.cfg.xlen).mtval isIntr c).csr.get m =
      if m = 0x343 then s.trapValue isIntr c
      else if m = 0x342 then causeValue s.cfg.xlen isIntr c
      else if m = 0x341 then s.pc
      else s.csr.get m :=
  h.good.recorded_get (by simp [refNames, csrRow_mask]) (by simp [refNames, csrRow_number]) isIntr c m

/-- The record of a delivery to SUPERVISOR, on the default table (60_exceptions R201 to R203). -/
theorem TrapReady.supervisor_recorded_get (isIntr : Bool) (c m : Nat) :
    (s.recorded (refNames s.cfg.xlen).stvec (refNames s.cfg.xlen).sepc (refNames s.cfg.xlen).scause
        (refNames s.cfg.xlen).stval isIntr c).csr.get m =
      if m = 0x143 then s.trapValue isIntr c
      else if m = 0x142 then causeValue s.cfg.xlen isIntr c
      else if m = 0x141 then s.pc
      else s.csr.get m :=
  h.good.recorded_get (by simp [refNames, csrRow_mask]) (by simp [refNames, csrRow_number]) isIntr c m

/-- Every CSR but the status ones after a delivery to MACHINE. -/
theorem TrapReady.recordMachine_get (isIntr : Bool) (c : Nat) {m : Nat} (hms : m ≠ 0x300)
    (hsv : s.cfg.xlen = .rv32 → m ≠ 0x310) :
    (s.recordMachine (refNames s.cfg.xlen) isIntr c).csr.get m =
      if m = 0x343 then s.trapValue isIntr c
      else if m = 0x342 then causeValue s.cfg.xlen isIntr c
      else if m = 0x341 then s.pc
      else s.csr.get m := by
  have hsv' : m ≠ (refNames s.cfg.xlen).sv.number := by
    rw [refNames_sv_number]
    split
    next hx => exact hsv hx
    next => exact hms
  rw [State.recordMachine_eq, State.machineStatus_other _ hms hsv', h.machine_recorded_get]

/-- Every CSR but MSTATUS after a delivery to SUPERVISOR. -/
theorem TrapReady.recordSupervisor_get (isIntr : Bool) (c : Nat) {m : Nat} (hms : m ≠ 0x300) :
    (s.recordSupervisor (refNames s.cfg.xlen) isIntr c).csr.get m =
      if m = 0x143 then s.trapValue isIntr c
      else if m = 0x142 then causeValue s.cfg.xlen isIntr c
      else if m = 0x141 then s.pc
      else s.csr.get m := by
  rw [State.recordSupervisor_eq, State.supervisorStatus_other _ hms, h.supervisor_recorded_get]

/-- The TVAL CSR of the target holds the trap value (60_exceptions R203). -/
theorem TrapReady.deliver_tval (isIntr : Bool) (c : Nat) :
    (s.deliver (refNames s.cfg.xlen) isIntr c).csr.get
        (if (s.csr.get (if isIntr then 0x303 else 0x302)).getLsbD c then 0x143 else 0x343) = s.trapValue isIntr c := by
  cases hbit : (s.csr.get (if isIntr then 0x303 else 0x302)).getLsbD c with
  | true =>
    rw [State.deliver_supervisor (trapTarget_of_delegated _ hbit), if_pos rfl,
      h.recordSupervisor_get _ _ (by decide), if_pos rfl]
  | false =>
    rw [State.deliver_machine (trapTarget_of_not_delegated _ hbit), if_neg Bool.false_ne_true,
      h.recordMachine_get _ _ (by decide) (fun _ => by decide), if_pos rfl]

end

/-- The class column of 60_exceptions R190, read through the configuration. -/
theorem faultClass_reference {cfg : Config} (h : cfg.faultCodes = Reference.faultCodes) :
    (∀ c ∈ [0, 1, 12], cfg.faultClass c = .fetch) ∧ (∀ c ∈ [4, 5, 6, 7, 13, 15], cfg.faultClass c = .loadStore) ∧
    cfg.faultClass 2 = .illegal ∧ (∀ c ∈ [3, 8, 9, 10, 11, 18, 19], cfg.faultClass c = .zero) := by
  unfold Config.faultClass
  rw [h]
  decide

/-- Settles O30: the TVAL CSR of the target holds the trap value, which the class of the code decides. -/
theorem trapValueByCause : Obligations.TrapValueByCause := by
  unfold Obligations.TrapValueByCause
  intro s c h hcodes
  refine ⟨fun hp => ⟨_, h.exec hp, rfl, ?_⟩, fun hp => ⟨_, h.exec hp, rfl, ?_⟩⟩
  · rintro tval rfl
    have htval := (h.deliver_tval false c).trans (s.trapValue_eq false c)
    obtain ⟨hfetch, hloadStore, hillegal, hzero⟩ := faultClass_reference hcodes
    refine ⟨fun hc => ?_, fun hc => ?_, fun hc => ?_, fun hc => ?_⟩
    · rw [hfetch c hc] at htval; exact htval
    · rw [hloadStore c hc] at htval; exact htval
    · subst hc; rw [hillegal] at htval; exact htval
    · rw [hzero c hc] at htval; exact htval
  · exact (h.deliver_tval true c).trans (s.trapValue_eq true c)

/-- MSTATUS after the status update to MACHINE, at both widths (60_exceptions R204, R206). -/
theorem State.machineStatus_mstatus_bit (x : XLen) (s : State) (k : Nat) :
    ((s.machineStatus (refNames x)).csr.get 0x300).getLsbD k =
      if k = 7 then (s.csr.get 0x300).getLsbD 3
      else if k = 3 then false
      else if k = 11 then decide (s.priv ≠ .user)
      else if k = 12 then decide (s.priv = .machine)
      else if x = .rv64 ∧ (k = 38 ∨ k = 39) then false
      else (s.csr.get 0x300).getLsbD k := by
  cases x with
  | rv32 => simpa using (State.machineStatus_rv32 s k).1
  | rv64 => simpa using State.machineStatus_rv64 s k

/-- MSTATUSH after the status update to MACHINE, at RV32 (60_exceptions R206). -/
theorem State.machineStatus_mstatush_bit {x : XLen} (hx : x = .rv32) (s : State) (k : Nat) :
    ((s.machineStatus (refNames x)).csr.get 0x310).getLsbD k =
      if k = 6 ∨ k = 7 then false else (s.csr.get 0x310).getLsbD k := by
  subst hx
  exact (State.machineStatus_rv32 s k).2

section
variable {s : State} (h : TrapReady s) (isIntr : Bool) (c k : Nat)
include h

theorem TrapReady.recordMachine_mstatus_bit :
    ((s.recordMachine (refNames s.cfg.xlen) isIntr c).csr.get 0x300).getLsbD k =
      if k = 7 then (s.csr.get 0x300).getLsbD 3
      else if k = 3 then false
      else if k = 11 then decide (s.priv ≠ .user)
      else if k = 12 then decide (s.priv = .machine)
      else if s.cfg.xlen = .rv64 ∧ (k = 38 ∨ k = 39) then false
      else (s.csr.get 0x300).getLsbD k := by
  rw [State.recordMachine_eq, State.machineStatus_mstatus_bit, h.machine_recorded_get, State.recorded_priv]
  rfl

theorem TrapReady.recordMachine_mstatush_bit (hx : s.cfg.xlen = .rv32) :
    ((s.recordMachine (refNames s.cfg.xlen) isIntr c).csr.get 0x310).getLsbD k =
      if k = 6 ∨ k = 7 then false else (s.csr.get 0x310).getLsbD k := by
  rw [State.recordMachine_eq, State.machineStatus_mstatush_bit hx, h.machine_recorded_get]
  rfl

theorem TrapReady.recordSupervisor_mstatus_bit :
    ((s.recordSupervisor (refNames s.cfg.xlen) isIntr c).csr.get 0x300).getLsbD k =
      if k = 5 then (s.csr.get 0x300).getLsbD 1
      else if k = 1 then false
      else if k = 8 then decide (s.priv ≠ .user)
      else (s.csr.get 0x300).getLsbD k := by
  rw [State.recordSupervisor_eq, State.supervisorStatus_bit, h.supervisor_recorded_get, State.recorded_priv]
  rfl

end

theorem clearBit0_eq (v : Word) : clearBit0 v = v &&& 0xFFFFFFFFFFFFFFFE#64 := rfl

/-- Settles O27: the three whole writes and the five field writes, each read back; the rest is `State.deliver_machine`. -/
theorem deliveryToMachine : Obligations.DeliveryToMachine := by
  unfold Obligations.DeliveryToMachine
  intro s isIntr c h hp hc hbit
  have hexec := h.exec hp
  rw [State.deliver_machine (trapTarget_of_not_delegated _ hbit)] at hexec
  have hget := fun m hms hsv => h.recordMachine_get isIntr c (m := m) hms hsv
  refine ⟨_, hexec, clearBit0_eq _, ?_, ?_, ?_, fun k => ?_, fun hx k => ?_, fun m hm hsv => ?_,
    rfl, rfl, rfl, rfl, rfl, rfl⟩
  · exact hget 0x341 (by decide) (fun _ => by decide)
  · exact (hget 0x342 (by decide) (fun _ => by decide)).trans (causeValue_eq _ _ hc)
  · exact (hget 0x343 (by decide) (fun _ => by decide)).trans (s.trapValue_eq isIntr c)
  · exact h.recordMachine_mstatus_bit isIntr c k
  · exact h.recordMachine_mstatush_bit isIntr c k hx
  · simp only [List.mem_cons, List.not_mem_nil, or_false, not_or] at hm
    obtain ⟨hms, hepc, hcause, htval⟩ := hm
    exact (hget m hms hsv).trans (by rw [if_neg htval, if_neg hcause, if_neg hepc])

/-- Settles O28: as to MACHINE, with the three field writes of `spie`, `spp` and `sie`. -/
theorem deliveryToSupervisor : Obligations.DeliveryToSupervisor := by
  unfold Obligations.DeliveryToSupervisor
  intro s isIntr c h hp hc hbit
  have hexec := h.exec hp
  rw [State.deliver_supervisor (trapTarget_of_delegated _ hbit)] at hexec
  have hget := fun m hms => h.recordSupervisor_get isIntr c (m := m) hms
  refine ⟨_, hexec, clearBit0_eq _, ?_, ?_, ?_, fun k => ?_, fun m hm => ?_, rfl, rfl, rfl, rfl, rfl, rfl⟩
  · exact hget 0x141 (by decide)
  · exact (hget 0x142 (by decide)).trans (causeValue_eq _ _ hc)
  · exact (hget 0x143 (by decide)).trans (s.trapValue_eq isIntr c)
  · exact h.recordSupervisor_mstatus_bit isIntr c k
  · simp only [List.mem_cons, List.not_mem_nil, or_false, not_or] at hm
    obtain ⟨hms, hepc, hcause, htval⟩ := hm
    exact (hget m hms).trans (by rw [if_neg htval, if_neg hcause, if_neg hepc])

end Sys2Proof.Machine
end
